-- ==== Sys2Proof/Word.lean ====
section
/-! DEFINITION. The word types of the block and their plainest arithmetic (00_scope.md R10, R12). -/

namespace Sys2Proof

/-- A symbol or a buffer byte (R10). -/
abbrev Byte := BitVec 8

/-- A register (R10, R23). -/
abbrev Word := BitVec 32

/-- One of the three 64-bit results of AR_ENC (R40, R192). -/
abbrev Dword := BitVec 64

/-- An offset in the host offset space (R60, R63). -/
abbrev Offset := BitVec 26

/-- `ceil_div` of R12. -/
def ceilDiv (a b : Nat) : Nat := (a + b - 1) / b

end Sys2Proof
end

