-- ==== Sys2Proof/Config.lean ====
section
/-! DEFINITION. What an instance of the block fixes (00_scope.md R9), and the free values that stand for whatever
the spec leaves unspecified (93_implementation_defined.md U1 to U5). -/

namespace Sys2Proof

/-- The instance parameters of R9. A state carries them (`State.cfg`), so that a statement about every state is a
statement about every instance (assumption 8). -/
structure Params where
  /-- `N_IN`, the bytes of the IN buffer. -/
  nIn : Nat
  /-- `N_AUX`, the bytes of the AUX buffer. -/
  nAux : Nat
  /-- `N_OUT`, the bytes of the OUT buffer. -/
  nOut : Nat
  /-- `DICT_BITS`, the LZW code width. -/
  dictBits : Nat
  /-- `AR_P`, the fractional bits of the arithmetic coder. -/
  arP : Nat
  deriving DecidableEq, Repr

/-- The default instance of R9. -/
def Params.default : Params :=
  { nIn := 4096, nAux := 4096, nOut := 16384, dictBits := 12, arP := 32 }

/-- `BASE` of R9 and R60, which the platform chooses (OPEN); no rule depends on it (assumption 17). -/
opaque Config.base : Nat

/-- The byte an unspecified read of OUT or TAB at an offset gives; the first argument is the draw, fresh at each read
(R46, R47, R74; U1 to U4; assumption 6). -/
opaque Config.freeByte : Nat → Nat → Byte

/-- The word a read of a result register gives while BUSY; the argument is the draw, fresh at each read
(R74; U4; assumption 6). -/
opaque Config.freeWord : Nat → Word

/-- What the IN or AUX byte at an offset holds while nothing has written it since a hardware reset; the first argument
names that reset (R85, R241, R76; U5; assumption 7). -/
opaque Config.heldByte : Nat → Nat → Byte

/-- The byte a command computes with in place of a never-written IN or AUX byte at an offset; the first argument is the
draw of its launch, so the value is fixed for that command's snapshot (R85, R246; U5; assumption 7). -/
opaque Config.inputByte : Nat → Nat → Byte

end Sys2Proof
end

