-- ==== Sys2Proof/Syntax.lean ====
section
/-! DEFINITION. The instruction set: the six commands of spec/opcode_table.json (30_encoding.md R91). A command has
no operand field (R93), so no constructor has an argument. -/

namespace Sys2Proof

/-- The commands, in the order of the opcode table. -/
inductive Instr where
  /-- Run-length encode IN (40_rle.md R120). -/
  | rleEnc
  /-- Decode IN as run records (40_rle.md R127). -/
  | rleDec
  /-- LZW-encode IN (41_lzw.md R140). -/
  | lzwEnc
  /-- Decode IN as LZW codes (41_lzw.md R147). -/
  | lzwDec
  /-- Static-frequency encode IN (42_static_frequency.md R160). -/
  | sfEnc
  /-- Arithmetic-encode IN under the frequency specification in AUX (43_arithmetic.md R185). -/
  | arEnc
  deriving DecidableEq, Repr

end Sys2Proof
end

