-- ==== Sys2Proof/WellFormed.lean ====
section
/-! DEFINITION. What is well formed: the fields of a command word (30_encoding.md R90 to R92) and the instance
parameters (00_scope.md R9). A command has no operand (R93), so every term of `Instr` is well formed and there is
nothing to check in one. -/

namespace Sys2Proof

/-- The two fields of the command word (R90). -/
structure CmdFields where
  op : BitVec 4
  rsvd : BitVec 28
  deriving DecidableEq, Repr

/-- OP names one of the six operations (R91). -/
def CmdFields.opLegal (f : CmdFields) : Bool := 1 ≤ f.op.toNat && f.op.toNat ≤ 6

/-- RSVD is 0 (R90). -/
def CmdFields.rsvdZero (f : CmdFields) : Bool := f.rsvd == 0

/-- The legality test of R91. -/
def CmdFields.wellFormed (f : CmdFields) : Bool := f.rsvdZero && f.opLegal

/-- The legal values of the parameters, row by row of the table of R9. -/
structure Params.Legal (p : Params) : Prop where
  nIn_ge : 4 ≤ p.nIn
  nIn_le : p.nIn ≤ 2 ^ 22
  nAux_ge : 1 ≤ p.nAux
  nAux_le : p.nAux ≤ 2 ^ 24
  nOut_ge : 4 * p.nIn ≤ p.nOut
  nOut_le : p.nOut ≤ 2 ^ 24
  dictBits_ge : 9 ≤ p.dictBits
  dictBits_le : p.dictBits ≤ 16
  arP_ge : 8 ≤ p.arP
  arP_le : p.arP ≤ 62

/-- `Params.Legal` as a check that can be run. -/
def Params.legal (p : Params) : Bool :=
  decide (4 ≤ p.nIn) && decide (p.nIn ≤ 2 ^ 22) && decide (1 ≤ p.nAux) && decide (p.nAux ≤ 2 ^ 24) &&
  decide (4 * p.nIn ≤ p.nOut) && decide (p.nOut ≤ 2 ^ 24) && decide (9 ≤ p.dictBits) && decide (p.dictBits ≤ 16) &&
  decide (8 ≤ p.arP) && decide (p.arP ≤ 62)

end Sys2Proof
end

