-- ==== Sys2Proof/Decode.lean ====
section
/-! DEFINITION. The decoder of command words, total on words and on bytes, and the encoder (30_encoding.md R90 to R96).
The byte-order helpers of 20_memory.md R65 and R66 stand here, since the decoder is their first user. -/

namespace Sys2Proof

/-- `MemRead` of R66 on the bytes it covers: the little-endian value of a byte string. -/
def leNat : List Byte → Nat
  | [] => 0
  | b :: bs => b.toNat + 256 * leNat bs

/-- The bytes `MemWrite` of R66 stores: the `n` low bytes of `v`, least significant first. -/
def leBytes : Nat → Nat → List Byte
  | 0, _ => []
  | n + 1, v => BitVec.ofNat 8 v :: leBytes n (v / 256)

/-- Why a command word is not decoded (R92, R94). -/
inductive DecodeError where
  /-- Fewer than the four bytes of a command word (R94). -/
  | tooShort
  /-- RSVD is not 0 (R92). -/
  | reservedBits
  /-- OP is 0 or 7 to 15 (R92). -/
  | reservedOp
  deriving DecidableEq, Repr

/-- The fields OP, bits 3:0, and RSVD, bits 31:4, of a command word (R90). -/
def cmdFields (w : Word) : CmdFields :=
  { op := w.extractLsb' 0 4, rsvd := w.extractLsb' 4 28 }

/-- The opcode map of R91. -/
def opcode : Instr → BitVec 4
  | .rleEnc => 0x1#4
  | .rleDec => 0x2#4
  | .lzwEnc => 0x3#4
  | .lzwDec => 0x4#4
  | .sfEnc => 0x5#4
  | .arEnc => 0x6#4

/-- The dispatch test of R96: RSVD first, then OP. -/
def decodeWord (w : Word) : Except DecodeError Instr :=
  if (cmdFields w).rsvd ≠ 0 then .error .reservedBits
  else match (cmdFields w).op.toNat with
    | 1 => .ok .rleEnc
    | 2 => .ok .rleDec
    | 3 => .ok .lzwEnc
    | 4 => .ok .lzwDec
    | 5 => .ok .sfEnc
    | 6 => .ok .arEnc
    | _ => .error .reservedOp

/-- The decoder on a byte string: the command word is its first four bytes, little-endian (R94, R65), and the rest is
handed back. -/
def decode : List Byte → Except DecodeError (Instr × List Byte)
  | b0 :: b1 :: b2 :: b3 :: rest =>
    match decodeWord (BitVec.ofNat 32 (leNat [b0, b1, b2, b3])) with
    | .ok i => .ok (i, rest)
    | .error e => .error e
  | _ => .error .tooShort

/-- The command word of an instruction (R90, R91): RSVD zero over the opcode. -/
def encodeWord (i : Instr) : Word := 0#28 ++ opcode i

/-- The bytes of an instruction's command word, lowest address first (R65). -/
def encode (i : Instr) : List Byte := leBytes 4 (encodeWord i).toNat

/-- What the decoder reads from an instruction of `nbits` bits `w`, laid out as the command word's four bytes. -/
def decodeTableWord (nbits w : Nat) : Option Instr :=
  match decode (leBytes 4 (w % 2 ^ nbits)) with
  | .ok (i, _) => some i
  | .error _ => none

end Sys2Proof
end

