-- ==== Sys2Proof/Machine/State.lean ====
section
/-! DEFINITION. The state of the block and of the two agents that move it (10_state.md, 00_scope.md R18), as plain
data, and the state after reset (70_reset_and_hazards.md R241). -/

namespace Sys2Proof.Machine

/-- The error codes a completion may report (60_exceptions.md R212). Codes 6 to 15 are never reported, so they are not
here. -/
inductive ErrCode where
  | none
  | emptyInput
  | format
  | unknownSymbol
  | illegalCommand
  | capacity
  deriving DecidableEq, Repr

/-- The fields of STATUS (R28), less BUSY, which is the engine phase (R22). Reserved bits read 0 and ignore writes
(R24), so they hold nothing. -/
structure Status where
  done : Bool
  err : Bool
  collapsed : Bool
  dropped : Bool
  errCode : ErrCode
  errBuf : Bool
  deriving DecidableEq, Repr

/-- STATUS = 0 (R241, R243). -/
def Status.zero : Status :=
  { done := false, err := false, collapsed := false, dropped := false, errCode := .none, errBuf := false }

/-- The result registers OUT_LEN to AR_VAL_H (R23, R32 to R40). A 64-bit value is stored once, and its `_L` and `_H`
registers are read out of it. -/
structure ResultRegs where
  outLen : Word
  errPos : Word
  resOrig : Word
  resComp : Word
  resRatio : Word
  resCount : Word
  resDict : Word
  resWidth : Word
  arLow : Dword
  arHigh : Dword
  arVal : Dword
  deriving DecidableEq, Repr

/-- Every result register 0 (R95, R241, R243). -/
def ResultRegs.zero : ResultRegs :=
  { outLen := 0, errPos := 0, resOrig := 0, resComp := 0, resRatio := 0, resCount := 0, resDict := 0, resWidth := 0
    arLow := 0, arHigh := 0, arVal := 0 }

/-- The inputs of a command as they stand at its launch (20_memory.md R78, 30_encoding.md R95). A buffer whose length
register exceeds its size is not read (R95), so its list is then empty. -/
structure Snapshot where
  inLen : Word
  auxLen : Word
  input : List Byte
  aux : List Byte
  deriving DecidableEq, Repr

/-- The engine phase (R22). A running command keeps the snapshot of its launch; the rest of its hidden state (R48) is
created and discarded inside the one step that completes it (assumption 4). -/
inductive Phase where
  | idle
  | busy (snap : Snapshot)
  deriving DecidableEq, Repr

/-- The bytes that hold a definite value, by offset in the host offset space (R60, R61): offsets strictly rising. A byte
that is not listed is unspecified (assumptions 6 and 7). -/
abbrev Memory := List Host.Cell

/-- The size of a transaction, 1, 2 or 4 bytes (R63). -/
inductive Size where
  | byte
  | half
  | word
  deriving DecidableEq, Repr

/-- A host transaction (R63). -/
inductive Txn where
  | read (o : Offset) (n : Size)
  | write (o : Offset) (n : Size) (v : Word)
  deriving DecidableEq, Repr

/-- The answer of a transaction (R63). -/
inductive Answer where
  /-- `OK(data)` of a read. -/
  | data (v : Word)
  /-- `OK` of a write. -/
  | ok
  /-- `BUS_ERROR`. -/
  | busError
  deriving DecidableEq, Repr

/-- The value a host write takes: a constant or a host variable (R110). -/
inductive HostVal where
  | const (v : Word)
  | var (h : Fin 8)
  deriving DecidableEq, Repr

/-- One line of a host program (R110). A label is the index of the line it stands at. -/
inductive HostOp where
  /-- `LW`, `LH`, `LB`: read into host variable `h`. -/
  | load (n : Size) (h : Fin 8) (o : Offset)
  /-- `SW`, `SH`, `SB`: write a value. -/
  | store (n : Size) (o : Offset) (v : HostVal)
  /-- `BNZ`: go to a line if `h AND mask` is not 0. -/
  | bnz (h : Fin 8) (mask : Word) (target : Nat)
  /-- `BZ`: go to a line if `h AND mask` is 0. -/
  | bz (h : Fin 8) (mask : Word) (target : Nat)
  deriving DecidableEq, Repr

/-- The host as an agent (R17, R18, R110): its program, the line it is at, and `h0` to `h7`. -/
structure HostAgent where
  prog : List HostOp
  pc : Nat
  vars : Vector Word 8
  deriving DecidableEq, Repr

/-- Who moves (R18, R218): the host, the engine, or the reset input. -/
inductive Turn where
  | host
  | engine
  | hardReset
  deriving DecidableEq, Repr

/-- The machine: the block, the host that drives it, and the order in which the agents move. -/
structure State where
  /-- The instance parameters, read through CFG0 to CFG_N_OUT (R41). -/
  cfg : Params
  /-- CTRL.IRQ_EN (R26). -/
  irqEn : Bool
  /-- CMD (R27). -/
  cmd : Word
  /-- STATUS but for BUSY (R28). -/
  status : Status
  /-- IN_LEN (R30). -/
  inLen : Word
  /-- AUX_LEN (R31). -/
  auxLen : Word
  /-- The result registers (R32 to R40). -/
  res : ResultRegs
  /-- The engine phase, read as STATUS.BUSY (R22). -/
  phase : Phase
  /-- IN, AUX, OUT and TAB (R43). -/
  mem : Memory
  /-- The host agent (R18). -/
  host : HostAgent
  /-- The answer of the host's last transaction (R63). -/
  answer : Option Answer
  /-- Who moves in the next steps (R218, assumption 1). -/
  turns : List Turn
  /-- How many draws have been made (the model's own field, assumption 6). -/
  draws : Nat
  /-- Names the last hardware reset (the model's own field, assumption 7). -/
  powerUp : Nat
  deriving DecidableEq, Repr

/-- Why the machine stops with a fault. No rule of the spec stops the machine: an error of a command is a completion
(R213, R221) and a bus error is the answer of one transaction (R70, R220). So there is no fault, and none can be raised
(assumption 21). -/
inductive Fault where
  deriving DecidableEq, Repr

/-- Why a step has no meaning in this model. -/
inductive Refusal where
  /-- Raised by an arm of `exec` whose instruction has no meaning yet (safe); no arm does. -/
  | notModelled (mnemonic : String)
  deriving DecidableEq, Repr

/-- The host before it has a program (assumptions 2 and 22). -/
def HostAgent.idle : HostAgent := { prog := [], pc := 0, vars := Vector.replicate 8 0 }

/-- The state right after a hardware reset (R23, R241), of the default instance (R9, assumption 8). -/
def State.reset : State :=
  { cfg := Params.default
    irqEn := false
    cmd := 0
    status := .zero
    inLen := 0
    auxLen := 0
    res := .zero
    phase := .idle
    mem := []
    host := .idle
    answer := .none
    turns := []
    draws := 0
    powerUp := 0 }

end Sys2Proof.Machine
end

