-- ==== Sys2Proof/Machine/Flags.lean ====
section
/-! DEFINITION. The flags: STATUS as a word, its write-1-to-clear bits, what launch and completion do to it, and the
interrupt output (10_state.md R22, R26, R28, R29, R42; 60_exceptions.md R212, R222). -/

namespace Sys2Proof.Machine

/-- BUSY as a truth value (R22). -/
def Phase.isBusy : Phase → Bool
  | .idle => false
  | .busy _ => true

/-- STATUS.BUSY (R22). -/
def State.busy (s : State) : Bool := s.phase.isBusy

/-- The numbers of the error codes (R212). -/
def ErrCode.toNat : ErrCode → Nat
  | .none => 0
  | .emptyInput => 1
  | .format => 2
  | .unknownSymbol => 3
  | .illegalCommand => 4
  | .capacity => 5

/-- STATUS as the host reads it (R28). -/
def State.statusWord (s : State) : Word :=
  BitVec.ofNat 32
    (s.busy.toNat + 2 * s.status.done.toNat + 4 * s.status.err.toNat + 8 * s.status.collapsed.toNat
      + 16 * s.status.dropped.toNat + 256 * s.status.errCode.toNat + 4096 * s.status.errBuf.toNat)

/-- CTRL as the host reads it: SRST and the reserved bits read 0 (R26). -/
def State.ctrlWord (s : State) : Word := BitVec.ofNat 32 s.irqEn.toNat

/-- `irq = CTRL.IRQ_EN AND STATUS.DONE` (R222). -/
def State.irq (s : State) : Bool := s.irqEn && s.status.done

/-- What a launch does to STATUS (R95): DROPPED is unchanged. -/
def Status.launched (st : Status) : Status :=
  { done := false, err := false, collapsed := false, dropped := st.dropped, errCode := .none, errBuf := false }

/-- What a successful completion does to STATUS (R210, R42; assumption 13). -/
def Status.succeeded (collapsed : Bool) (st : Status) : Status :=
  { done := true, err := false, collapsed := collapsed, dropped := st.dropped, errCode := .none, errBuf := false }

/-- What an error completion does to STATUS (R213; assumption 13). -/
def Status.failed (code : ErrCode) (auxBuf : Bool) (st : Status) : Status :=
  { done := true, err := true, collapsed := false, dropped := st.dropped, errCode := code, errBuf := auxBuf }

/-- A host write of `v` to STATUS: DONE and DROPPED are W1C, the rest is ignored (R29). -/
def Status.clearWritten (v : Word) (st : Status) : Status :=
  { st with done := st.done && !v.getLsbD 1, dropped := st.dropped && !v.getLsbD 4 }

/-- A write dropped because BUSY = 1 (R28, R72). -/
def State.drop (s : State) : State := { s with status := { s.status with dropped := true } }

end Sys2Proof.Machine
end

