-- ==== Sys2Proof/Machine/Ops.lean ====
section
/-! DEFINITION. The named operations over memory and registers: bytes of memory, the buffers and their windows, the
snapshot, launch, completion, error completion and the two resets (10_state.md R43 to R47; 20_memory.md R60 to R66, R78,
R85; 30_encoding.md R95; 60_exceptions.md R210, R213; 70_reset_and_hazards.md R241, R243). -/

namespace Sys2Proof.Machine

/-! ### Bytes of memory -/

/-- The canonical form: offsets strictly rising. -/
def Memory.wf : Memory → Bool
  | [] => true
  | [_] => true
  | c :: d :: m => decide (c.1 < d.1) && Memory.wf (d :: m)

/-- The definite value of the byte at an offset, `none` where it is unspecified. -/
def Memory.get : Memory → Nat → Option Byte
  | [], _ => none
  | c :: m, a => if c.1 = a then some c.2 else Memory.get m a

/-- Store one byte. -/
def Memory.set : Memory → Nat → Byte → Memory
  | [], a, v => [(a, v)]
  | c :: m, a, v =>
    if a < c.1 then (a, v) :: c :: m
    else if a = c.1 then (a, v) :: m
    else c :: Memory.set m a v

/-- Store a byte string from an offset up (R66). -/
def Memory.setBytes : Memory → Nat → List Byte → Memory
  | m, _, [] => m
  | m, a, b :: bs => Memory.setBytes (m.set a b) (a + 1) bs

/-- The `size` bytes from an offset up become unspecified. -/
def Memory.forget (m : Memory) (a size : Nat) : Memory :=
  m.filter fun c => !(decide (a ≤ c.1) && decide (c.1 < a + size))

/-! ### The buffers -/

/-- The four buffers (R43). -/
inductive Buffer where
  | tab
  | input
  | aux
  | out
  deriving DecidableEq, Repr

/-- Where a buffer's window begins (R61, R64). -/
def Buffer.base : Buffer → Nat
  | .tab => 0x1000
  | .input => 0x1000000
  | .aux => 0x2000000
  | .out => 0x3000000

/-- A buffer's size in bytes (R43). -/
def Buffer.size (p : Params) : Buffer → Nat
  | .tab => 2048
  | .input => p.nIn
  | .aux => p.nAux
  | .out => p.nOut

/-- The span of OUT's window: the largest OUT there can be (R9, R61). -/
def outSpan : Nat := 0x1000000

/-- Every byte of OUT and TAB becomes unspecified (R46, R47, R243, R249). -/
def Memory.forgetOutputs (m : Memory) : Memory :=
  (m.forget Buffer.tab.base 2048).forget Buffer.out.base outSpan

/-! ### The snapshot of a launch -/

/-- The first `len` bytes of a buffer as a command reads them: a byte nothing has written is a draw of the launch
(R78, R85). A length over the buffer's size reads nothing (R95). -/
def snapBytes (s : State) (b : Buffer) (len : Nat) : List Byte :=
  if len ≤ b.size s.cfg then
    (List.range len).map fun j => (s.mem.get (b.base + j)).getD (Config.inputByte s.draws (b.base + j))
  else []

/-- The snapshot a launch takes (R78, R95). -/
def takeSnapshot (s : State) : Snapshot :=
  { inLen := s.inLen
    auxLen := s.auxLen
    input := snapBytes s .input s.inLen.toNat
    aux := snapBytes s .aux s.auxLen.toNat }

/-- The snapshot the engine works on: that of the launch while BUSY; while IDLE no command runs, and this is the one a
launch would take (assumption 5). -/
def State.snapshot (s : State) : Snapshot :=
  match s.phase with
  | .busy snap => snap
  | .idle => takeSnapshot s

/-! ### Launch and completion -/

/-- An accepted CMD write (R95). OUT and TAB become unspecified (R46, R47, R249), and the launch makes one draw. -/
def launch (v : Word) (s : State) : State :=
  { s with
    cmd := v
    phase := .busy (takeSnapshot s)
    status := s.status.launched
    res := .zero
    mem := s.mem.forgetOutputs
    draws := s.draws + 1 }

/-- What a successful command gives (R97): the defined bytes of OUT and of TAB, the results its rule names, the others
0. -/
structure CmdResult where
  out : List Byte := []
  tab : List Byte := []
  resOrig : Nat := 0
  resComp : Nat := 0
  resRatio : Nat := 0
  resCount : Nat := 0
  resDict : Nat := 0
  resWidth : Nat := 0
  arLow : Nat := 0
  arHigh : Nat := 0
  arVal : Nat := 0
  collapsed : Bool := false
  deriving DecidableEq, Repr

/-- `Error(code, pos, buf)` of R97 and R213; `auxBuf` is `buf = 1`. -/
structure CmdError where
  code : ErrCode
  pos : Nat
  auxBuf : Bool
  deriving DecidableEq, Repr

/-- The outcome of `Exec` (R97). -/
abbrev CmdOutcome := Except CmdError CmdResult

/-- The result registers of a success: OUT_LEN is the number of OUT bytes the command defined (R32, R210). -/
def CmdResult.regs (r : CmdResult) : ResultRegs :=
  { outLen := BitVec.ofNat 32 r.out.length
    errPos := 0
    resOrig := BitVec.ofNat 32 r.resOrig
    resComp := BitVec.ofNat 32 r.resComp
    resRatio := BitVec.ofNat 32 r.resRatio
    resCount := BitVec.ofNat 32 r.resCount
    resDict := BitVec.ofNat 32 r.resDict
    resWidth := BitVec.ofNat 32 r.resWidth
    arLow := BitVec.ofNat 64 r.arLow
    arHigh := BitVec.ofNat 64 r.arHigh
    arVal := BitVec.ofNat 64 r.arVal }

/-- The completion step of a success (R210): registers, OUT, TAB, COLLAPSED, BUSY and DONE at once. -/
def succeed (r : CmdResult) (s : State) : State :=
  { s with
    res := r.regs
    mem := (s.mem.forgetOutputs.setBytes Buffer.tab.base r.tab).setBytes Buffer.out.base r.out
    status := s.status.succeeded r.collapsed
    phase := .idle }

/-- The completion step of an error, the block's one exception entry (R213, R221): the code, the buffer and the position
are recorded, every other result is 0, OUT and TAB are unspecified. There is no return from it: the block is IDLE and
the next launch clears it (R225, R95). -/
def raiseError (e : CmdError) (s : State) : State :=
  { s with
    res := { ResultRegs.zero with errPos := BitVec.ofNat 32 e.pos }
    mem := s.mem.forgetOutputs
    status := s.status.failed e.code e.auxBuf
    phase := .idle }

/-- The one completion step of a command (R97, R210, R213). -/
def finish (r : CmdOutcome) (s : State) : State :=
  match r with
  | .ok res => succeed res s
  | .error e => raiseError e s

/-- The completion of an illegal command word, which reads no length and no buffer (R92, R216). -/
def finishIllegal (s : State) : State :=
  raiseError { code := .illegalCommand, pos := 0, auxBuf := false } s

/-! ### Reset -/

/-- A soft reset by a CTRL write of `v` (R243, R26): a running command is abandoned, IN and AUX are kept, and IRQ_EN then
takes bit 0 of `v`. -/
def softReset (v : Word) (s : State) : State :=
  { s with
    irqEn := v.getLsbD 0
    cmd := 0
    status := .zero
    inLen := 0
    auxLen := 0
    res := .zero
    phase := .idle
    mem := s.mem.forgetOutputs }

/-- A hardware reset (R241), which leaves the parameters (R41), and, outside the block, the host as they are
(assumption 9). Every buffer byte becomes a new unspecified value. -/
def hardReset (s : State) : State :=
  { s with
    irqEn := false
    cmd := 0
    status := .zero
    inLen := 0
    auxLen := 0
    res := .zero
    phase := .idle
    mem := []
    powerUp := s.powerUp + 1 }

end Sys2Proof.Machine
end

