-- ==== Sys2Proof/Machine/Operands.lean ====
section
/-! DEFINITION. The operand and result formats of the commands (30_encoding.md R100 to R107), the eager checks
(60_exceptions.md R215) and the bounds the parameters give (00_scope.md R17). -/

namespace Sys2Proof.Machine

/-! ### Bounds -/

/-- `CAP = 2^DICT_BITS` (R17). -/
def cap (p : Params) : Nat := 2 ^ p.dictBits

/-- `LIM = min(2^(AR_P - 2), 2^31)` (R17). -/
def lim (p : Params) : Nat := min (2 ^ (p.arP - 2)) (2 ^ 31)

/-! ### Errors -/

/-- `raise K(pos, 0)`: an error in IN (R213). -/
def inError (code : ErrCode) (pos : Nat) : CmdError := { code := code, pos := pos, auxBuf := false }

/-- `raise K(pos, 1)`: an error in AUX (R213). -/
def auxError (code : ErrCode) (pos : Nat) : CmdError := { code := code, pos := pos, auxBuf := true }

/-- The eager checks, in the order of R215. `unit` is the size of the records IN is made of: 4 for RLE_DEC, 2 for LZW_DEC, 1 for
the others; `usesAux` holds for AR_ENC. -/
def eagerError (p : Params) (snap : Snapshot) (usesAux : Bool) (unit : Nat) : Option CmdError :=
  if snap.inLen.toNat = 0 then some (inError .emptyInput 0)
  else if p.nIn < snap.inLen.toNat then some (inError .capacity 0)
  else if usesAux && decide (snap.auxLen.toNat = 0) then some (auxError .emptyInput 0)
  else if usesAux && decide (p.nAux < snap.auxLen.toNat) then some (auxError .capacity 0)
  else if snap.inLen.toNat % unit ≠ 0 then some (inError .format 0)
  else none

/-- A command: its eager checks, then its algorithm (R96). -/
def afterEager (p : Params) (snap : Snapshot) (usesAux : Bool) (unit : Nat) (body : CmdOutcome) : CmdOutcome :=
  match eagerError p snap usesAux unit with
  | some e => .error e
  | none => body

/-! ### Formats -/

/-- A run: its symbol and its count (R16, R100). -/
abbrev Run := Byte × Nat

/-- The four bytes of a run record, `COUNT * 256 + SYM` (R100). -/
def runRecord (r : Run) : List Byte := leBytes 4 (r.2 * 256 + r.1.toNat)

/-- The run records of a byte string: `w[7:0]` and `w[31:8]` of each word (R100, R127). -/
def runRecords : List Byte → List Run
  | b0 :: b1 :: b2 :: b3 :: rest =>
    (BitVec.ofNat 8 (leNat [b0, b1, b2, b3]), leNat [b0, b1, b2, b3] / 256) :: runRecords rest
  | _ => []

/-- The two bytes of an LZW code (R102). -/
def codeBytes (k : Nat) : List Byte := leBytes 2 k

/-- The LZW codes of a byte string (R102, R147). -/
def codeList : List Byte → List Nat
  | b0 :: b1 :: rest => leNat [b0, b1] :: codeList rest
  | _ => []

/-- `digits` of R101, with fuel `f`, which `c` itself is enough of. -/
def digitsFrom : Nat → Nat → Nat
  | 0, _ => 1
  | f + 1, c => if c < 10 then 1 else 1 + digitsFrom f (c / 10)

/-- The number of decimal digits of `c >= 1` (R101). -/
def digits (c : Nat) : Nat := digitsFrom c c

/-- The length of the textual run notation of a run list (R101). -/
def renderedLength (runs : List Run) : Nat := (runs.map fun r => 1 + digits r.2).sum

/-- The Q16.16 ratio (R107). -/
def q16 (a b : Nat) : Nat := min (a * 65536 / b) 0xFFFFFFFF

/-- The `w` bits of a codeword, most significant first (R103, R160). -/
def codewordBits (w code : Nat) : List Bool := (List.range w).map fun t => code.testBit (w - 1 - t)

/-- One packed byte: bit `j` of the string is bit `7 - j` of the byte, and missing bits are 0 (R103). -/
def packByte (bits : List Bool) : Byte :=
  BitVec.ofNat 8 ((List.range 8).map fun j => (bits.getD j false).toNat * 2 ^ (7 - j)).sum

/-- A bit string packed into bytes (R103). -/
def packBits (bits : List Bool) : List Byte :=
  (List.range (ceilDiv bits.length 8)).map fun j => packByte (bits.drop (8 * j))

/-- A TAB entry: SYM, CODE, WIDTH in word 0 and FREQ in word 1 (R104). -/
def tabEntry (sym : Byte) (code width freq : Nat) : List Byte :=
  leBytes 4 (sym.toNat + code * 2 ^ 8 + width * 2 ^ 16) ++ leBytes 4 freq

end Sys2Proof.Machine
end

