-- ==== Sys2Proof/Machine/Arith.lean ====
section
/-! DEFINITION. AR_ENC, the arithmetic interval encoder (43_arithmetic.md). -/

namespace Sys2Proof.Machine

/-! ### The frequency specification -/

/-- A frequency table: distinct symbols with their counts, in the order of the specification (R181). -/
abbrev FreqTable := List (Byte × Nat)

/-- `freq[c]`, `none` where `c` is not in the table. -/
def freqOf (t : FreqTable) (c : Byte) : Option Nat :=
  match t with
  | [] => none
  | (b, f) :: t => if b = c then some f else freqOf t c

/-- The frequency total `T` (R181). -/
def freqTotal (t : FreqTable) : Nat := (t.map fun e => e.2).sum

/-- A DIGIT of the grammar, 0x30 to 0x39 (R106). -/
def isDigit (c : Byte) : Bool := decide (0x30 ≤ c.toNat) && decide (c.toNat ≤ 0x39)

/-- Where the parse of R181 is inside a pair; `p` is the offset of the pair's SYM. -/
inductive SpecState where
  /-- A SYM must come. -/
  | atSym
  /-- The ':' after SYM must come. -/
  | atColon (p : Nat) (sym : Byte)
  /-- The first digit must come. -/
  | atDigit (p : Nat) (sym : Byte)
  /-- At least one digit has come; `v` is the count so far. -/
  | inCount (p : Nat) (sym : Byte) (v : Nat)
  deriving DecidableEq, Repr

/-- The end of a pair: the tests of R181 in their order, then the entry. -/
def specCommit (lim : Nat) (p : Nat) (sym : Byte) (v : Nat) (t : FreqTable) : Except CmdError FreqTable :=
  if v = 0 then .error (auxError .format p)
  else if (freqOf t sym).isSome then .error (auxError .format p)
  else if lim < v ∨ lim < freqTotal t + v then .error (auxError .capacity p)
  else .ok (t ++ [(sym, v)])

/-- The parse of R181, byte by byte from offset `q` on (assumption 16). -/
def specScan (lim : Nat) (q : Nat) (st : SpecState) (t : FreqTable) : List Byte → Except CmdError FreqTable
  | [] =>
    match st with
    | .inCount p sym v => specCommit lim p sym v t
    | .atSym | .atColon _ _ | .atDigit _ _ => .error (auxError .format q)
  | c :: cs =>
    match st with
    | .atSym => specScan lim (q + 1) (.atColon q c) t cs
    | .atColon p sym =>
      if c = 0x3A#8 then specScan lim (q + 1) (.atDigit p sym) t cs
      else .error (auxError .format q)
    | .atDigit p sym =>
      if isDigit c then specScan lim (q + 1) (.inCount p sym (c.toNat - 0x30)) t cs
      else .error (auxError .format q)
    | .inCount p sym v =>
      if isDigit c then specScan lim (q + 1) (.inCount p sym (10 * v + (c.toNat - 0x30))) t cs
      else if c = 0x2C#8 then
        match specCommit lim p sym v t with
        | .ok t' => specScan lim (q + 1) .atSym t' cs
        | .error e => .error e
      else .error (auxError .format q)

/-- The table of a specification (R181). -/
def parseSpec (p : Params) (spec : List Byte) : Except CmdError FreqTable :=
  specScan (lim p) 0 .atSym [] spec

/-! ### The probability model and the interval -/

/-- `cum[c]`: the total count of the symbols with a smaller byte value (R183; assumption 15). -/
def cumOf (t : FreqTable) (c : Byte) : Nat := freqTotal (t.filter fun e => decide (e.1.toNat < c.toNat))

/-- One symbol's narrowing of `(low, high)` to the counts `cs` to `ce` of `T`; both bounds from the old ones
(R185, R186). -/
def arNarrow (total cs ce : Nat) (iv : Nat × Nat) : Nat × Nat :=
  (iv.1 + (iv.2 - iv.1) * cs / total, iv.1 + (iv.2 - iv.1) * ce / total)

/-- The message loop from index `i` on (R185, R188). -/
def arLoop (t : FreqTable) (i : Nat) (iv : Nat × Nat) : List Byte → Except CmdError (Nat × Nat)
  | [] => .ok iv
  | c :: cs =>
    match freqOf t c with
    | none => .error (inError .unknownSymbol i)
    | some f => arLoop t (i + 1) (arNarrow (freqTotal t) (cumOf t c) (cumOf t c + f) iv) cs

/-- What AR_ENC reports (R189, R192, R193). -/
def arEncResult (n : Nat) (t : FreqTable) (iv : Nat × Nat) : CmdResult :=
  { out := []
    resOrig := n
    resComp := freqTotal t
    resCount := t.length
    arLow := iv.1
    arHigh := iv.2
    arVal := (iv.1 + iv.2) / 2
    collapsed := decide (iv.1 = iv.2) }

/-- AR_ENC on a message and a specification: the parse, then the loop (R185, R194). -/
def arEncode (p : Params) (msg spec : List Byte) : CmdOutcome :=
  match parseSpec p spec with
  | .error e => .error e
  | .ok t =>
    match arLoop t 0 (0, 2 ^ p.arP) msg with
    | .error e => .error e
    | .ok iv => .ok (arEncResult msg.length t iv)

/-- AR_ENC on a snapshot (R180 to R194). -/
def runArEnc (p : Params) (snap : Snapshot) : CmdOutcome :=
  afterEager p snap true 1 (arEncode p snap.input snap.aux)

/-- AR_ENC (R185). -/
def execArEnc (s : State) : Host.Outcome State Fault Refusal :=
  .next (finish (runArEnc s.cfg s.snapshot) s)

end Sys2Proof.Machine
end

