-- ==== Sys2Proof/Machine/Lzw.lean ====
section
/-! DEFINITION. LZW_ENC and LZW_DEC (41_lzw.md). -/

namespace Sys2Proof.Machine

/-- A dictionary: the strings added to the 256 seeds, in the order of their codes, the first with code 256
(R50, R141; assumption 14). -/
abbrev Dict := List (List Byte)

/-- `nextCode`, which is the number of entries (R141, R143). -/
def dictNext (d : Dict) : Nat := 256 + d.length

/-- `dict[s]`, `none` where `s` is not in the dictionary: a one-symbol string is a seed (R141). -/
def dictCode (d : Dict) : List Byte → Option Nat
  | [b] => some b.toNat
  | s => (d.findIdx? fun t => t == s).map fun i => 256 + i

/-- `inv[k]`, `none` where no entry has code `k` (R141). -/
def dictString (d : Dict) (k : Nat) : Option (List Byte) :=
  if k < 256 then some [BitVec.ofNat 8 k] else d[k - 256]?

/-- An insertion under `nextCode`, skipped when the dictionary is full (R145). -/
def dictInsert (cap : Nat) (d : Dict) (s : List Byte) : Dict :=
  if dictNext d < cap then d ++ [s] else d

/-- The loop of LZW_ENC with the current match `s`, whose code is `k` (R140): the codes it emits, and the dictionary it
ends with. -/
def lzwScan (cap : Nat) (d : Dict) (s : List Byte) (k : Nat) : List Byte → List Nat × Dict
  | [] => ([k], d)
  | c :: xs =>
    match dictCode d (s ++ [c]) with
    | some k' => lzwScan cap d (s ++ [c]) k' xs
    | none =>
      let r := lzwScan cap (dictInsert cap d (s ++ [c])) [c] c.toNat xs
      (k :: r.1, r.2)

/-- The codes of an input and the final dictionary (R140). -/
def lzwCodes (cap : Nat) : List Byte → List Nat × Dict
  | [] => ([], [])
  | x :: xs => lzwScan cap [] [x] x.toNat xs

/-- What LZW_ENC reports for an input (R142, R143). -/
def lzwEncResult (cap : Nat) (x : List Byte) : CmdResult :=
  { out := ((lzwCodes cap x).1.map codeBytes).flatten
    resOrig := x.length
    resCount := (lzwCodes cap x).1.length
    resDict := dictNext (lzwCodes cap x).2 }

/-- LZW_ENC on a snapshot (R140 to R144). -/
def runLzwEnc (p : Params) (snap : Snapshot) : CmdOutcome :=
  afterEager p snap false 1 (.ok (lzwEncResult (cap p) snap.input))

/-- The sequence of a code other than the first: an entry, or the self-reference case `previous ++ [previous[0]]`
(R147, R148). -/
def lzwEntry (d : Dict) (previous : List Byte) (k : Nat) : Option (List Byte) :=
  if k < dictNext d then dictString d k
  else if k = dictNext d then some (previous ++ previous.take 1)
  else none

/-- The loop of LZW_DEC from code `j` on, with the output so far (R147, R150). -/
def lzwExpand (p : Params) (d : Dict) (previous out : List Byte) (j : Nat) :
    List Nat → Except CmdError (List Byte × Dict)
  | [] => .ok (out, d)
  | k :: ks =>
    if cap p ≤ k then .error (inError .format (2 * j))
    else match lzwEntry d previous k with
      | none => .error (inError .format (2 * j))
      | some entry =>
        if p.nOut < out.length + entry.length then .error (inError .capacity (2 * j))
        else lzwExpand p (dictInsert (cap p) d (previous ++ entry.take 1)) entry (out ++ entry) (j + 1) ks

/-- The output of a code list and the final dictionary (R147): the first code must be a seed (R150). An empty list, which the
eager checks exclude, has an empty output. -/
def lzwDecode (p : Params) : List Nat → Except CmdError (List Byte × Dict)
  | [] => .ok ([], [])
  | k :: ks =>
    if 256 ≤ k then .error (inError .format 0)
    else lzwExpand p [] [BitVec.ofNat 8 k] [BitVec.ofNat 8 k] 1 ks

/-- What LZW_DEC reports for an output, the final dictionary and the number of codes read (R149). -/
def lzwDecResult (m : Nat) (r : List Byte × Dict) : CmdResult :=
  { out := r.1, resOrig := r.1.length, resCount := m, resDict := dictNext r.2 }

/-- LZW_DEC on a snapshot (R147 to R150). -/
def runLzwDec (p : Params) (snap : Snapshot) : CmdOutcome :=
  afterEager p snap false 2
    (match lzwDecode p (codeList snap.input) with
      | .ok r => .ok (lzwDecResult (codeList snap.input).length r)
      | .error e => .error e)

/-- LZW_ENC (R140). -/
def execLzwEnc (s : State) : Host.Outcome State Fault Refusal :=
  .next (finish (runLzwEnc s.cfg s.snapshot) s)

/-- LZW_DEC (R147). -/
def execLzwDec (s : State) : Host.Outcome State Fault Refusal :=
  .next (finish (runLzwDec s.cfg s.snapshot) s)

end Sys2Proof.Machine
end

