-- ==== Sys2Proof/Machine/Rle.lean ====
section
/-! DEFINITION. RLE_ENC and RLE_DEC (40_rle.md). -/

namespace Sys2Proof.Machine

/-- The scan of RLE_ENC with the current run `(sym, cnt)` (R120). -/
def rleScan (sym : Byte) (cnt : Nat) : List Byte → List Run
  | [] => [(sym, cnt)]
  | x :: xs => if x = sym then rleScan sym (cnt + 1) xs else (sym, cnt) :: rleScan x 1 xs

/-- The runs of an input (R120). -/
def rleRuns : List Byte → List Run
  | [] => []
  | x :: xs => rleScan x 1 xs

/-- What RLE_ENC reports for an input (R121, R122). -/
def rleEncResult (x : List Byte) : CmdResult :=
  { out := ((rleRuns x).map runRecord).flatten
    resOrig := x.length
    resComp := renderedLength (rleRuns x)
    resRatio := q16 x.length (renderedLength (rleRuns x))
    resCount := (rleRuns x).length }

/-- RLE_ENC on a snapshot (R120 to R123). -/
def runRleEnc (p : Params) (snap : Snapshot) : CmdOutcome :=
  afterEager p snap false 1 (.ok (rleEncResult snap.input))

/-- The loop of RLE_DEC from record `r` on, with the output so far (R127, R128). -/
def rleExpand (nOut : Nat) (r : Nat) (out : List Byte) : List Run → Except CmdError (List Byte)
  | [] => .ok out
  | (sym, cnt) :: runs =>
    if cnt = 0 then .error (inError .format (4 * r))
    else if nOut < out.length + cnt then .error (inError .capacity (4 * r))
    else rleExpand nOut (r + 1) (out ++ List.replicate cnt sym) runs

/-- What RLE_DEC reports for an output and the number of records read (R129). -/
def rleDecResult (m : Nat) (out : List Byte) : CmdResult :=
  { out := out, resOrig := out.length, resCount := m }

/-- RLE_DEC on a snapshot (R127 to R129). -/
def runRleDec (p : Params) (snap : Snapshot) : CmdOutcome :=
  afterEager p snap false 4
    (match rleExpand p.nOut 0 [] (runRecords snap.input) with
      | .ok out => .ok (rleDecResult (runRecords snap.input).length out)
      | .error e => .error e)

/-- RLE_ENC (R120). -/
def execRleEnc (s : State) : Host.Outcome State Fault Refusal :=
  .next (finish (runRleEnc s.cfg s.snapshot) s)

/-- RLE_DEC (R127). -/
def execRleDec (s : State) : Host.Outcome State Fault Refusal :=
  .next (finish (runRleDec s.cfg s.snapshot) s)

end Sys2Proof.Machine
end

