-- ==== Sys2Proof/Machine/StaticFreq.lean ====
section
/-! DEFINITION. SF_ENC, the static-frequency coder (42_static_frequency.md). -/

namespace Sys2Proof.Machine

/-- A symbol with its frequency, frequency first: the pair the ranking sorts by (R160, R161). -/
abbrev Ranked := Nat × Byte

/-- The rank order: ascending by frequency, ties by ascending byte value (R161). -/
def rankedBefore (a b : Ranked) : Bool := decide (a.1 < b.1) || (decide (a.1 = b.1) && decide (a.2.toNat ≤ b.2.toNat))

/-- Insert into a list in rank order. -/
def rankInsert (a : Ranked) : List Ranked → List Ranked
  | [] => [a]
  | b :: l => if rankedBefore a b then a :: b :: l else b :: rankInsert a l

/-- Sort into rank order. -/
def rankSort : List Ranked → List Ranked
  | [] => []
  | a :: l => rankInsert a (rankSort l)

/-- The distinct symbols of an input with their frequencies, in byte order (R160). -/
def sfFrequencies (x : List Byte) : List Ranked :=
  ((List.range 256).map fun b => (x.count (BitVec.ofNat 8 b), BitVec.ofNat 8 b)).filter fun a => decide (0 < a.1)

/-- `D`: the distinct symbols in rank order (R160, R161). -/
def sfRanks (x : List Byte) : List Ranked := rankSort (sfFrequencies x)

/-- `width(k)` of R162. -/
def sfWidth (k : Nat) : Nat :=
  if k ≤ 2 then 1 else if k ≤ 4 then 2 else if k ≤ 8 then 3 else if k ≤ 16 then 4
  else if k ≤ 32 then 5 else if k ≤ 64 then 6 else if k ≤ 128 then 7 else 8

/-- The codeword of rank `r` among `k` symbols: `r`, but `1` for a single symbol (R162). -/
def sfCode (k r : Nat) : Nat := if k = 1 then 1 else r

/-- The codeword of a symbol under a ranking (R160). -/
def sfCodeOf (ranks : List Ranked) (b : Byte) : Nat :=
  sfCode ranks.length (ranks.findIdx fun a => a.2 == b)

/-- The bit string: each occurrence's codeword in input order (R160). -/
def sfBits (ranks : List Ranked) (x : List Byte) : List Bool :=
  (x.map fun b => codewordBits (sfWidth ranks.length) (sfCodeOf ranks b)).flatten

/-- The TAB bytes: one entry per rank (R160, R165). -/
def sfTab (ranks : List Ranked) : List Byte :=
  (ranks.map fun a => tabEntry a.2 (sfCodeOf ranks a.2) (sfWidth ranks.length) a.1).flatten

/-- What SF_ENC reports for an input (R163). -/
def sfEncResult (x : List Byte) : CmdResult :=
  { out := packBits (sfBits (sfRanks x) x)
    tab := sfTab (sfRanks x)
    resOrig := 8 * x.length
    resComp := (sfBits (sfRanks x) x).length
    resRatio := q16 (8 * x.length) (sfBits (sfRanks x) x).length
    resCount := (sfRanks x).length
    resWidth := sfWidth (sfRanks x).length }

/-- SF_ENC on a snapshot (R160 to R166). -/
def runSfEnc (p : Params) (snap : Snapshot) : CmdOutcome :=
  afterEager p snap false 1 (.ok (sfEncResult snap.input))

/-- SF_ENC (R160). -/
def execSfEnc (s : State) : Host.Outcome State Fault Refusal :=
  .next (finish (runSfEnc s.cfg s.snapshot) s)

end Sys2Proof.Machine
end

