-- ==== Sys2Proof/Machine/Port.lean ====
section
/-! DEFINITION. The host port: the register map, the address map, and what a read or a write transaction does
(10_state.md R23 to R41; 20_memory.md R61 to R76). -/

namespace Sys2Proof.Machine

/-- The registers (R23). -/
inductive RegName where
  | id | ctrl | cmd | status | inLen | auxLen | outLen | errPos | resOrig | resComp | resRatio | resCount | resDict
  | resWidth | arLowL | arLowH | arHighL | arHighH | arValL | arValH | cfg0 | cfgNIn | cfgNAux | cfgNOut
  deriving DecidableEq, Repr

/-- The register at an offset of the register block (R23); an offset inside a register's four bytes names it too. -/
def regAt (o : Nat) : Option RegName :=
  match o / 4 with
  | 0 => some .id
  | 1 => some .ctrl
  | 2 => some .cmd
  | 3 => some .status
  | 4 => some .inLen
  | 5 => some .auxLen
  | 6 => some .outLen
  | 7 => some .errPos
  | 8 => some .resOrig
  | 9 => some .resComp
  | 10 => some .resRatio
  | 11 => some .resCount
  | 12 => some .resDict
  | 13 => some .resWidth
  | 14 => some .arLowL
  | 15 => some .arLowH
  | 16 => some .arHighL
  | 17 => some .arHighH
  | 18 => some .arValL
  | 19 => some .arValH
  | 20 => some .cfg0
  | 21 => some .cfgNIn
  | 22 => some .cfgNAux
  | 23 => some .cfgNOut
  | _ => none

/-- What an offset addresses (R61). -/
inductive Region where
  | register (r : RegName)
  | buffer (b : Buffer) (j : Nat)
  | reserved
  deriving DecidableEq, Repr

/-- The window of a buffer, or a reserved range (R61, R64). -/
def inWindow (p : Params) (b : Buffer) (o : Nat) : Region :=
  if b.base ≤ o ∧ o < b.base + b.size p then .buffer b (o - b.base) else .reserved

/-- The address map (R61): registers below 0x1000, then the windows of TAB, IN, AUX and OUT. -/
def regionOf (p : Params) (o : Nat) : Region :=
  if o < 0x1000 then
    match regAt o with
    | some r => .register r
    | none => .reserved
  else if o < 0x1000000 then inWindow p .tab o
  else if o < 0x2000000 then inWindow p .input o
  else if o < 0x3000000 then inWindow p .aux o
  else inWindow p .out o

/-- The bytes of a transaction (R63). -/
def Size.bytes : Size → Nat
  | .byte => 1
  | .half => 2
  | .word => 4

/-- The host address of an offset (R60). -/
def hostAddress (o : Offset) : Nat := Config.base + o.toNat

/-! ### Reads -/

/-- The contents of the ID register (R25). -/
def idValue : Word := 0xC0DEC001#32

/-- CFG0 (R41): DICT_BITS in bits 4:0 and AR_P in bits 13:8. -/
def cfg0Value (p : Params) : Word := BitVec.ofNat 32 (p.dictBits % 32 + p.arP % 64 * 256)

/-- A result register while BUSY reads an unspecified value (R74); otherwise its own. -/
def readResult (s : State) (v : Word) : Word := if s.busy then Config.freeWord s.draws else v

/-- What a 4-byte read of a register returns (R24 to R41, R73, R74). -/
def readReg (r : RegName) (s : State) : Word :=
  match r with
  | .id => idValue
  | .ctrl => s.ctrlWord
  | .cmd => s.cmd
  | .status => s.statusWord
  | .inLen => s.inLen
  | .auxLen => s.auxLen
  | .outLen => readResult s s.res.outLen
  | .errPos => readResult s s.res.errPos
  | .resOrig => readResult s s.res.resOrig
  | .resComp => readResult s s.res.resComp
  | .resRatio => readResult s s.res.resRatio
  | .resCount => readResult s s.res.resCount
  | .resDict => readResult s s.res.resDict
  | .resWidth => readResult s s.res.resWidth
  | .arLowL => readResult s (s.res.arLow.extractLsb' 0 32)
  | .arLowH => readResult s (s.res.arLow.extractLsb' 32 32)
  | .arHighL => readResult s (s.res.arHigh.extractLsb' 0 32)
  | .arHighH => readResult s (s.res.arHigh.extractLsb' 32 32)
  | .arValL => readResult s (s.res.arVal.extractLsb' 0 32)
  | .arValH => readResult s (s.res.arVal.extractLsb' 32 32)
  | .cfg0 => cfg0Value s.cfg
  | .cfgNIn => BitVec.ofNat 32 s.cfg.nIn
  | .cfgNAux => BitVec.ofNat 32 s.cfg.nAux
  | .cfgNOut => BitVec.ofNat 32 s.cfg.nOut

/-- What the host reads in byte `j` of a buffer. An IN or AUX byte nothing has written holds one value for each hardware
reset (R85, R76); an OUT or TAB byte that is not defined, and every one while BUSY, is a fresh draw (R46, R47, R74). -/
def readByte (b : Buffer) (j : Nat) (s : State) : Byte :=
  match b with
  | .input | .aux => (s.mem.get (b.base + j)).getD (Config.heldByte s.powerUp (b.base + j))
  | .out | .tab =>
    if s.busy then Config.freeByte s.draws (b.base + j)
    else (s.mem.get (b.base + j)).getD (Config.freeByte s.draws (b.base + j))

/-- The little-endian value of `n` bytes of a buffer (R65). -/
def readBytes (b : Buffer) (j n : Nat) (s : State) : Word :=
  BitVec.ofNat 32 (leNat ((List.range n).map fun t => readByte b (j + t) s))

/-- The data of a read, `none` for a bus error (R61, R64, R67 to R70). -/
def portRead (o : Offset) (n : Size) (s : State) : Option Word :=
  if o.toNat % n.bytes ≠ 0 then none
  else match regionOf s.cfg o.toNat with
    | .register r => if n = .word then some (readReg r s) else none
    | .buffer b j => if j + n.bytes ≤ b.size s.cfg then some (readBytes b j n.bytes s) else none
    | .reserved => none

/-! ### Writes -/

/-- A write to a register or buffer that is locked while BUSY (R24, R72): dropped then, otherwise done. -/
def unlessBusy (done : State) (s : State) : State := if s.busy then s.drop else done

/-- What a 4-byte write of `v` to a register does (R24 to R31): an RO register ignores it. -/
def writeReg (r : RegName) (v : Word) (s : State) : State :=
  match r with
  | .ctrl => if v.getLsbD 1 then softReset v s else { s with irqEn := v.getLsbD 0 }
  | .cmd => unlessBusy (launch v s) s
  | .status => { s with status := s.status.clearWritten v }
  | .inLen => unlessBusy { s with inLen := v } s
  | .auxLen => unlessBusy { s with auxLen := v } s
  | .id | .outLen | .errPos | .resOrig | .resComp | .resRatio | .resCount | .resDict | .resWidth
  | .arLowL | .arLowH | .arHighL | .arHighH | .arValL | .arValH
  | .cfg0 | .cfgNIn | .cfgNAux | .cfgNOut => s

/-- The bytes of IN or AUX take a little-endian value (R65, R72). -/
def writeBytes (b : Buffer) (j n : Nat) (v : Word) (s : State) : State :=
  unlessBusy { s with mem := s.mem.setBytes (b.base + j) (leBytes n v.toNat) } s

/-- The host may write IN and AUX only (R71). -/
def Buffer.hostWritable : Buffer → Bool
  | .input | .aux => true
  | .out | .tab => false

/-- The state after a write, `none` for a bus error (R61, R64, R67 to R72). -/
def portWrite (o : Offset) (n : Size) (v : Word) (s : State) : Option State :=
  if o.toNat % n.bytes ≠ 0 then none
  else match regionOf s.cfg o.toNat with
    | .register r => if n = .word then some (writeReg r v s) else none
    | .buffer b j =>
      if b.hostWritable ∧ j + n.bytes ≤ b.size s.cfg then some (writeBytes b j n.bytes v s) else none
    | .reserved => none

/-! ### Transactions -/

/-- A host transaction, at one point of the total order (R63, R75, R77). A read makes one draw; a bus error changes
nothing but the answer (R70). -/
def transact (t : Txn) (s : State) : State :=
  match t with
  | .read o n =>
    match portRead o n s with
    | some v => { s with answer := some (.data v), draws := s.draws + 1 }
    | none => { s with answer := some .busError }
  | .write o n v =>
    match portWrite o n v s with
    | some s' => { s' with answer := some .ok }
    | none => { s with answer := some .busError }

end Sys2Proof.Machine
end

