-- ==== Sys2Proof/Machine/HostSide.lean ====
section
/-! DEFINITION. The host as an agent: the host-program notation of 30_encoding.md R110 and the pseudo-instructions of
R111. -/

namespace Sys2Proof.Machine

/-- The value of a host variable. -/
def HostAgent.get (a : HostAgent) (h : Fin 8) : Word := a.vars[h]

/-- Write a host variable. -/
def HostAgent.set (a : HostAgent) (h : Fin 8) (v : Word) : HostAgent := { a with vars := a.vars.set h v }

/-- Go to a line. -/
def HostAgent.goto (a : HostAgent) (line : Nat) : HostAgent := { a with pc := line }

/-- The value a store writes (R110). -/
def HostVal.eval (v : HostVal) (a : HostAgent) : Word :=
  match v with
  | .const w => w
  | .var h => a.get h

/-- The host after its load was answered: the data goes into the variable, zero-extended; a bus error leaves it
unwritten (R110, P5; assumptions 10 and 11). -/
def HostAgent.loaded (a : HostAgent) (h : Fin 8) (answer : Option Answer) : HostAgent :=
  match answer with
  | some (.data v) => a.set h v
  | some .ok | some .busError | none => a

/-- One line of the host program (R110). A store or a load is one transaction; a branch is the host's own affair. -/
def hostOp (op : HostOp) (s : State) : State :=
  match op with
  | .load n h o =>
    let s' := transact (.read o n) s
    { s' with host := (s'.host.loaded h s'.answer).goto (s.host.pc + 1) }
  | .store n o v =>
    let s' := transact (.write o n (v.eval s.host)) s
    { s' with host := s'.host.goto (s.host.pc + 1) }
  | .bnz h mask target =>
    { s with host := s.host.goto (if s.host.get h &&& mask ≠ 0 then target else s.host.pc + 1) }
  | .bz h mask target =>
    { s with host := s.host.goto (if s.host.get h &&& mask = 0 then target else s.host.pc + 1) }

/-- The host's move: its next line; nothing once the program is at its end (assumption 12). -/
def hostMove (s : State) : State :=
  match s.host.prog[s.host.pc]? with
  | some op => hostOp op s
  | none => s

/-! ### Pseudo-instructions (R111) -/

/-- `BYTES off, text`. -/
def pseudoBytes (o : Offset) : List Byte → List HostOp
  | [] => []
  | b :: bs => .store .byte o (.const (b.setWidth 32)) :: pseudoBytes (o + 1) bs

/-- `WAITDONE` at line `w`. -/
def pseudoWaitDone (w : Nat) : List HostOp := [.load .word 7 0x00C, .bz 7 0x2 w]

/-- `RUN op`, whose polling loop begins at line `w`. -/
def pseudoRun (op : Word) (w : Nat) : List HostOp := .store .word 0x008 (.const op) :: pseudoWaitDone w

/-- `CLRDONE`. -/
def pseudoClrDone : List HostOp := [.store .word 0x00C (.const 0x2)]

/-- `SETLEN n`. -/
def pseudoSetLen (n : Word) : List HostOp := [.store .word 0x010 (.const n)]

/-- `SETAUX n`. -/
def pseudoSetAux (n : Word) : List HostOp := [.store .word 0x014 (.const n)]

end Sys2Proof.Machine
end

