-- ==== Sys2Proof/Machine/Step.lean ====
section
/-! DEFINITION. One step of the machine: one move of one agent (00_scope.md R18; 60_exceptions.md R210, R218). -/

namespace Sys2Proof.Machine

/-- The engine's move. While BUSY it is the completion step of the command in CMD (R82, R96, R210), an illegal word's included
(R216). While IDLE the engine has nothing to do. -/
def engineMove (s : State) : Host.Outcome State Fault Refusal :=
  match s.phase with
  | .idle => .next s
  | .busy _ =>
    match decodeWord s.cmd with
    | .ok i => exec i s
    | .error _ => .next (finishIllegal s)

/-- The move of one agent. -/
def move (t : Turn) (s : State) : Host.Outcome State Fault Refusal :=
  match t with
  | .host => .next (hostMove s)
  | .engine => engineMove s
  | .hardReset => .next (hardReset s)

/-- Who moves when `turns` names nobody: the engine while a command runs, so that every command completes (R255), and the host
otherwise (assumption 1). -/
def defaultTurn (s : State) : Turn := if s.busy then .engine else .host

/-- One step: the next agent of `turns` moves (R75, R218). -/
def step (s : State) : Host.Outcome State Fault Refusal :=
  match s.turns with
  | [] => move (defaultTurn s) s
  | t :: ts => move t { s with turns := ts }

/-- The state in which the very next step runs the command word `w`: the word has just been launched, and the engine
moves next (assumption 3). -/
def State.withFetchWord (s : State) (nbits w : Nat) : State :=
  { launch (BitVec.ofNat 32 (w % 2 ^ nbits)) s with turns := .engine :: s.turns }

end Sys2Proof.Machine
end

