-- ==== Sys2Proof/Safety.lean ====
section
/-! DEFINITION. The terms the claims use: the invariant of the machine, what a command's inputs are, what a completion
leaves, and the observation at the end of a command (70_reset_and_hazards.md R257). -/

namespace Sys2Proof.Machine

/-! ### The invariant -/

/-- A cell lies in one of the four buffers (R61, R64). -/
def InBuffer (p : Params) (a : Nat) : Prop := ∃ b : Buffer, b.base ≤ a ∧ a < b.base + b.size p

/-- Memory is in canonical form and lists only bytes of the buffers; of OUT exactly the first OUT_LEN bytes are defined,
and of TAB exactly the entries SF_ENC reports (R46, R47). -/
structure State.MemoryOk (s : State) : Prop where
  wf : s.mem.wf = true
  placed : ∀ a, (s.mem.get a).isSome = true → InBuffer s.cfg a
  out_len : s.res.outLen.toNat ≤ s.cfg.nOut
  out_defined : ∀ j, j < s.cfg.nOut → ((s.mem.get (Buffer.out.base + j)).isSome = true ↔ j < s.res.outLen.toNat)
  tab_defined : ∀ j, j < 2048 →
    ((s.mem.get (Buffer.tab.base + j)).isSome = true ↔ s.res.resWidth ≠ 0 ∧ j < 8 * s.res.resCount.toNat)

/-- STATUS and the result registers agree with the phase and with one another (R28, R33, R73, R95, R190, R193, R213,
R214). -/
structure State.ResultsOk (s : State) : Prop where
  err_iff : s.status.err = true ↔ s.status.errCode ≠ .none
  aux_code : s.status.errBuf = true →
    s.status.errCode = .emptyInput ∨ s.status.errCode = .format ∨ s.status.errCode = .capacity
  busy_status : s.busy = true → s.status = Status.launched s.status
  busy_res : s.busy = true → s.res = .zero
  err_res : s.status.err = true → s.res = { ResultRegs.zero with errPos := s.res.errPos }
  ok_pos : s.status.err = false → s.res.errPos = 0
  collapsed_interval : s.status.collapsed = true → s.res.arLow = s.res.arHigh ∧ s.res.arVal = s.res.arLow
  interval : s.res.arLow.toNat ≤ s.res.arVal.toNat ∧ s.res.arVal.toNat ≤ s.res.arHigh.toNat ∧
    s.res.arHigh.toNat ≤ 2 ^ s.cfg.arP

/-- The bytes of a snapshot are those the buffer holds: as many as the length register says if they fit, else none, and each
byte that has been written is the written one (R78, R95). -/
def SnapMatches (s : State) (b : Buffer) (len : Nat) (bytes : List Byte) : Prop :=
  bytes.length = (if len ≤ b.size s.cfg then len else 0) ∧
  ∀ j v, j < bytes.length → s.mem.get (b.base + j) = some v → bytes[j]? = some v

/-- While a command runs, its snapshot is what IN_LEN, AUX_LEN, IN and AUX still hold (R72, R78). -/
def State.SnapshotOk (s : State) : Prop :=
  ∀ snap, s.phase = .busy snap →
    snap.inLen = s.inLen ∧ snap.auxLen = s.auxLen ∧
    SnapMatches s .input s.inLen.toNat snap.input ∧ SnapMatches s .aux s.auxLen.toNat snap.aux

/-- The invariant of the machine. -/
structure State.Inv (s : State) : Prop where
  legal : s.cfg.Legal
  memory : s.MemoryOk
  results : s.ResultsOk
  snapshot : s.SnapshotOk

/-! ### Inputs of a command -/

/-- The command works on the input bytes `x`, on a legal instance: IN_LEN is their number and is neither 0 nor over
N_IN (R78, R215). -/
structure InputIs (s : State) (x : List Byte) : Prop where
  legal : s.cfg.Legal
  bytes : s.snapshot.input = x
  len : s.snapshot.inLen.toNat = x.length
  nonempty : 1 ≤ x.length
  fits : x.length ≤ s.cfg.nIn

/-- The command's AUX bytes are `y`: AUX_LEN is their number and is neither 0 nor over N_AUX (R78, R215). -/
structure AuxIs (s : State) (y : List Byte) : Prop where
  bytes : s.snapshot.aux = y
  len : s.snapshot.auxLen.toNat = y.length
  nonempty : 1 ≤ y.length
  fits : y.length ≤ s.cfg.nAux

/-! ### Byte formats, written out -/

/-- The bytes of a run record: SYM, then COUNT in three bytes, least significant first (R100). -/
def recordBytes (r : Byte × Nat) : List Byte :=
  [r.1, BitVec.ofNat 8 r.2, BitVec.ofNat 8 (r.2 / 256), BitVec.ofNat 8 (r.2 / 65536)]

/-- The bytes of an LZW code, least significant first (R102). -/
def halfwordBytes (k : Nat) : List Byte := [BitVec.ofNat 8 k, BitVec.ofNat 8 (k / 256)]

/-- The symbols of a run list (R121). -/
def expandedRuns (runs : List (Byte × Nat)) : List Byte := (runs.map fun r => List.replicate r.2 r.1).flatten

/-- The host copied the whole output of the command that ended in `t` into IN, set IN_LEN to OUT_LEN, and `u` is where the
engine runs the next command (R132, R153, R250). A copy longer than IN reaches IN_LEN only. -/
structure CopiesOutput (t u : State) : Prop where
  cfg : u.cfg = t.cfg
  len : u.snapshot.inLen = t.res.outLen
  bytes : t.res.outLen.toNat ≤ t.cfg.nIn →
    u.snapshot.input.map some = (List.range t.res.outLen.toNat).map fun j => t.mem.get (Buffer.out.base + j)

/-! ### Rankings -/

/-- `ranks` lists the distinct symbols of `x`, ascending by count and then by byte value (R161). -/
structure IsRanking (x ranks : List Byte) : Prop where
  nodup : ranks.Nodup
  mem : ∀ b, b ∈ ranks ↔ b ∈ x
  sorted : ranks.Pairwise fun a b => x.count a < x.count b ∨ (x.count a = x.count b ∧ a.toNat < b.toNat)

/-- The bytes of a TAB entry, field by field (R104): SYM, CODE, WIDTH, a zero byte, and the four bytes of FREQ. -/
def tabEntryBytes (sym : Byte) (code width freq : Nat) : List Byte :=
  [sym, BitVec.ofNat 8 code, BitVec.ofNat 8 width, 0, BitVec.ofNat 8 freq, BitVec.ofNat 8 (freq / 256),
    BitVec.ofNat 8 (freq / 65536), BitVec.ofNat 8 (freq / 16777216)]

/-! ### Frequency specifications -/

/-- A pair of a specification: its SYM and its DIGITs (R106). -/
abbrev SpecPair := Byte × List Byte

/-- A DIGIT (R106). -/
def IsDigit (c : Byte) : Prop := 0x30 ≤ c.toNat ∧ c.toNat ≤ 0x39

/-- The decimal value of digits (R106). -/
def decimal (ds : List Byte) : Nat := ds.foldl (fun v d => 10 * v + (d.toNat - 0x30)) 0

/-- The bytes of a pair (R106). -/
def pairBytes (e : SpecPair) : List Byte := e.1 :: 0x3A#8 :: e.2

/-- Pairs each followed by its ',' (R106). -/
def pairsThenComma (es : List SpecPair) : List Byte := (es.map fun e => pairBytes e ++ [0x2C#8]).flatten

/-- The total of the counts of some pairs (R181). -/
def pairTotal (es : List SpecPair) : Nat := (es.map fun e => decimal e.2).sum

/-- Pairs the parse accepts (R181): digits, distinct symbols, counts of at least 1, a total within `lim`. -/
structure GoodPairs (lim : Nat) (es : List SpecPair) : Prop where
  digits : ∀ e ∈ es, e.2 ≠ [] ∧ ∀ d ∈ e.2, IsDigit d
  nodup : (es.map fun e => e.1).Nodup
  pos : ∀ e ∈ es, 1 ≤ decimal e.2
  total : pairTotal es ≤ lim

/-- After the good pairs `pre`, each followed by ',', the rest `tail` of the specification violates R181 with the given
code, `off` bytes into `tail`. -/
inductive SpecViolation (lim : Nat) (pre : List SpecPair) : List Byte → ErrCode → Nat → Prop where
  /-- No pair after a ','. -/
  | noPair : SpecViolation lim pre [] .format 0
  /-- The specification ends after SYM. -/
  | endsAfterSym (sym : Byte) : SpecViolation lim pre [sym] .format 1
  /-- ':' missing. -/
  | noColon (sym c : Byte) (rest : List Byte) : c ≠ 0x3A#8 → SpecViolation lim pre (sym :: c :: rest) .format 1
  /-- The specification ends after ':'. -/
  | endsAfterColon (sym : Byte) : SpecViolation lim pre [sym, 0x3A#8] .format 2
  /-- No digit after ':'. -/
  | noDigit (sym c : Byte) (rest : List Byte) :
    ¬ IsDigit c → SpecViolation lim pre (sym :: 0x3A#8 :: c :: rest) .format 2
  /-- Junk after the count. -/
  | junk (e : SpecPair) (c : Byte) (rest : List Byte) : e.2 ≠ [] → (∀ d ∈ e.2, IsDigit d) → ¬ IsDigit c →
    c ≠ 0x2C#8 → SpecViolation lim pre (pairBytes e ++ c :: rest) .format (2 + e.2.length)
  /-- A zero count. -/
  | zeroCount (e : SpecPair) (rest : List Byte) : e.2 ≠ [] → (∀ d ∈ e.2, IsDigit d) →
    (rest = [] ∨ rest.head? = some 0x2C#8) → decimal e.2 = 0 → SpecViolation lim pre (pairBytes e ++ rest) .format 0
  /-- A symbol given twice. -/
  | duplicate (e : SpecPair) (rest : List Byte) : e.2 ≠ [] → (∀ d ∈ e.2, IsDigit d) →
    (rest = [] ∨ rest.head? = some 0x2C#8) → decimal e.2 ≠ 0 → e.1 ∈ pre.map (fun a => a.1) →
    SpecViolation lim pre (pairBytes e ++ rest) .format 0
  /-- A count or a total over `lim`. -/
  | tooLarge (e : SpecPair) (rest : List Byte) : e.2 ≠ [] → (∀ d ∈ e.2, IsDigit d) →
    (rest = [] ∨ rest.head? = some 0x2C#8) → decimal e.2 ≠ 0 → e.1 ∉ pre.map (fun a => a.1) →
    (lim < decimal e.2 ∨ lim < pairTotal pre + decimal e.2) → SpecViolation lim pre (pairBytes e ++ rest) .capacity 0

/-- A whole specification: the pairs `es`, then the pair `e` (R106). -/
def specBytes (es : List SpecPair) (e : SpecPair) : List Byte := pairsThenComma es ++ pairBytes e

/-- The counts of the pairs whose symbol is below `c`, and up to `c`: the interval of `c` in `T`-ths (R183). -/
def countBelow (es : List SpecPair) (c : Byte) : Nat := pairTotal (es.filter fun e => decide (e.1.toNat < c.toNat))

def countUpTo (es : List SpecPair) (c : Byte) : Nat := pairTotal (es.filter fun e => decide (e.1.toNat ≤ c.toNat))

/-- The interval after a message, from `[0, 2^P)` (R185): each symbol narrows it to its own part, both bounds from the
old low and the old range. -/
def messageInterval (bits : Nat) (es : List SpecPair) (msg : List Byte) : Nat × Nat :=
  msg.foldl (fun iv c =>
    (iv.1 + (iv.2 - iv.1) * countBelow es c / pairTotal es, iv.1 + (iv.2 - iv.1) * countUpTo es c / pairTotal es))
    (0, 2 ^ bits)

/-- The largest total AR_ENC accepts (R17). -/
def largestTotal (p : Params) : Nat := min (2 ^ (p.arP - 2)) (2 ^ 31)

/-! ### LZW phrases -/

/-- The dictionary entries that a list of phrases makes, in the order of their codes from 256: each phrase followed by the
first symbol of the next (R140, R147). -/
def lzwEntries : List (List Byte) → List (List Byte)
  | p :: q :: ps => (p ++ q.take 1) :: lzwEntries (q :: ps)
  | [_] | [] => []

/-- After the phrases `done`, the code `k` stands for the phrase `p`: a seed (R141), or an entry below `CAP` made by the
phrases up to `p` itself, the last of which is the self-reference case (R147, R148, R150). -/
def CodeStands (cap : Nat) (done : List (List Byte)) (k : Nat) (p : List Byte) : Prop :=
  (k < 256 ∧ p = [BitVec.ofNat 8 k]) ∨
  (256 ≤ k ∧ k < cap ∧ (lzwEntries (done ++ [p]))[k - 256]? = some p)

/-- After the phrases `done`, the codes stand for the phrases, one for one. -/
def CodesStand (cap : Nat) : List (List Byte) → List Nat → List (List Byte) → Prop
  | _, [], [] => True
  | done, k :: ks, p :: ps => CodeStands cap done k p ∧ CodesStand cap (done ++ [p]) ks ps
  | _, [], _ :: _ => False
  | _, _ :: _, [] => False

/-- After the phrases `done`, each phrase but the last is a match that could not be extended: with the symbol that
follows it, it is no entry of the dictionary, which holds at most `CAP - 256` entries (R140, R145). -/
def PhrasesGreedy (cap : Nat) : List (List Byte) → List (List Byte) → Prop
  | done, p :: q :: ps =>
    p ++ q.take 1 ∉ (lzwEntries (done ++ [p])).take (cap - 256) ∧ PhrasesGreedy cap (done ++ [p]) (q :: ps)
  | _, [_] | _, [] => True

/-! ### Completions -/

/-- The defined bytes of OUT are `bs`, from offset 0, and every other byte of OUT is unspecified (R46). -/
def OutIs (s : State) (bs : List Byte) : Prop :=
  ∀ j, j < s.cfg.nOut → s.mem.get (Buffer.out.base + j) = bs[j]?

/-- The defined bytes of TAB are `bs`, from offset 0, and every other byte of TAB is unspecified (R47). -/
def TabIs (s : State) (bs : List Byte) : Prop :=
  ∀ j, j < 2048 → s.mem.get (Buffer.tab.base + j) = bs[j]?

/-- An offset outside the windows of OUT and TAB (R61). -/
def OutsideOutputs (a : Nat) : Prop :=
  ¬ (Buffer.out.base ≤ a ∧ a < Buffer.out.base + outSpan) ∧ ¬ (Buffer.tab.base ≤ a ∧ a < Buffer.tab.base + 2048)

/-- What no completion touches: the parameters, CTRL, CMD, IN_LEN, AUX_LEN, DROPPED, every byte outside OUT and TAB, and
everything outside the block. -/
structure CompletionFrame (s t : State) : Prop where
  cfg : t.cfg = s.cfg
  irqEn : t.irqEn = s.irqEn
  cmd : t.cmd = s.cmd
  inLen : t.inLen = s.inLen
  auxLen : t.auxLen = s.auxLen
  dropped : t.status.dropped = s.status.dropped
  host : t.host = s.host
  answer : t.answer = s.answer
  turns : t.turns = s.turns
  draws : t.draws = s.draws
  powerUp : t.powerUp = s.powerUp
  mem : ∀ a, OutsideOutputs a → t.mem.get a = s.mem.get a

/-- `t` is `s` after a successful completion with the given result registers, COLLAPSED, OUT bytes and TAB bytes
(R210). -/
structure Succeeded (s t : State) (res : ResultRegs) (collapsed : Bool) (out tab : List Byte) : Prop where
  idle : t.phase = .idle
  status : t.status =
    { done := true, err := false, collapsed := collapsed, dropped := s.status.dropped, errCode := .none,
      errBuf := false }
  res : t.res = res
  outBytes : OutIs t out
  tabBytes : TabIs t tab
  frame : CompletionFrame s t

/-- `t` is `s` after an error completion with the given code, position and buffer (R213). -/
structure Failed (s t : State) (code : ErrCode) (pos : Nat) (auxBuf : Bool) : Prop where
  idle : t.phase = .idle
  status : t.status =
    { done := true, err := true, collapsed := false, dropped := s.status.dropped, errCode := code, errBuf := auxBuf }
  res : t.res = { ResultRegs.zero with errPos := BitVec.ofNat 32 pos }
  outBytes : OutIs t []
  tabBytes : TabIs t []
  frame : CompletionFrame s t

/-! ### Moves -/

/-- Who moves in the next step: the first of `turns`; when it is empty the engine while BUSY, else the host. -/
def State.mover (s : State) : Turn :=
  match s.turns with
  | t :: _ => t
  | [] => if s.busy then .engine else .host

/-- The next step is the host's write of the 4-byte value `v` at the offset `o`. -/
def HostStores (s : State) (o : Offset) (v : Word) : Prop :=
  s.mover = .host ∧ ∃ w : HostVal, s.host.prog[s.host.pc]? = some (.store .word o w) ∧
    v = match w with
      | .const c => c
      | .var h => s.host.vars[h]

/-! ### Transactions -/

/-- The offset and the number of bytes of a transaction (R63). -/
def Txn.offset : Txn → Nat
  | .read o _ | .write o _ _ => o.toNat

def Txn.bytes : Txn → Nat
  | .read _ n | .write _ n _ => match n with | .byte => 1 | .half => 2 | .word => 4

def Txn.isWrite : Txn → Bool
  | .read _ _ => false
  | .write _ _ _ => true

/-- The cases (a) to (e) of R70. -/
inductive BusErrorCase (p : Params) (t : Txn) : Prop where
  /-- (a) A reserved range of R61. -/
  | reserved : ¬ t.offset < 0x60 → ¬ InBuffer p t.offset → BusErrorCase p t
  /-- (b) A misaligned access. -/
  | misaligned : t.offset % t.bytes ≠ 0 → BusErrorCase p t
  /-- (c) A register access of other than four bytes. -/
  | narrow : t.offset < 0x60 → t.bytes ≠ 4 → BusErrorCase p t
  /-- (d) A buffer access past the end of its buffer. -/
  | pastEnd (b : Buffer) : b.base ≤ t.offset → t.offset < b.base + b.size p → b.base + b.size p < t.offset + t.bytes →
    BusErrorCase p t
  /-- (e) A write to TAB or OUT. -/
  | readOnly (b : Buffer) : t.isWrite = true → b = .tab ∨ b = .out → b.base ≤ t.offset →
    t.offset < b.base + b.size p → BusErrorCase p t

/-! ### The end of a command -/

/-- The runs since the accepted CMD write of `v` that took the snapshot `snap`, with no hardware reset, no soft reset and
no further launch since: their last states (R95, R257). -/
inductive SinceLaunch (v : Word) (snap : Snapshot) : State → Prop where
  /-- The accepted CMD write. -/
  | launched (s t : State) : HostStores s 0x008 v → s.busy = false → step s = .next t → t.phase = .busy snap →
    SinceLaunch v snap t
  /-- A step that is none of the three. -/
  | later (s t : State) : SinceLaunch v snap s → step s = .next t → s.mover ≠ .hardReset →
    (∀ w, HostStores s 0x004 w → w.getLsbD 1 = false) → (∀ w, HostStores s 0x008 w → s.busy = true) →
    SinceLaunch v snap t

/-- The step from `s` to `t` is a host read of STATUS that returns DONE = 1 (R257). -/
structure ReadsDone (s t : State) : Prop where
  host : s.mover = .host
  load : ∃ h, s.host.prog[s.host.pc]? = some (.load .word h 0x00C)
  step : step s = .next t
  done : ∃ w, t.answer = some (.data w) ∧ w.getLsbD 1 = true

/-- The command launched with the word `v` and the snapshot `snap` has ended in `t` (R257): a host read returned DONE = 1
after its launch, with no soft or hardware reset between. -/
structure CommandEnds (v : Word) (snap : Snapshot) (s t : State) : Prop where
  since : SinceLaunch v snap s
  reads : ReadsDone s t

/-- What is observed of a command that has ended (R257): its snapshot, ERR_CODE, ERR_POS and the result registers, ERR_BUF,
`OUT[0 .. OUT_LEN)`, the TAB entries `0 .. RES_COUNT-1` after SF_ENC, and COLLAPSED. -/
structure Observation where
  snapshot : Snapshot
  errCode : ErrCode
  errBuf : Bool
  collapsed : Bool
  res : ResultRegs
  out : List (Option Byte)
  tab : List (Option Byte)
  deriving DecidableEq, Repr

/-- The observation of the command of the snapshot `snap` in a state in which it has ended (R257). No register holds the
snapshot after completion, so it is that of the launch in `CommandEnds`. RES_WIDTH is not 0 after SF_ENC only (R39). -/
def State.observation (snap : Snapshot) (s : State) : Observation :=
  { snapshot := snap
    errCode := s.status.errCode
    errBuf := s.status.errBuf
    collapsed := s.status.collapsed
    res := s.res
    out := (List.range s.res.outLen.toNat).map fun j => s.mem.get (Buffer.out.base + j)
    tab := (List.range (if s.res.resWidth = 0 then 0 else 8 * s.res.resCount.toNat)).map fun j =>
      s.mem.get (Buffer.tab.base + j) }

end Sys2Proof.Machine
end

