-- ==== Sys2Proof/Certificates/Slice0/Obligations.lean ====
section
/-! DEFINITION. The statements for the provers. -/

open Sys2Proof Sys2Proof.Machine

/-! ## Encoding -/

/-- R91: the six command words of the opcode table decode to their commands. -/
def Obligations.SixCommandWordsDecode : Prop :=
  decodeWord 0x00000001#32 = .ok .rleEnc ∧ decodeWord 0x00000002#32 = .ok .rleDec ∧
  decodeWord 0x00000003#32 = .ok .lzwEnc ∧ decodeWord 0x00000004#32 = .ok .lzwDec ∧
  decodeWord 0x00000005#32 = .ok .sfEnc ∧ decodeWord 0x00000006#32 = .ok .arEnc

/-- R91: a command word is legal exactly when RSVD, bits 31:4, is 0 and OP, bits 3:0, is 1 to 6, and OP then names the
command of the table's row. -/
def Obligations.LegalWordsAreTheSixOpcodes : Prop :=
  (∀ w : Word, (∃ i, decodeWord w = .ok i) ↔ w.toNat / 16 = 0 ∧ 1 ≤ w.toNat % 16 ∧ w.toNat % 16 ≤ 6) ∧
  ∀ (w : Word) (i : Instr), decodeWord w = .ok i → w.toNat % 16 =
    match i with
    | .rleEnc => 1 | .rleDec => 2 | .lzwEnc => 3 | .lzwDec => 4 | .sfEnc => 5 | .arEnc => 6

/-- R94, R65: on byte strings decoding and encoding are inverse both ways, and whatever follows the four bytes of the
command word is handed back. -/
def Obligations.DecodeAndEncodeAreInverse : Prop :=
  (∀ (i : Instr) (rest : List Byte), decode (encode i ++ rest) = .ok (i, rest)) ∧
  ∀ (bytes rest : List Byte) (i : Instr), decode bytes = .ok (i, rest) → bytes = encode i ++ rest

/-! ## Steps -/

/-- R82, R96: the engine's step while BUSY runs the command that the word in CMD decodes to. That the engine moves when no turn
is named is the model's choice (assumption 1). -/
def Obligations.StepRunsTheDecodedCommand : Prop :=
  ∀ (s : State) (snap : Snapshot) (i : Instr), s.phase = .busy snap → decodeWord s.cmd = .ok i →
    (∀ ts, s.turns = .engine :: ts → step s = exec i { s with turns := ts }) ∧
    (s.turns = [] → step s = exec i s)

/-- R18, R75: a step is one move of one agent: the host's, a hardware reset, or an idle engine's, which does nothing; with
no turn named and the engine IDLE it is the host's. -/
def Obligations.StepIsOneAgentsMove : Prop :=
  ∀ (s : State) (ts : List Turn),
    (s.turns = .host :: ts → step s = .next (hostMove { s with turns := ts })) ∧
    (s.turns = .hardReset :: ts → step s = .next (hardReset { s with turns := ts })) ∧
    (s.turns = .engine :: ts → s.phase = .idle → step s = .next { s with turns := ts }) ∧
    (s.turns = [] → s.phase = .idle → step s = .next (hostMove s))

/-- The model's stand-in for a launch from outside (assumption 3): the step after `withFetchWord` runs the command word
just launched. -/
def Obligations.LaunchedWordRunsNext : Prop :=
  ∀ (s : State) (nbits w : Nat) (i : Instr), decodeTableWord nbits w = some i →
    step (s.withFetchWord nbits w) = exec i (launch (BitVec.ofNat 32 (w % 2 ^ nbits)) s)

/-- R221: nothing stops the machine. -/
def Obligations.EveryStepHasANextState : Prop := ∀ s : State, ∃ t, step s = .next t

/-- R92, R216: an illegal command word completes with ILLEGAL_COMMAND at position 0 in no buffer, whatever IN_LEN, AUX_LEN
and the buffers hold. -/
def Obligations.IllegalWordCompletesWithError : Prop :=
  ∀ (s : State) (snap : Snapshot), s.cfg.Legal → s.phase = .busy snap →
    ¬ (s.cmd.toNat / 16 = 0 ∧ 1 ≤ s.cmd.toNat % 16 ∧ s.cmd.toNat % 16 ≤ 6) →
    ∃ t, engineMove s = .next t ∧ Failed s t .illegalCommand 0 false

/-! ## Register writes -/

/-- R95: an accepted CMD write, and a CMD write while BUSY, which is dropped. -/
def Obligations.LaunchEffects : Prop :=
  ∀ (s : State) (v : Word),
    (s.busy = false → ∃ snap t,
      transact (.write 0x008 .word v) s = t ∧ t.answer = some .ok ∧
      t.cmd = v ∧ t.phase = .busy snap ∧
      t.status = { done := false, err := false, collapsed := false, dropped := s.status.dropped, errCode := .none,
                   errBuf := false } ∧
      t.res = .zero ∧
      snap.inLen = s.inLen ∧ snap.auxLen = s.auxLen ∧
      SnapMatches s .input s.inLen.toNat snap.input ∧ SnapMatches s .aux s.auxLen.toNat snap.aux ∧
      t.inLen = s.inLen ∧ t.auxLen = s.auxLen ∧ t.irqEn = s.irqEn ∧ t.cfg = s.cfg ∧ t.host = s.host ∧
      t.turns = s.turns ∧ t.powerUp = s.powerUp ∧
      (∀ a, OutsideOutputs a → t.mem.get a = s.mem.get a) ∧
      ∀ a, ¬ OutsideOutputs a → t.mem.get a = none) ∧
    (s.busy = true → transact (.write 0x008 .word v) s =
      { s with status := { s.status with dropped := true }, answer := some .ok })

/-- R72: while BUSY a host write to CMD, IN_LEN, AUX_LEN, IN or AUX is answered OK, sets DROPPED, and changes nothing
else. -/
def Obligations.LockedWritesAreDropped : Prop :=
  ∀ (s : State) (v : Word) (n : Size) (b : Buffer) (o : Offset), s.busy = true → s.cfg.Legal →
    b = .input ∨ b = .aux → o.toNat % n.bytes = 0 → b.base ≤ o.toNat → o.toNat + n.bytes ≤ b.base + b.size s.cfg →
    ∃ t : State, t = { s with status := { s.status with dropped := true }, answer := some .ok } ∧
    transact (.write o n v) s = t ∧ transact (.write 0x008 .word v) s = t ∧
    transact (.write 0x010 .word v) s = t ∧ transact (.write 0x014 .word v) s = t

/-- R30, R31: while IDLE a write to IN_LEN or AUX_LEN stores any 32-bit value and changes nothing else. -/
def Obligations.LengthWritesStoreAnyValue : Prop :=
  ∀ (s : State) (v : Word), s.busy = false →
    transact (.write 0x010 .word v) s = { s with inLen := v, answer := some .ok } ∧
    transact (.write 0x014 .word v) s = { s with auxLen := v, answer := some .ok }

/-- R29: a STATUS write clears DONE and DROPPED where its bits 1 and 4 are 1, and does nothing else, in either phase; while
BUSY, DONE is 0 already. -/
def Obligations.StatusWriteClearsDoneAndDropped : Prop :=
  ∀ (s : State) (v : Word), ∃ t, transact (.write 0x00C .word v) s = t ∧
    t.status.done = (if v.getLsbD 1 then false else s.status.done) ∧
    t.status.dropped = (if v.getLsbD 4 then false else s.status.dropped) ∧
    t = { s with status := { s.status with done := t.status.done, dropped := t.status.dropped }, answer := some .ok } ∧
    (s.Inv → s.busy = true → s.status.done = false ∧ t.status.done = false)

/-- R243, R244, R26: a CTRL write with bit 1 set, in either phase. -/
def Obligations.SoftResetEffects : Prop :=
  ∀ (s : State) (v : Word), v.getLsbD 1 = true → ∃ t, transact (.write 0x004 .word v) s = t ∧
    t.answer = some .ok ∧ t.phase = .idle ∧ t.status = .zero ∧ t.cmd = 0 ∧ t.inLen = 0 ∧ t.auxLen = 0 ∧
    t.res = .zero ∧ t.irqEn = v.getLsbD 0 ∧ t.irq = false ∧
    (∀ a, ¬ OutsideOutputs a → t.mem.get a = none) ∧ (∀ a, OutsideOutputs a → t.mem.get a = s.mem.get a) ∧
    t.cfg = s.cfg ∧ t.host = s.host ∧ t.turns = s.turns ∧ t.powerUp = s.powerUp

/-- R26: a CTRL write with bit 1 clear stores IRQ_EN and changes nothing else, in either phase, and CTRL reads as IRQ_EN
with every other bit 0. -/
def Obligations.CtrlWriteStoresIrqEnable : Prop :=
  ∀ (s : State) (v : Word), v.getLsbD 1 = false →
    transact (.write 0x004 .word v) s = { s with irqEn := v.getLsbD 0, answer := some .ok } ∧
    (readReg .ctrl s).toNat = (if s.irqEn then 1 else 0)

/-- R24: a write to a read-only register is answered OK and changes nothing. -/
def Obligations.ReadOnlyRegistersIgnoreWrites : Prop :=
  ∀ (s : State) (o : Offset) (v : Word), o.toNat % 4 = 0 → o.toNat = 0 ∨ (0x018 ≤ o.toNat ∧ o.toNat < 0x060) →
    transact (.write o .word v) s = { s with answer := some .ok }

/-! ## The host port -/

/-- R70: a transaction is answered with a bus error exactly in the cases (a) to (e), and then changes nothing but the
answer; in every other case it is answered OK, a read with its data. -/
def Obligations.BusErrorsExactlyAndWithoutEffect : Prop :=
  ∀ (s : State) (t : Txn), s.cfg.Legal →
    ((transact t s).answer = some .busError ↔ BusErrorCase s.cfg t) ∧
    (BusErrorCase s.cfg t → transact t s = { s with answer := some .busError }) ∧
    (¬ BusErrorCase s.cfg t → (transact t s).answer = some .ok ∨ ∃ v, (transact t s).answer = some (.data v))

/-- R65, R66: while IDLE a legal write to IN or AUX stores the value's bytes, least significant at the lowest offset,
changes no other byte and nothing else; a 1-byte read returns each of them, and a read of the same size the value, its
bits above the size 0. -/
def Obligations.BufferWriteIsLittleEndian : Prop :=
  ∀ (s : State) (v : Word) (n : Size) (b : Buffer) (o : Offset), s.busy = false → s.cfg.Legal →
    b = .input ∨ b = .aux → o.toNat % n.bytes = 0 → b.base ≤ o.toNat → o.toNat + n.bytes ≤ b.base + b.size s.cfg →
    ∃ t, transact (.write o n v) s = t ∧ t = { s with mem := t.mem, answer := some .ok } ∧
      (∀ k, k < n.bytes → t.mem.get (o.toNat + k) = some (v.extractLsb' (8 * k) 8)) ∧
      (∀ a, a < o.toNat ∨ o.toNat + n.bytes ≤ a → t.mem.get a = s.mem.get a) ∧
      (∀ k, k < n.bytes → portRead (o + BitVec.ofNat 26 k) .byte t = some ((v.extractLsb' (8 * k) 8).setWidth 32)) ∧
      ∃ w, portRead o n t = some w ∧ w.toNat = v.toNat % 2 ^ (8 * n.bytes)

/-- R76: a read changes nothing but the answer and the model's own count of draws (assumption 6), and a read of a register or
of defined bytes while IDLE is idempotent: it depends neither on that count nor on an earlier answer. -/
def Obligations.ReadsHaveNoSideEffects : Prop :=
  ∀ (s : State) (o : Offset) (n : Size),
    transact (.read o n) s = { s with
      answer := (transact (.read o n) s).answer, draws := (transact (.read o n) s).draws } ∧
    ∀ (d : Nat) (a : Option Answer), s.cfg.Legal → s.busy = false →
      (∀ k, k < n.bytes → ¬ OutsideOutputs (o.toNat + k) → (s.mem.get (o.toNat + k)).isSome = true) →
      portRead o n { s with draws := d, answer := a } = portRead o n s

/-- R73: while BUSY, STATUS reads BUSY = 1, DONE, ERR, COLLAPSED, ERR_CODE and ERR_BUF 0 and the current DROPPED; ID, CTRL,
CMD, IN_LEN, AUX_LEN and the written bytes of IN and AUX read their current contents. -/
def Obligations.BusyReadsOfStatusAndInputs : Prop :=
  ∀ s : State, s.Inv → s.busy = true →
    portRead 0x00C .word s = some (if s.status.dropped then 0x00000011#32 else 0x00000001#32) ∧
    portRead 0x000 .word s = some 0xC0DEC001#32 ∧
    portRead 0x004 .word s = some (if s.irqEn then 1#32 else 0#32) ∧
    portRead 0x008 .word s = some s.cmd ∧ portRead 0x010 .word s = some s.inLen ∧
    portRead 0x014 .word s = some s.auxLen ∧
    ∀ (b : Buffer) (o : Offset) (v : Byte), b = .input ∨ b = .aux → b.base ≤ o.toNat →
      o.toNat < b.base + b.size s.cfg → s.mem.get o.toNat = some v → portRead o .byte s = some (v.setWidth 32)

/-- R74: while BUSY a read of a result register, of OUT or of TAB of any size gives free values of the draw, one for each
byte of a buffer, and the next read is another draw. The free values are the model's (assumption 6). -/
def Obligations.BusyReadsOfResultsAreDraws : Prop :=
  ∀ (s : State) (o : Offset), s.busy = true → s.cfg.Legal →
    (o.toNat % 4 = 0 → 0x018 ≤ o.toNat → o.toNat < 0x050 →
      transact (.read o .word) s =
        { s with answer := some (.data (Config.freeWord s.draws)), draws := s.draws + 1 }) ∧
    (∀ (b : Buffer) (n : Size), b = .tab ∨ b = .out → o.toNat % n.bytes = 0 → b.base ≤ o.toNat →
      o.toNat + n.bytes ≤ b.base + b.size s.cfg →
      ∃ w : Word, transact (.read o n) s = { s with answer := some (.data w), draws := s.draws + 1 } ∧
        w.toNat < 2 ^ (8 * n.bytes) ∧
        ∀ k, k < n.bytes → w.extractLsb' (8 * k) 8 = Config.freeByte s.draws (o.toNat + k))

/-- R23, R28 to R41: what the registers read while IDLE, the 64-bit values low word at the lower offset; and R46, R47, R64, R65,
R79: a legal read of a buffer, of any size, returns the bytes that the buffer holds at the places the window maps to, the
lowest in bits 7:0, and 0 above them, where all of them are defined. -/
def Obligations.IdleRegisterReads : Prop :=
  ∀ s : State, s.busy = false →
    (s.cfg.Legal → ∀ (b : Buffer) (window j : Nat) (n : Size) (o : Offset) (bs : List Byte),
      (b, window) ∈ [(Buffer.tab, 0x1000), (.input, 0x1000000), (.aux, 0x2000000), (.out, 0x3000000)] →
      o.toNat = window + j → o.toNat % n.bytes = 0 → j + n.bytes ≤ b.size s.cfg → bs.length = n.bytes →
      (∀ k, k < n.bytes → s.mem.get (b.base + j + k) = bs[k]?) →
      ∃ w : Word, portRead o n s = some w ∧ w.toNat < 2 ^ (8 * n.bytes) ∧
        ∀ k, k < n.bytes → bs[k]? = some (w.extractLsb' (8 * k) 8)) ∧
    portRead 0x018 .word s = some s.res.outLen ∧ portRead 0x01C .word s = some s.res.errPos ∧
    portRead 0x020 .word s = some s.res.resOrig ∧ portRead 0x024 .word s = some s.res.resComp ∧
    portRead 0x028 .word s = some s.res.resRatio ∧ portRead 0x02C .word s = some s.res.resCount ∧
    portRead 0x030 .word s = some s.res.resDict ∧ portRead 0x034 .word s = some s.res.resWidth ∧
    (∃ l h, portRead 0x038 .word s = some l ∧ portRead 0x03C .word s = some h ∧
      s.res.arLow.toNat = l.toNat + 2 ^ 32 * h.toNat) ∧
    (∃ l h, portRead 0x040 .word s = some l ∧ portRead 0x044 .word s = some h ∧
      s.res.arHigh.toNat = l.toNat + 2 ^ 32 * h.toNat) ∧
    (∃ l h, portRead 0x048 .word s = some l ∧ portRead 0x04C .word s = some h ∧
      s.res.arVal.toNat = l.toNat + 2 ^ 32 * h.toNat) ∧
    (∃ w, portRead 0x00C .word s = some w ∧
      w.getLsbD 0 = false ∧ w.getLsbD 1 = s.status.done ∧ w.getLsbD 2 = s.status.err ∧
      w.getLsbD 3 = s.status.collapsed ∧ w.getLsbD 4 = s.status.dropped ∧ w.extractLsb' 5 3 = 0 ∧
      (w.extractLsb' 8 4).toNat =
        (match s.status.errCode with
          | .none => 0 | .emptyInput => 1 | .format => 2 | .unknownSymbol => 3 | .illegalCommand => 4
          | .capacity => 5) ∧
      w.getLsbD 12 = s.status.errBuf ∧ w.extractLsb' 13 19 = 0)

/-- R41: the configuration registers of a legal instance, in either phase, and that no step changes what they hold. -/
def Obligations.ConfigurationRegisterReads : Prop :=
  ∀ s : State, s.cfg.Legal →
    (∃ w, portRead 0x050 .word s = some w ∧ (w.extractLsb' 0 5).toNat = s.cfg.dictBits ∧
      (w.extractLsb' 8 6).toNat = s.cfg.arP ∧ w.extractLsb' 5 3 = 0 ∧ w.extractLsb' 14 18 = 0) ∧
    (∃ w, portRead 0x054 .word s = some w ∧ w.toNat = s.cfg.nIn) ∧
    (∃ w, portRead 0x058 .word s = some w ∧ w.toNat = s.cfg.nAux) ∧
    (∃ w, portRead 0x05C .word s = some w ∧ w.toNat = s.cfg.nOut) ∧
    ∀ t, step s = .next t → t.cfg = s.cfg

/-! ## The host's operations -/

/-- R110: what a line of the host program does. A load is one read and puts its data into its variable; a store is one write of a
constant or a variable; a branch compares a variable under a mask. What a load answered by a bus error does is the model's
choice (assumption 11). -/
def Obligations.HostOperations : Prop :=
  ∀ s : State,
    (∀ n h o, s.host.prog[s.host.pc]? = some (.load n h o) → ∃ t, hostMove s = t ∧
      t.answer = (transact (.read o n) s).answer ∧ t.host.prog = s.host.prog ∧ t.host.pc = s.host.pc + 1 ∧
      (∀ v, t.answer = some (.data v) → t.host.vars = s.host.vars.set h v) ∧
      ((∀ v, t.answer ≠ some (.data v)) → t.host.vars = s.host.vars) ∧
      t = { s with host := t.host, answer := t.answer, draws := t.draws }) ∧
    (∀ n o c, s.host.prog[s.host.pc]? = some (.store n o (.const c)) →
      hostMove s = { transact (.write o n c) s with host := { s.host with pc := s.host.pc + 1 } }) ∧
    (∀ n o h, s.host.prog[s.host.pc]? = some (.store n o (.var h)) →
      hostMove s = { transact (.write o n s.host.vars[h]) s with host := { s.host with pc := s.host.pc + 1 } }) ∧
    (∀ h mask target, s.host.prog[s.host.pc]? = some (.bnz h mask target) →
      hostMove s = { s with host :=
        { s.host with pc := if s.host.vars[h] &&& mask = 0 then s.host.pc + 1 else target } }) ∧
    ∀ h mask target, s.host.prog[s.host.pc]? = some (.bz h mask target) →
      hostMove s = { s with host :=
        { s.host with pc := if s.host.vars[h] &&& mask = 0 then target else s.host.pc + 1 } }

/-! ## Reset -/

/-- R241: a hardware reset in any state, and the reset state itself: every register at the value of the table, IDLE, `irq`
0, no byte of a buffer defined, and the parameters kept. -/
def Obligations.HardwareResetState : Prop :=
  (∀ s : State, (hardReset s).cfg = s.cfg) ∧
  ∀ r : State, (r = State.reset ∨ ∃ s, r = hardReset s) →
    r.phase = .idle ∧ r.irq = false ∧ (∀ a, r.mem.get a = none) ∧
    portRead 0x000 .word r = some 0xC0DEC001#32 ∧
    (∀ o : Offset, o.toNat % 4 = 0 → 0x004 ≤ o.toNat → o.toNat < 0x050 → portRead o .word r = some 0) ∧
    portRead 0x050 .word r = some (BitVec.ofNat 32 (r.cfg.dictBits % 32 + r.cfg.arP % 64 * 256)) ∧
    portRead 0x054 .word r = some (BitVec.ofNat 32 r.cfg.nIn) ∧
    portRead 0x058 .word r = some (BitVec.ofNat 32 r.cfg.nAux) ∧
    portRead 0x05C .word r = some (BitVec.ofNat 32 r.cfg.nOut)

/-! ## Whole-machine rules -/

/-- R22: an accepted CMD write moves IDLE to BUSY, completion moves BUSY to IDLE, a soft reset and a hardware reset move
either phase to IDLE, and no other step changes the phase; STATUS.BUSY reads the phase. -/
def Obligations.PhaseTransitions : Prop :=
  ∀ s t : State, step s = .next t →
    (s.busy = false → t.busy = true → ∃ v, HostStores s 0x008 v ∧ t.cmd = v) ∧
    (s.busy = true → t.busy = false →
      (s.mover = .engine ∧ t.status.done = true) ∨ s.mover = .hardReset ∨
      ∃ v, HostStores s 0x004 v ∧ v.getLsbD 1 = true) ∧
    (∀ v, HostStores s 0x008 v → t.busy = true) ∧
    (s.mover = .engine → t.busy = false ∧ (s.busy = true → t.status.done = true)) ∧
    (∀ v, HostStores s 0x004 v → v.getLsbD 1 = true → t.busy = false) ∧
    (s.mover = .hardReset → t.busy = false) ∧
    ∃ w, portRead 0x00C .word s = some w ∧ w.getLsbD 0 = s.busy

/-- R28: DROPPED, once set, stays set until the host writes 1 to it, a soft reset or a hardware reset. -/
def Obligations.DroppedIsSticky : Prop :=
  ∀ s t : State, step s = .next t → s.status.dropped = true → t.status.dropped = false →
    s.mover = .hardReset ∨ (∃ v, HostStores s 0x00C v ∧ v.getLsbD 4 = true) ∨
    ∃ v, HostStores s 0x004 v ∧ v.getLsbD 1 = true

/-- R75, R249: results stay. While IDLE no result register and no byte of OUT or TAB changes, but at a launch, a soft reset or
a hardware reset. -/
def Obligations.ResultsStayUntilLaunchOrReset : Prop :=
  ∀ s t : State, step s = .next t → s.cfg.Legal → s.busy = false →
    (t.res = s.res ∧ ∀ a, ¬ OutsideOutputs a → t.mem.get a = s.mem.get a) ∨
    s.mover = .hardReset ∨ (∃ v, HostStores s 0x008 v) ∨ ∃ v, HostStores s 0x004 v ∧ v.getLsbD 1 = true

/-- R222: `irq` is IRQ_EN AND DONE; it rises at a completion while IRQ_EN = 1 and when the host sets IRQ_EN while DONE = 1;
it falls when the host clears DONE, clears IRQ_EN, launches a command or resets the block; and no other step changes it. -/
def Obligations.IrqRisesAndFallsAsStated : Prop :=
  ∀ s t : State, step s = .next t →
    s.irq = (s.irqEn && s.status.done) ∧
    (s.irq = false → t.irq = true →
      (s.mover = .engine ∧ s.busy = true ∧ s.irqEn = true) ∨
      ∃ v, HostStores s 0x004 v ∧ v.getLsbD 0 = true ∧ s.status.done = true) ∧
    (s.irq = true → t.irq = false →
      s.mover = .hardReset ∨ (∃ v, HostStores s 0x00C v ∧ v.getLsbD 1 = true) ∨
      (∃ v, HostStores s 0x004 v ∧ (v.getLsbD 0 = false ∨ v.getLsbD 1 = true)) ∨
      ∃ v, HostStores s 0x008 v ∧ s.busy = false) ∧
    (s.mover = .engine → s.busy = true → s.irqEn = true → t.irq = true) ∧
    (∀ v, HostStores s 0x004 v → t.irq = (v.getLsbD 0 && !v.getLsbD 1 && s.status.done)) ∧
    (∀ v, HostStores s 0x00C v → v.getLsbD 1 = true → t.irq = false) ∧
    (∀ v, HostStores s 0x008 v → s.busy = false → t.irq = false) ∧
    (s.mover = .hardReset → t.irq = false)

/-- R44, R45, R72, R85: a byte of the windows of IN and AUX changes only by a hardware reset or by a host write while
IDLE that covers it. -/
def Obligations.InputsChangeOnlyByHostWhileIdle : Prop :=
  ∀ (s t : State) (a : Nat), step s = .next t → 0x1000000 ≤ a → a < 0x3000000 → t.mem.get a ≠ s.mem.get a →
    s.mover = .hardReset ∨
    (s.mover = .host ∧ s.busy = false ∧ ∃ n o v, s.host.prog[s.host.pc]? = some (.store n o v) ∧
      o.toNat ≤ a ∧ a < o.toNat + n.bytes)

/-- R211, R255: whatever the order of moves, a running command ends, by completion or reset, within one step more than
there are turns named. -/
def Obligations.CommandsEndWithinTheTurns : Prop :=
  ∀ s : State, ∃ k t, k ≤ s.turns.length + 1 ∧ Sys2Proof.core.run k s = .next t ∧ t.busy = false

/-! ## Invariants -/

/-- The reset state meets the invariant. -/
def Obligations.ResetMeetsTheInvariant : Prop := State.reset.Inv

/-- Every step keeps the invariant (R28, R33, R46, R47, R73, R78, R95, R190, R193, R210, R213): from every state that meets
it, by every agent. -/
def Obligations.StepKeepsTheInvariant : Prop := ∀ s t : State, s.Inv → step s = .next t → t.Inv

/-- Every step keeps memory in canonical form, with no other premise. -/
def Obligations.StepKeepsMemoryCanonical : Prop :=
  ∀ s t : State, s.mem.wf = true → step s = .next t → t.mem.wf = true

/-! ## All commands -/

/-- R78, R49, R257: what a command leaves in the result registers, STATUS, OUT and TAB is a function of the command, the
parameters and the snapshot alone (DROPPED, which it does not touch, apart). So is what is observed when it has ended, that is
when a host read returns DONE = 1 after its launch with no reset between: it is what its completion leaves, whatever the host
did meanwhile. An illegal word's command is one of them. -/
def Obligations.OutcomeDependsOnTheSnapshotAlone : Prop :=
  (∀ (i : Instr) (s u s' u' : State), s.cfg = u.cfg → s.cfg.Legal → s.snapshot = u.snapshot → exec i s = .next s' →
    exec i u = .next u' →
    s'.observation s.snapshot = u'.observation u.snapshot ∧ s'.res = u'.res ∧
    { s'.status with dropped := false } = { u'.status with dropped := false } ∧
    ∀ a, ¬ OutsideOutputs a → s'.mem.get a = u'.mem.get a) ∧
  ∀ (v : Word) (snap : Snapshot) (s t u u' : State), CommandEnds v snap s t → t.cfg.Legal → u.cfg = t.cfg →
    u.cmd = v → u.phase = .busy snap → engineMove u = .next u' →
    t.observation snap = u'.observation snap

/-- R31: AUX_LEN and AUX make no difference to what may be observed at the end of a command other than AR_ENC, the snapshot
itself apart. -/
def Obligations.OnlyArEncReadsAux : Prop :=
  ∀ (i : Instr) (s u s' u' : State), i ≠ .arEnc → s.cfg = u.cfg → s.snapshot.inLen = u.snapshot.inLen →
    s.snapshot.input = u.snapshot.input → exec i s = .next s' → exec i u = .next u' →
    ∀ snap, s'.observation snap = u'.observation snap

/-- R97, R210, R42, R221: on a legal instance and the snapshot of a launch every command, whatever the input, completes, in
exactly one of two ways: a success that defines OUT's first OUT_LEN bytes, or an error. In either the engine is IDLE, DONE is
1, and nothing but the result registers, STATUS, OUT and TAB is touched. -/
def Obligations.EveryCommandCompletesWithItsFrame : Prop :=
  ∀ (i : Instr) (s : State), s.cfg.Legal → s.SnapshotOk → ∃ t, exec i s = .next t ∧
    ((∃ res collapsed out tab, Succeeded s t res collapsed out tab ∧ out.length ≤ s.cfg.nOut ∧
        res.outLen.toNat = out.length ∧ res.errPos = 0 ∧ (collapsed = true → i = .arEnc) ∧
        (tab ≠ [] → i = .sfEnc ∧ tab.length = 8 * res.resCount.toNat)) ∨
      ∃ code pos auxBuf, code ≠ .none ∧ Failed s t code pos auxBuf)

/-- R210, R213: a running command changes no byte of memory but OUT's first OUT_LEN bytes and, for SF_ENC, TAB's first
8 RES_COUNT bytes: every byte outside them reads after the command as it did before. -/
def Obligations.CommandsStoreOnlyTheirOutputBytes : Prop :=
  ∀ (i : Instr) (s t : State) (a : Nat), s.Inv → s.busy = true → exec i s = .next t →
    ¬ (Buffer.out.base ≤ a ∧ a < Buffer.out.base + t.res.outLen.toNat) →
    ¬ (i = .sfEnc ∧ Buffer.tab.base ≤ a ∧ a < Buffer.tab.base + 8 * t.res.resCount.toNat) →
    t.mem.get a = s.mem.get a

/-- R213: a command that ends with ERR = 1 ends in the error completion: ERR_CODE, ERR_BUF and ERR_POS record the error, every
other result register is 0, COLLAPSED is 0, no byte of OUT or TAB is defined, and nothing else is touched. -/
def Obligations.ErrorsLeaveNoPartialResult : Prop :=
  ∀ (i : Instr) (s t : State), s.cfg.Legal → exec i s = .next t → t.status.err = true →
    ∃ code pos auxBuf, code ≠ .none ∧ Failed s t code pos auxBuf

/-- R214: which command raises which error, with the conditions that are on the length registers alone. -/
def Obligations.ErrorsOfEachCommand : Prop :=
  ∀ (i : Instr) (s t : State), exec i s = .next t →
    t.status.errCode ≠ .illegalCommand ∧
    (t.status.errCode = .unknownSymbol → i = .arEnc ∧ t.status.errBuf = false) ∧
    (t.status.errCode = .format → i = .rleDec ∨ i = .lzwDec ∨ (i = .arEnc ∧ t.status.errBuf = true)) ∧
    (t.status.errCode = .emptyInput ↔ s.snapshot.inLen = 0 ∨
      (i = .arEnc ∧ s.snapshot.inLen.toNat ≤ s.cfg.nIn ∧ s.snapshot.auxLen = 0)) ∧
    (i = .rleEnc ∨ i = .lzwEnc ∨ i = .sfEnc →
      (t.status.errCode = .capacity ↔ s.snapshot.inLen ≠ 0 ∧ s.cfg.nIn < s.snapshot.inLen.toNat))

/-- R215: the eager checks, in their order, before anything else. -/
def Obligations.EagerChecksInOrder : Prop :=
  ∀ (i : Instr) (s : State), s.cfg.Legal → ∃ t, exec i s = .next t ∧
    (s.snapshot.inLen.toNat = 0 → Failed s t .emptyInput 0 false) ∧
    (s.snapshot.inLen.toNat ≠ 0 → s.cfg.nIn < s.snapshot.inLen.toNat → Failed s t .capacity 0 false) ∧
    (s.snapshot.inLen.toNat ≠ 0 → s.snapshot.inLen.toNat ≤ s.cfg.nIn →
      (i = .arEnc → s.snapshot.auxLen.toNat = 0 → Failed s t .emptyInput 0 true) ∧
      (i = .arEnc → s.snapshot.auxLen.toNat ≠ 0 → s.cfg.nAux < s.snapshot.auxLen.toNat →
        Failed s t .capacity 0 true) ∧
      (i = .rleDec → s.snapshot.inLen.toNat % 4 ≠ 0 → Failed s t .format 0 false) ∧
      (i = .lzwDec → s.snapshot.inLen.toNat % 2 ≠ 0 → Failed s t .format 0 false))

/-- R34 to R40: the result registers that a command's rule does not name are 0 after it. -/
def Obligations.UnnamedResultsAreZero : Prop :=
  ∀ (i : Instr) (s t : State), exec i s = .next t →
    (i ≠ .rleEnc → i ≠ .sfEnc → t.res.resRatio = 0) ∧
    (i ≠ .lzwEnc → i ≠ .lzwDec → t.res.resDict = 0) ∧
    (i ≠ .sfEnc → t.res.resWidth = 0) ∧
    (i ≠ .rleEnc → i ≠ .sfEnc → i ≠ .arEnc → t.res.resComp = 0) ∧
    (i ≠ .arEnc → t.res.arLow = 0 ∧ t.res.arHigh = 0 ∧ t.res.arVal = 0 ∧ t.status.collapsed = false) ∧
    (i = .arEnc → t.res.outLen = 0)

/-- R218, R78: an IN_LEN write and the completion of a running command race. Completion first: the write is accepted. The write
first: it is dropped, IN_LEN keeps its value, and the command's results are the same. -/
def Obligations.LengthWriteRacesWithCompletion : Prop :=
  ∀ (s : State) (v : Word), s.busy = true → s.host.prog[s.host.pc]? = some (.store .word 0x010 (.const v)) →
    ∃ t u, engineMove s = .next t ∧ (hostMove t).inLen = v ∧ (hostMove t).status = t.status ∧
      (hostMove s).inLen = s.inLen ∧ (hostMove s).status.dropped = true ∧ engineMove (hostMove s) = .next u ∧
      u.res = t.res ∧ u.status.dropped = true ∧ u.status.errCode = t.status.errCode ∧
      (∀ a, u.mem.get a = t.mem.get a)

/-! ## RLE -/

/-- R121, with the results of R122: RLE_ENC on every input that passes the eager checks. -/
def Obligations.RleEncCompletes : Prop :=
  ∀ (s : State) (x : List Byte), InputIs s x → ∃ t runs comp,
    exec .rleEnc s = .next t ∧
    expandedRuns runs = x ∧ runs.IsChain (fun a b => a.1 ≠ b.1) ∧
    (∀ r ∈ runs, 1 ≤ r.2 ∧ r.2 ≤ x.length ∧ r.2 < 2 ^ 24) ∧
    1 ≤ runs.length ∧ runs.length ≤ x.length ∧ 4 * runs.length ≤ s.cfg.nOut ∧
    comp = (runs.map fun r => 1 + (1 + Nat.log 10 r.2)).sum ∧ 2 ≤ comp ∧
    Succeeded s t
      { ResultRegs.zero with
        outLen := BitVec.ofNat 32 (4 * runs.length)
        resOrig := BitVec.ofNat 32 x.length
        resComp := BitVec.ofNat 32 comp
        resRatio := BitVec.ofNat 32 (min (x.length * 65536 / comp) 0xFFFFFFFF)
        resCount := BitVec.ofNat 32 runs.length }
      false (runs.map recordBytes).flatten []

/-- R122: RES_RATIO of RLE_ENC saturates only where IN_LEN is at least 458752, and it does for one run of 458752 bytes, whose
RES_COMP is 7. -/
def Obligations.RleRatioSaturatesFrom458752 : Prop :=
  (∀ (s t : State) (x : List Byte), InputIs s x → exec .rleEnc s = .next t → t.res.resRatio = 0xFFFFFFFF#32 →
    458752 ≤ x.length) ∧
  ∀ (s t : State) (b : Byte), InputIs s (List.replicate 458752 b) → exec .rleEnc s = .next t →
    t.res.resComp = 7#32 ∧ t.res.resRatio = 0xFFFFFFFF#32

/-- R129: RLE_DEC on every list of records that are runs and whose symbols fit OUT. -/
def Obligations.RleDecCompletes : Prop :=
  ∀ (s : State) (runs : List (Byte × Nat)), (∀ r ∈ runs, 1 ≤ r.2 ∧ r.2 < 2 ^ 24) →
    InputIs s (runs.map recordBytes).flatten → (expandedRuns runs).length ≤ s.cfg.nOut →
    ∃ t, exec .rleDec s = .next t ∧
      Succeeded s t
        { ResultRegs.zero with
          outLen := BitVec.ofNat 32 (expandedRuns runs).length
          resOrig := BitVec.ofNat 32 (expandedRuns runs).length
          resCount := BitVec.ofNat 32 runs.length }
        false (expandedRuns runs) []

/-- R128: the errors of RLE_DEC in the order checked, the eager ones and those of the first record that fails. -/
def Obligations.RleDecErrors : Prop :=
  ∀ s : State, s.cfg.Legal → ∃ t, exec .rleDec s = .next t ∧
    (s.snapshot.inLen.toNat = 0 → Failed s t .emptyInput 0 false) ∧
    (s.snapshot.inLen.toNat ≠ 0 → s.cfg.nIn < s.snapshot.inLen.toNat → Failed s t .capacity 0 false) ∧
    (s.snapshot.inLen.toNat ≠ 0 → s.snapshot.inLen.toNat ≤ s.cfg.nIn → s.snapshot.inLen.toNat % 4 ≠ 0 →
      Failed s t .format 0 false) ∧
    ∀ (pre post : List (Byte × Nat)) (r : Byte × Nat), (∀ q ∈ pre ++ r :: post, q.2 < 2 ^ 24) →
      InputIs s ((pre ++ r :: post).map recordBytes).flatten → (∀ q ∈ pre, 1 ≤ q.2) →
      (expandedRuns pre).length ≤ s.cfg.nOut →
      (r.2 = 0 → Failed s t .format (4 * pre.length) false) ∧
      (r.2 ≠ 0 → s.cfg.nOut < (expandedRuns pre).length + r.2 → Failed s t .capacity (4 * pre.length) false)

/-- R132: the RLE round trip through the host. -/
def Obligations.RleRoundTrip : Prop :=
  ∀ (s t u : State) (x : List Byte), InputIs s x → exec .rleEnc s = .next t → CopiesOutput t u →
    ∃ v, exec .rleDec u = .next v ∧
      (t.res.outLen.toNat ≤ s.cfg.nIn →
        v.status.err = false ∧ v.res.outLen.toNat = x.length ∧ OutIs v x) ∧
      (s.cfg.nIn < t.res.outLen.toNat → Failed u v .capacity 0 false)

/-! ## LZW -/

/-- R142, with the greedy phrases of R140 and the frozen dictionary of R145: LZW_ENC on every input that passes the eager
checks. -/
def Obligations.LzwEncCompletes : Prop :=
  ∀ (s : State) (x : List Byte), InputIs s x → ∃ t codes phrases dictSize,
    exec .lzwEnc s = .next t ∧
    phrases.flatten = x ∧ CodesStand (2 ^ s.cfg.dictBits) [] codes phrases ∧
    PhrasesGreedy (2 ^ s.cfg.dictBits) [] phrases ∧
    dictSize = min (256 + (codes.length - 1)) (2 ^ s.cfg.dictBits) ∧
    (∀ k ∈ codes, k < dictSize) ∧ dictSize ≤ 2 ^ s.cfg.dictBits ∧
    1 ≤ codes.length ∧ codes.length ≤ x.length ∧ 2 * codes.length ≤ s.cfg.nOut ∧
    Succeeded s t
      { ResultRegs.zero with
        outLen := BitVec.ofNat 32 (2 * codes.length)
        resOrig := BitVec.ofNat 32 x.length
        resCount := BitVec.ofNat 32 codes.length
        resDict := BitVec.ofNat 32 dictSize }
      false (codes.map halfwordBytes).flatten []

/-- R149, R147, R148: LZW_DEC on every list of codes that stand for phrases that fit OUT. -/
def Obligations.LzwDecCompletes : Prop :=
  ∀ (s : State) (codes : List Nat) (phrases : List (List Byte)),
    CodesStand (2 ^ s.cfg.dictBits) [] codes phrases → InputIs s (codes.map halfwordBytes).flatten →
    phrases.flatten.length ≤ s.cfg.nOut →
    ∃ t, exec .lzwDec s = .next t ∧
      Succeeded s t
        { ResultRegs.zero with
          outLen := BitVec.ofNat 32 phrases.flatten.length
          resOrig := BitVec.ofNat 32 phrases.flatten.length
          resCount := BitVec.ofNat 32 codes.length
          resDict := BitVec.ofNat 32 (min (256 + (codes.length - 1)) (2 ^ s.cfg.dictBits)) }
        false phrases.flatten []

/-- R148: a code equal to `nextCode`, below `CAP`, decodes to `previous ++ [previous[0]]`, and that string is stored under it:
given again, `n` times, it decodes to the same string each time. -/
def Obligations.LzwSelfReference : Prop :=
  ∀ (s : State) (codes : List Nat) (phrases : List (List Byte)) (previous : List Byte) (n : Nat),
    CodesStand (2 ^ s.cfg.dictBits) [] codes (phrases ++ [previous]) →
    256 + phrases.length < 2 ^ s.cfg.dictBits →
    InputIs s ((codes ++ List.replicate (n + 1) (256 + phrases.length)).map halfwordBytes).flatten →
    ((phrases ++ [previous]).flatten ++ (List.replicate (n + 1) (previous ++ previous.take 1)).flatten).length ≤
      s.cfg.nOut →
    ∃ t, exec .lzwDec s = .next t ∧ t.status.err = false ∧
      OutIs t ((phrases ++ [previous]).flatten ++ (List.replicate (n + 1) (previous ++ previous.take 1)).flatten)

/-- R150: the errors of LZW_DEC in the order checked, the eager ones and those of the first code that fails. -/
def Obligations.LzwDecErrors : Prop :=
  ∀ s : State, s.cfg.Legal → ∃ t, exec .lzwDec s = .next t ∧
    (s.snapshot.inLen.toNat = 0 → Failed s t .emptyInput 0 false) ∧
    (s.snapshot.inLen.toNat ≠ 0 → s.cfg.nIn < s.snapshot.inLen.toNat → Failed s t .capacity 0 false) ∧
    (s.snapshot.inLen.toNat ≠ 0 → s.snapshot.inLen.toNat ≤ s.cfg.nIn → s.snapshot.inLen.toNat % 2 ≠ 0 →
      Failed s t .format 0 false) ∧
    ∀ (codes post : List Nat) (k : Nat) (phrases : List (List Byte)), (∀ q ∈ k :: post, q < 2 ^ 16) →
      InputIs s ((codes ++ k :: post).map halfwordBytes).flatten →
      CodesStand (2 ^ s.cfg.dictBits) [] codes phrases → phrases.flatten.length ≤ s.cfg.nOut →
      (codes = [] → 256 ≤ k → Failed s t .format 0 false) ∧
      (codes ≠ [] → 2 ^ s.cfg.dictBits ≤ k ∨ 256 + (codes.length - 1) < k →
        Failed s t .format (2 * codes.length) false) ∧
      (∀ p, codes ≠ [] → CodeStands (2 ^ s.cfg.dictBits) phrases k p →
        s.cfg.nOut < phrases.flatten.length + p.length → Failed s t .capacity (2 * codes.length) false)

/-- R153: the LZW round trip through the host, for every legal `DICT_BITS`. -/
def Obligations.LzwRoundTrip : Prop :=
  ∀ (s t u : State) (x : List Byte), InputIs s x → exec .lzwEnc s = .next t → CopiesOutput t u →
    ∃ v, exec .lzwDec u = .next v ∧
      (t.res.outLen.toNat ≤ s.cfg.nIn →
        v.status.err = false ∧ v.res.outLen.toNat = x.length ∧ OutIs v x ∧ v.res.resDict = t.res.resDict) ∧
      (s.cfg.nIn < t.res.outLen.toNat → Failed u v .capacity 0 false)

/-! ## SF -/

/-- R162: the width is 1 for up to two symbols and otherwise the least that holds `k` codewords, and the codeword of rank `r` is
`r`, but 1 for a single symbol. -/
def Obligations.SfWidthAndCodewords : Prop :=
  ∀ k : Nat, 1 ≤ k → k ≤ 256 →
    (k ≤ 2 → sfWidth k = 1) ∧
    (3 ≤ k → k ≤ 2 ^ sfWidth k ∧ ∀ w, k ≤ 2 ^ w → sfWidth k ≤ w) ∧
    (3 ≤ k → 2 ≤ sfWidth k ∧ sfWidth k ≤ 8) ∧ (129 ≤ k → sfWidth k = 8) ∧
    (∀ r, r < k → sfCode k r = if k = 1 then 1 else r) ∧ ∀ r, r < k → sfCode k r < 2 ^ sfWidth k

/-- R163, R161, R165, R169, with the bit string of R160 and R103: SF_ENC on every input that passes the eager checks. The symbols in
rank order are `ranks`; bit `t` of the codeword of symbol `i` stands in OUT at bit place `i * W + t`, most significant bit
first, and the places after the last are 0. -/
def Obligations.SfEncCompletes : Prop :=
  ∀ (s : State) (x : List Byte), InputIs s x →
    ∃ (t : State) (ranks out : List Byte) (w : Nat) (code : Nat → Nat),
    exec .sfEnc s = .next t ∧ IsRanking x ranks ∧ 1 ≤ ranks.length ∧ ranks.length ≤ 256 ∧
    w = sfWidth ranks.length ∧ (∀ r, code r = if ranks.length = 1 then 1 else r) ∧
    out.length = (x.length * w + 7) / 8 ∧
    (∀ (i r j : Nat) (b : Byte), x[i]? = some b → ranks[r]? = some b → j < w →
      ∃ o, out[(i * w + j) / 8]? = some o ∧ o.getLsbD (7 - (i * w + j) % 8) = (code r).testBit (w - 1 - j)) ∧
    (∀ j, x.length * w ≤ j → j < 8 * out.length →
      ∃ o, out[j / 8]? = some o ∧ o.getLsbD (7 - j % 8) = false) ∧
    Succeeded s t
      { ResultRegs.zero with
        outLen := BitVec.ofNat 32 ((x.length * w + 7) / 8)
        resOrig := BitVec.ofNat 32 (8 * x.length)
        resComp := BitVec.ofNat 32 (x.length * w)
        resRatio := BitVec.ofNat 32 (524288 / w)
        resCount := BitVec.ofNat 32 ranks.length
        resWidth := BitVec.ofNat 32 w }
      false out
      ((List.range ranks.length).map fun r =>
        tabEntryBytes (ranks.getD r 0) (code r) w (x.count (ranks.getD r 0))).flatten

/-! ## AR -/

/-- R189, R181, R183, R185: AR_ENC on every message whose symbols are all in the specification, a list of pairs that the parse
accepts. -/
def Obligations.ArEncCompletes : Prop :=
  ∀ (s : State) (msg : List Byte) (es : List SpecPair) (e : SpecPair), InputIs s msg → AuxIs s (specBytes es e) →
    GoodPairs (largestTotal s.cfg) (es ++ [e]) → (∀ c ∈ msg, c ∈ (es ++ [e]).map fun a => a.1) →
    ∃ t low high, exec .arEnc s = .next t ∧
      (low, high) = messageInterval s.cfg.arP (es ++ [e]) msg ∧ low ≤ high ∧ high ≤ 2 ^ s.cfg.arP ∧
      Succeeded s t
        { ResultRegs.zero with
          resOrig := BitVec.ofNat 32 msg.length
          resComp := BitVec.ofNat 32 (pairTotal (es ++ [e]))
          resCount := BitVec.ofNat 32 (es.length + 1)
          arLow := BitVec.ofNat 64 low
          arHigh := BitVec.ofNat 64 high
          arVal := BitVec.ofNat 64 ((low + high) / 2) }
        (decide (low = high)) [] []

/-- R181: every violation of the specification, after good pairs, raises its error at its offset in AUX, whatever the message
is. -/
def Obligations.ArSpecificationErrors : Prop :=
  ∀ (s : State) (msg tail : List Byte) (pre : List SpecPair) (code : ErrCode) (off : Nat), InputIs s msg →
    AuxIs s (pairsThenComma pre ++ tail) → GoodPairs (largestTotal s.cfg) pre →
    SpecViolation (largestTotal s.cfg) pre tail code off →
    ∃ t, exec .arEnc s = .next t ∧ Failed s t code ((pairsThenComma pre).length + off) true

/-- R188: the first message byte without an entry raises UNKNOWN_SYMBOL at its index in IN. -/
def Obligations.ArUnknownSymbol : Prop :=
  ∀ (s : State) (known rest : List Byte) (c : Byte) (es : List SpecPair) (e : SpecPair),
    InputIs s (known ++ c :: rest) → AuxIs s (specBytes es e) → GoodPairs (largestTotal s.cfg) (es ++ [e]) →
    (∀ b ∈ known, b ∈ (es ++ [e]).map fun a => a.1) → (c ∉ (es ++ [e]).map fun a => a.1) →
    ∃ t, exec .arEnc s = .next t ∧ Failed s t .unknownSymbol known.length false

/-- R190: the intervals nest. One more symbol `c` in the message gives an interval inside the one before; if `c` is the last
symbol in byte order the high bound stays exactly, and if it is the first the low bound does. The first symbol's interval lies
so in `[0, 2^P]`. -/
def Obligations.ArIntervalsNest : Prop :=
  (∀ (s u t v : State) (msg : List Byte) (c : Byte) (es : List SpecPair) (e : SpecPair), u.cfg = s.cfg →
    InputIs s msg → InputIs u (msg ++ [c]) → AuxIs s (specBytes es e) → AuxIs u (specBytes es e) →
    GoodPairs (largestTotal s.cfg) (es ++ [e]) → (∀ b ∈ msg ++ [c], b ∈ (es ++ [e]).map fun a => a.1) →
    exec .arEnc s = .next t → exec .arEnc u = .next v →
    t.res.arLow.toNat ≤ v.res.arLow.toNat ∧ v.res.arLow.toNat ≤ v.res.arHigh.toNat ∧
    v.res.arHigh.toNat ≤ t.res.arHigh.toNat ∧ t.res.arHigh.toNat ≤ 2 ^ s.cfg.arP ∧
    (countUpTo (es ++ [e]) c = pairTotal (es ++ [e]) → v.res.arHigh = t.res.arHigh) ∧
    (countBelow (es ++ [e]) c = 0 → v.res.arLow = t.res.arLow)) ∧
  ∀ (s t : State) (c : Byte) (es : List SpecPair) (e : SpecPair), InputIs s [c] → AuxIs s (specBytes es e) →
    GoodPairs (largestTotal s.cfg) (es ++ [e]) → (c ∈ (es ++ [e]).map fun a => a.1) → exec .arEnc s = .next t →
    t.res.arLow.toNat ≤ t.res.arHigh.toNat ∧ t.res.arHigh.toNat ≤ 2 ^ s.cfg.arP ∧
    (countUpTo (es ++ [e]) c = pairTotal (es ++ [e]) → t.res.arHigh.toNat = 2 ^ s.cfg.arP) ∧
    (countBelow (es ++ [e]) c = 0 → t.res.arLow = 0)

/-- R191: for a message of one symbol the value lies strictly inside the symbol's interval,
`start(c) < val / 2^P < end(c)`. -/
def Obligations.ArRangeContainment : Prop :=
  ∀ (s t : State) (c : Byte) (es : List SpecPair) (e : SpecPair), InputIs s [c] → AuxIs s (specBytes es e) →
    GoodPairs (largestTotal s.cfg) (es ++ [e]) → (c ∈ (es ++ [e]).map fun a => a.1) → exec .arEnc s = .next t →
    t.status.err = false ∧
    countBelow (es ++ [e]) c * 2 ^ s.cfg.arP < t.res.arVal.toNat * pairTotal (es ++ [e]) ∧
    t.res.arVal.toNat * pairTotal (es ++ [e]) < countUpTo (es ++ [e]) c * 2 ^ s.cfg.arP

/-- R193: AR_ENC ends with COLLAPSED = 1, `low = high` and `val = low` exactly when some step of the message made the interval
empty, and succeeds all the same; after every other command COLLAPSED is 0. -/
def Obligations.ArCollapse : Prop :=
  (∀ (s t : State) (msg : List Byte) (es : List SpecPair) (e : SpecPair), InputIs s msg →
    AuxIs s (specBytes es e) → GoodPairs (largestTotal s.cfg) (es ++ [e]) →
    (∀ c ∈ msg, c ∈ (es ++ [e]).map fun a => a.1) → exec .arEnc s = .next t →
    t.status.err = false ∧
    (t.status.collapsed = true ↔ t.res.arLow = t.res.arHigh) ∧
    (t.status.collapsed = true ↔ ∃ n, n ≤ msg.length ∧
      (messageInterval s.cfg.arP (es ++ [e]) (msg.take n)).1 =
        (messageInterval s.cfg.arP (es ++ [e]) (msg.take n)).2) ∧
    (t.status.collapsed = true → t.res.arVal = t.res.arLow)) ∧
  ∀ (i : Instr) (s t : State), i ≠ .arEnc → exec i s = .next t → t.status.collapsed = false
end

