-- ==== Sys2Proof/Laws/Arith.lean ====
section
/-! SUPPORT. What the parse and the message loop of AR_ENC compute (43_arithmetic.md R181 to R193). -/

namespace Sys2Proof.Machine

/-! ### Frequency tables -/

theorem freqTotal_nil : freqTotal [] = 0 := rfl

theorem freqTotal_cons (e : Byte × Nat) (t : FreqTable) : freqTotal (e :: t) = e.2 + freqTotal t := rfl

theorem freqTotal_append (t u : FreqTable) : freqTotal (t ++ u) = freqTotal t + freqTotal u := by
  simp [freqTotal]

theorem freqOf_eq_some {t : FreqTable} {c : Byte} {f : Nat} (h : freqOf t c = some f) : (c, f) ∈ t := by
  induction t with
  | nil => simp [freqOf] at h
  | cons e t ih =>
    obtain ⟨b, g⟩ := e
    rw [freqOf] at h
    split at h
    · rename_i hb; cases h; subst hb; simp
    · exact List.mem_cons_of_mem _ (ih h)

theorem freqOf_eq_none {t : FreqTable} {c : Byte} : freqOf t c = none ↔ ∀ f, (c, f) ∉ t := by
  induction t with
  | nil => simp [freqOf]
  | cons e t ih =>
    obtain ⟨b, g⟩ := e
    rw [freqOf]
    split
    · rename_i hb; subst hb; exact ⟨fun h => by simp at h, fun h => absurd (by simp) (h g)⟩
    · rename_i hb
      rw [ih]
      simp only [List.mem_cons, Prod.mk.injEq, not_or, not_and]
      exact ⟨fun h f => ⟨fun hc => absurd hc.symm hb, h f⟩, fun h f => (h f).2⟩

/-- In a table of distinct symbols an entry is what is looked up. -/
theorem freqOf_of_mem {t : FreqTable} (hn : (t.map fun e => e.1).Nodup) {c : Byte} {f : Nat} (h : (c, f) ∈ t) :
    freqOf t c = some f := by
  induction t with
  | nil => simp at h
  | cons e t ih =>
    obtain ⟨b, g⟩ := e
    rw [List.map_cons, List.nodup_cons] at hn
    rw [freqOf]
    rcases List.mem_cons.1 h with h | h
    · cases h; simp
    · have : b ≠ c := fun e => hn.1 (by subst e; exact List.mem_map.2 ⟨_, h, rfl⟩)
      rw [if_neg this, ih hn.2 h]

/-- What the parse makes of a specification (R181): distinct symbols, counts of at least 1, a total within `lim`. -/
structure TableOk (lim : Nat) (t : FreqTable) : Prop where
  nodup : (t.map fun e => e.1).Nodup
  pos : ∀ e ∈ t, 1 ≤ e.2
  total : freqTotal t ≤ lim

theorem TableOk.nil (lim : Nat) : TableOk lim [] := ⟨by simp, by simp, Nat.zero_le _⟩

/-- The end of a pair either adds its entry to the table or raises one of the errors of R181. -/
theorem specCommit_cases {lim p v : Nat} {sym : Byte} {t : FreqTable} (ht : TableOk lim t) :
    (specCommit lim p sym v t = .ok (t ++ [(sym, v)]) ∧ TableOk lim (t ++ [(sym, v)])) ∨
    specCommit lim p sym v t = .error (auxError .format p) ∨
    specCommit lim p sym v t = .error (auxError .capacity p) := by
  rw [specCommit]
  split
  · exact .inr (.inl rfl)
  · split
    · exact .inr (.inl rfl)
    · split
      · exact .inr (.inr rfl)
      · rename_i h1 h2 h3
        refine .inl ⟨rfl, ?_, ?_, ?_⟩
        · rw [List.map_append, List.nodup_append]
          refine ⟨ht.nodup, by simp, ?_⟩
          intro a ha b hb hab
          simp only [List.map_cons, List.map_nil, List.mem_singleton] at hb
          subst hb; subst hab
          obtain ⟨e, he, rfl⟩ := List.mem_map.1 ha
          have := freqOf_of_mem ht.nodup he
          rw [this] at h2
          exact h2 rfl
        · intro e he
          rcases List.mem_append.1 he with he | he
          · exact ht.pos e he
          · rw [List.mem_singleton.1 he]
            show 1 ≤ v
            omega
        · rw [freqTotal_append]
          simp only [freqTotal_cons, freqTotal_nil]
          omega

/-- The parse answers a good table that is longer than the one it began with, or FORMAT or CAPACITY in AUX (R181). -/
theorem specScan_cases {lim : Nat} (cs : List Byte) (q : Nat) (st : SpecState) {t : FreqTable} (ht : TableOk lim t) :
    (∃ u, specScan lim q st t cs = .ok u ∧ TableOk lim u ∧ t.length < u.length) ∨
    ∃ n, specScan lim q st t cs = .error (auxError .format n) ∨
      specScan lim q st t cs = .error (auxError .capacity n) := by
  induction cs generalizing q st t with
  | nil =>
    cases st with
    | inCount p sym v =>
      rw [specScan]
      rcases specCommit_cases (p := p) (v := v) (sym := sym) ht with ⟨h, ho⟩ | h | h
      · exact .inl ⟨_, h, ho, by simp⟩
      · exact .inr ⟨p, .inl h⟩
      · exact .inr ⟨p, .inr h⟩
    | atSym => exact .inr ⟨q, .inl rfl⟩
    | atColon p sym => exact .inr ⟨q, .inl rfl⟩
    | atDigit p sym => exact .inr ⟨q, .inl rfl⟩
  | cons c cs ih =>
    cases st with
    | atSym => rw [specScan]; exact ih _ _ ht
    | atColon p sym =>
      rw [specScan]
      split
      · exact ih _ _ ht
      · exact .inr ⟨q, .inl rfl⟩
    | atDigit p sym =>
      rw [specScan]
      split
      · exact ih _ _ ht
      · exact .inr ⟨q, .inl rfl⟩
    | inCount p sym v =>
      rw [specScan]
      split
      · exact ih _ _ ht
      · split
        · rcases specCommit_cases (p := p) (v := v) (sym := sym) ht with ⟨h, ho⟩ | h | h
          · rw [h]
            rcases ih (q + 1) .atSym ho with ⟨u, h1, h2, h3⟩ | h
            · exact .inl ⟨u, h1, h2, by simp at h3; omega⟩
            · exact .inr h
          · rw [h]; exact .inr ⟨p, .inl rfl⟩
          · rw [h]; exact .inr ⟨p, .inr rfl⟩
        · exact .inr ⟨q, .inl rfl⟩

theorem freqTotal_pos {lim : Nat} {t : FreqTable} (ht : TableOk lim t) (hne : t ≠ []) : 1 ≤ freqTotal t := by
  obtain ⟨e, l, rfl⟩ := List.exists_cons_of_ne_nil hne
  have := ht.pos e (by simp)
  rw [freqTotal_cons]
  omega

/-- A symbol's interval of counts ends within the total (R183). -/
theorem cumOf_add_le {t : FreqTable} {c : Byte} {f : Nat} (h : (c, f) ∈ t) : cumOf t c + f ≤ freqTotal t := by
  have key : ∀ t : FreqTable, (∀ d g, (d, g) ∈ t → d = c → g ≤ freqTotal (t.filter fun e => decide (¬ e.1.toNat < c.toNat))) ∧
      cumOf t c + freqTotal (t.filter fun e => decide (¬ e.1.toNat < c.toNat)) = freqTotal t := by
    intro t
    induction t with
    | nil => simp [cumOf, freqTotal]
    | cons e t ih =>
      obtain ⟨b, g⟩ := e
      simp only [cumOf] at ih ⊢
      by_cases hb : b.toNat < c.toNat
      · simp only [List.filter_cons, hb, decide_true, if_true, not_true, decide_false, freqTotal_cons,
          Bool.false_eq_true, if_false]
        refine ⟨fun d g' hd hdc => ?_, by omega⟩
        rcases List.mem_cons.1 hd with hd | hd
        · cases hd; subst hdc; omega
        · exact ih.1 d g' hd hdc
      · simp only [List.filter_cons, hb, decide_false, if_false, not_false_iff, decide_true, if_true, freqTotal_cons,
          Bool.false_eq_true]
        refine ⟨fun d g' hd hdc => ?_, by omega⟩
        rcases List.mem_cons.1 hd with hd | hd
        · cases hd; omega
        · have := ih.1 d g' hd hdc; omega
  have := key t
  have := this.1 c f h rfl
  omega

/-! ### The interval -/

/-- One narrowing keeps the new interval inside the old one (R190). -/
theorem arNarrow_nested {total cs ce : Nat} (ht : 1 ≤ total) (h1 : cs ≤ ce) (h2 : ce ≤ total) {iv : Nat × Nat}
    (h : iv.1 ≤ iv.2) :
    iv.1 ≤ (arNarrow total cs ce iv).1 ∧ (arNarrow total cs ce iv).1 ≤ (arNarrow total cs ce iv).2 ∧
      (arNarrow total cs ce iv).2 ≤ iv.2 := by
  simp only [arNarrow]
  have a : (iv.2 - iv.1) * cs / total ≤ (iv.2 - iv.1) * ce / total :=
    Nat.div_le_div_right (Nat.mul_le_mul_left _ h1)
  have b : (iv.2 - iv.1) * ce / total ≤ iv.2 - iv.1 := by
    calc (iv.2 - iv.1) * ce / total ≤ (iv.2 - iv.1) * total / total :=
          Nat.div_le_div_right (Nat.mul_le_mul_left _ h2)
      _ = iv.2 - iv.1 := Nat.mul_div_cancel _ ht
  generalize (iv.2 - iv.1) * cs / total = x at *
  generalize (iv.2 - iv.1) * ce / total = y at *
  omega

/-- The message loop ends inside the interval it began with, or raises UNKNOWN_SYMBOL (R188, R190). -/
theorem arLoop_cases {lim : Nat} {t : FreqTable} (ht : TableOk lim t) (hne : t ≠ []) (cs : List Byte) (i : Nat)
    {iv : Nat × Nat} (h : iv.1 ≤ iv.2) :
    (∃ o, arLoop t i iv cs = .ok o ∧ iv.1 ≤ o.1 ∧ o.1 ≤ o.2 ∧ o.2 ≤ iv.2) ∨
    ∃ n, arLoop t i iv cs = .error (inError .unknownSymbol n) := by
  induction cs generalizing i iv with
  | nil => exact .inl ⟨iv, rfl, Nat.le_refl _, h, Nat.le_refl _⟩
  | cons c cs ih =>
    rw [arLoop]
    cases hf : freqOf t c with
    | none => exact .inr ⟨i, rfl⟩
    | some f =>
      have hn := arNarrow_nested (freqTotal_pos ht hne) (Nat.le_add_right (cumOf t c) f)
        (cumOf_add_le (freqOf_eq_some hf)) h
      rcases ih (i + 1) hn.2.1 with ⟨o, h1, h2, h3, h4⟩ | h
      · exact .inl ⟨o, h1, by omega, h3, by omega⟩
      · exact .inr h

/-- AR_ENC answers a result over an interval within `[0, 2^P]`, or one of the errors of R194. -/
theorem arEncode_cases (p : Params) (msg spec : List Byte) :
    (∃ t iv, arEncode p msg spec = .ok (arEncResult msg.length t iv) ∧ TableOk (lim p) t ∧ t ≠ [] ∧ iv.1 ≤ iv.2 ∧
      iv.2 ≤ 2 ^ p.arP) ∨
    ∃ e, arEncode p msg spec = .error e ∧
      ((e.auxBuf = true ∧ (e.code = .format ∨ e.code = .capacity)) ∨ (e.auxBuf = false ∧ e.code = .unknownSymbol)) := by
  rw [arEncode, parseSpec]
  rcases specScan_cases spec 0 .atSym (TableOk.nil (lim p)) with ⟨t, h1, h2, h3⟩ | ⟨n, h | h⟩
  · have hne : t ≠ [] := by intro e; subst e; simp at h3
    rw [h1]
    rcases arLoop_cases h2 hne msg 0 (iv := (0, 2 ^ p.arP)) (Nat.zero_le _) with ⟨o, h4, -, h5, h6⟩ | ⟨n, h⟩
    · exact .inl ⟨t, o, by simp only [h4], h2, hne, h5, h6⟩
    · exact .inr ⟨inError .unknownSymbol n, by simp only [h], .inr ⟨rfl, rfl⟩⟩
  · rw [h]; exact .inr ⟨_, rfl, .inl ⟨rfl, .inl rfl⟩⟩
  · rw [h]; exact .inr ⟨_, rfl, .inl ⟨rfl, .inr rfl⟩⟩

end Sys2Proof.Machine
end

