-- ==== Sys2Proof/Laws/Bytes.lean ====
section
/-! SUPPORT. The laws of little-endian byte strings and of the formats built on them (20_memory.md R65, R66;
30_encoding.md R100, R102). -/

namespace Sys2Proof

@[simp] theorem leBytes_length (n v : Nat) : (leBytes n v).length = n := by
  induction n generalizing v with
  | zero => rfl
  | succ n ih => simp [leBytes, ih]

theorem leNat_lt (bs : List Byte) : leNat bs < 256 ^ bs.length := by
  induction bs with
  | nil => simp [leNat]
  | cons b bs ih =>
    have hb := b.isLt
    simp only [leNat, List.length_cons, Nat.pow_succ]
    omega

/-- What has been written is what is read. -/
theorem leNat_leBytes (n v : Nat) : leNat (leBytes n v) = v % 256 ^ n := by
  induction n generalizing v with
  | zero => simp [leBytes, leNat, Nat.mod_one]
  | succ n ih =>
    have e : 256 ^ (n + 1) = 256 * 256 ^ n := Nat.pow_succ'
    rw [leBytes, leNat, ih, BitVec.toNat_ofNat, e, Nat.mod_mul]

/-- What has been read is what is written. -/
theorem leBytes_leNat (bs : List Byte) : leBytes bs.length (leNat bs) = bs := by
  induction bs with
  | nil => rfl
  | cons b bs ih =>
    have hb := b.isLt
    have h1 : (b.toNat + 256 * leNat bs) / 256 = leNat bs := by omega
    simp only [List.length_cons, leBytes, leNat, h1, ih]
    congr 1
    apply BitVec.eq_of_toNat_eq
    simp only [BitVec.toNat_ofNat]
    omega

/-- Byte `t` of a stored value is its bits `8t+7 : 8t` (R65). -/
theorem leBytes_getElem? (n v t : Nat) (h : t < n) : (leBytes n v)[t]? = some (BitVec.ofNat 8 (v / 256 ^ t)) := by
  induction n generalizing v t with
  | zero => omega
  | succ n ih =>
    cases t with
    | zero => simp [leBytes]
    | succ t =>
      rw [leBytes, List.getElem?_cons_succ, ih (v / 256) t (by omega), Nat.div_div_eq_div_mul, Nat.pow_succ']

namespace Machine

theorem leBytes_four (v : Nat) : ∃ b0 b1 b2 b3, leBytes 4 v = [b0, b1, b2, b3] :=
  ⟨_, _, _, _, rfl⟩

/-- Reading the records that were written gives them back (R100). -/
theorem runRecords_flatten (runs : List Run) (h : ∀ r ∈ runs, r.2 < 2 ^ 24) :
    runRecords (runs.map runRecord).flatten = runs := by
  induction runs with
  | nil => rfl
  | cons r runs ih =>
    obtain ⟨b0, b1, b2, b3, hb⟩ := leBytes_four (r.2 * 256 + r.1.toNat)
    have hr := h r (by simp)
    have hs := r.1.isLt
    have hv : leNat [b0, b1, b2, b3] = r.2 * 256 + r.1.toNat := by
      rw [← hb, leNat_leBytes, Nat.mod_eq_of_lt (by omega)]
    rw [List.map_cons, List.flatten_cons, runRecord, hb]
    simp only [List.cons_append, List.nil_append, runRecords, hv]
    rw [ih (fun x hx => h x (by simp [hx]))]
    congr 1
    apply Prod.ext
    · apply BitVec.eq_of_toNat_eq
      simp only [BitVec.toNat_ofNat]
      omega
    · show (r.2 * 256 + r.1.toNat) / 256 = r.2
      omega

/-- Reading the codes that were written gives them back (R102). -/
theorem codeList_flatten (ks : List Nat) (h : ∀ k ∈ ks, k < 2 ^ 16) : codeList (ks.map codeBytes).flatten = ks := by
  induction ks with
  | nil => rfl
  | cons k ks ih =>
    have hk := h k (by simp)
    have hb : codeBytes k = [BitVec.ofNat 8 k, BitVec.ofNat 8 (k / 256)] := rfl
    have hv : leNat [BitVec.ofNat 8 k, BitVec.ofNat 8 (k / 256)] = k := by
      rw [← hb, codeBytes, leNat_leBytes, Nat.mod_eq_of_lt (by omega)]
    rw [List.map_cons, List.flatten_cons, hb]
    simp only [List.cons_append, List.nil_append, codeList, hv]
    rw [ih (fun x hx => h x (by simp [hx]))]

theorem runRecord_length (r : Run) : (runRecord r).length = 4 := by simp [runRecord]

theorem codeBytes_length (k : Nat) : (codeBytes k).length = 2 := by simp [codeBytes]

theorem flatten_runRecord_length (runs : List Run) : (runs.map runRecord).flatten.length = 4 * runs.length := by
  induction runs with
  | nil => rfl
  | cons r runs ih => simp only [List.map_cons, List.flatten_cons, List.length_append, ih, runRecord_length,
      List.length_cons]; omega

theorem flatten_codeBytes_length (ks : List Nat) : (ks.map codeBytes).flatten.length = 2 * ks.length := by
  induction ks with
  | nil => rfl
  | cons k ks ih => simp only [List.map_cons, List.flatten_cons, List.length_append, ih, codeBytes_length,
      List.length_cons]; omega

theorem runRecords_length (bs : List Byte) : (runRecords bs).length = bs.length / 4 := by
  induction bs using runRecords.induct with
  | case1 b0 b1 b2 b3 rest ih => simp only [runRecords, List.length_cons, ih]; omega
  | case2 bs h =>
    have : bs.length < 4 := by
      match bs, h with
      | [], _ => simp
      | [_], _ => simp
      | [_, _], _ => simp
      | [_, _, _], _ => simp
      | _ :: _ :: _ :: _ :: _, h => exact absurd rfl (h _ _ _ _ _)
    rw [runRecords.eq_def]
    split
    · rename_i h'; exact absurd rfl (h _ _ _ _ _)
    · simp; omega

theorem codeList_length (bs : List Byte) : (codeList bs).length = bs.length / 2 := by
  induction bs using codeList.induct with
  | case1 b0 b1 rest ih => simp only [codeList, List.length_cons, ih]; omega
  | case2 bs h =>
    have : bs.length < 2 := by
      match bs, h with
      | [], _ => simp
      | [_], _ => simp
      | _ :: _ :: _, h => exact absurd rfl (h _ _ _)
    rw [codeList.eq_def]
    split
    · exact absurd rfl (h _ _ _)
    · simp; omega

end Machine

end Sys2Proof
end

