-- ==== Sys2Proof/Laws/Lzw.lean ====
section
/-! SUPPORT. What the loops of LZW_ENC and LZW_DEC compute, in terms of phrases (41_lzw.md R140 to R154). -/

namespace Sys2Proof.Machine

/-! ### The entries phrases make -/

theorem lzwEntries_length (ps : List (List Byte)) : (lzwEntries ps).length = ps.length - 1 := by
  induction ps with
  | nil => rfl
  | cons p ps ih =>
    cases ps with
    | nil => rfl
    | cons q ps => simp only [lzwEntries, List.length_cons] at ih ⊢; omega

/-- One more phrase makes one more entry. -/
theorem lzwEntries_snoc (ps : List (List Byte)) (p q : List Byte) :
    lzwEntries (ps ++ [p, q]) = lzwEntries (ps ++ [p]) ++ [p ++ q.take 1] := by
  induction ps with
  | nil => rfl
  | cons a ps ih =>
    cases ps with
    | nil => rfl
    | cons b ps =>
      simp only [List.cons_append, lzwEntries] at ih ⊢
      rw [ih]

/-- The last phrase counts by its first symbol only. -/
theorem lzwEntries_last (ps : List (List Byte)) {p q : List Byte} (h : p.take 1 = q.take 1) :
    lzwEntries (ps ++ [p]) = lzwEntries (ps ++ [q]) := by
  rcases List.eq_nil_or_concat ps with rfl | ⟨l, a, rfl⟩
  · rfl
  · simp only [List.concat_eq_append, List.append_assoc, List.cons_append, List.nil_append, lzwEntries_snoc, h]

/-- An insertion, on the entries as they are kept below the cap (R145). -/
theorem dictInsert_entries {cap : Nat} (hc : 256 ≤ cap) (ps : List (List Byte)) (p q : List Byte) :
    dictInsert cap ((lzwEntries (ps ++ [p])).take (cap - 256)) (p ++ q.take 1) =
      (lzwEntries (ps ++ [p, q])).take (cap - 256) := by
  rw [lzwEntries_snoc, dictInsert, dictNext, List.length_take]
  generalize lzwEntries (ps ++ [p]) = es, p ++ q.take 1 = e
  by_cases h : es.length < cap - 256
  · rw [if_pos (by omega), List.take_of_length_le (by omega), List.take_of_length_le (by
      rw [List.length_append, List.length_singleton]; omega)]
  · rw [if_neg (by omega), List.take_append_of_le_length (by omega)]

theorem CodesStand.length_eq {cap : Nat} {done : List (List Byte)} {ks : List Nat} {ps : List (List Byte)}
    (h : CodesStand cap done ks ps) : ks.length = ps.length := by
  induction ks generalizing done ps with
  | nil => cases ps with
    | nil => rfl
    | cons p ps => exact h.elim
  | cons k ks ih => cases ps with
    | nil => exact h.elim
    | cons p ps => simp only [List.length_cons, ih h.2]

/-! ### The decoder -/

/-- A code that stands for a phrase is looked up as that phrase (R147). -/
theorem lzwEntry_of_stands {cap : Nat} (hc : 256 ≤ cap) {done : List (List Byte)} {prev p : List Byte} {k : Nat}
    (hp : prev ≠ []) (h : CodeStands cap (done ++ [prev]) k p) (hk : k < cap) :
    lzwEntry ((lzwEntries (done ++ [prev])).take (cap - 256)) prev k = some p := by
  rcases h with ⟨hk', rfl⟩ | ⟨hk', -, he⟩
  · rw [lzwEntry, if_pos (by rw [dictNext]; omega), dictString, if_pos hk']
  · rw [List.append_assoc, List.singleton_append, lzwEntries_snoc] at he
    have hl := List.getElem?_eq_some_iff.1 he |>.1
    rw [List.length_append, List.length_singleton] at hl
    rw [lzwEntry, dictNext, List.length_take]
    by_cases hlt : k - 256 < (lzwEntries (done ++ [prev])).length
    · rw [if_pos (by omega), dictString, if_neg (by omega), List.getElem?_take_of_lt (by omega)]
      rwa [List.getElem?_append_left hlt] at he
    · have e : k - 256 = (lzwEntries (done ++ [prev])).length := by omega
      rw [e, List.getElem?_concat_length, Option.some.injEq] at he
      rw [if_neg (by omega), if_pos (by omega)]
      refine congrArg some ?_
      obtain ⟨c, prev, rfl⟩ := List.exists_cons_of_ne_nil hp
      cases p with
      | nil => simp at he
      | cons a p => simp only [List.cons_append, List.cons.injEq] at he; simpa [he.1] using he

theorem CodeStands.lt_cap {cap : Nat} (hc : 256 ≤ cap) {done : List (List Byte)} {k : Nat} {p : List Byte}
    (h : CodeStands cap done k p) : k < cap := by
  rcases h with ⟨h, -⟩ | ⟨-, h, -⟩ <;> omega

theorem CodeStands.ne_nil {cap : Nat} {done : List (List Byte)} (hd : ∀ p ∈ done, p ≠ []) {k : Nat} {p : List Byte}
    (h : CodeStands cap done k p) : p ≠ [] := by
  rcases h with ⟨-, rfl⟩ | ⟨-, -, h⟩
  · simp
  · rcases List.eq_nil_or_concat done with rfl | ⟨l, a, rfl⟩
    · simp [lzwEntries] at h
    · intro hp
      subst hp
      have hm := List.mem_of_getElem? h
      clear h
      have key : ∀ ps : List (List Byte), (∀ p ∈ ps, p ≠ []) → [] ∉ lzwEntries (ps ++ [[]]) := by
        intro ps
        induction ps with
        | nil => intro _; simp [lzwEntries]
        | cons b ps ih =>
          intro hb
          cases ps with
          | nil => simpa [lzwEntries] using hb
          | cons c ps =>
            simp only [List.cons_append, lzwEntries, List.mem_cons, not_or]
            refine ⟨fun e => hb b (by simp) (List.append_eq_nil_iff.1 e.symm).1, ?_⟩
            exact ih (fun p hp => hb p (List.mem_cons_of_mem _ hp))
      exact key _ hd hm

/-- LZW_DEC over codes that stand for phrases that fit OUT (R147). -/
theorem lzwExpand_append {p : Params} (hc : 256 ≤ cap p) {done : List (List Byte)} (hd : ∀ q ∈ done, q ≠ [])
    {prev : List Byte} (hp : prev ≠ []) {j : Nat} {ks : List Nat} {ps : List (List Byte)}
    (h : CodesStand (cap p) (done ++ [prev]) ks ps) {out : List Byte}
    (hl : (out ++ ps.flatten).length ≤ p.nOut) (rest : List Nat) :
    ∃ done' prev', done' ++ [prev'] = done ++ [prev] ++ ps ∧ prev' ≠ [] ∧
      lzwExpand p ((lzwEntries (done ++ [prev])).take (cap p - 256)) prev out j (ks ++ rest) =
        lzwExpand p ((lzwEntries (done' ++ [prev'])).take (cap p - 256)) prev' (out ++ ps.flatten) (j + ks.length)
          rest := by
  induction ks generalizing done prev out j ps with
  | nil => cases ps with
    | nil => exact ⟨done, prev, by simp, hp, by simp⟩
    | cons q ps => exact h.elim
  | cons k ks ih => cases ps with
    | nil => exact h.elim
    | cons q ps =>
      obtain ⟨h1, h2⟩ := h
      have hk := h1.lt_cap hc
      have hdp : ∀ a ∈ done ++ [prev], a ≠ [] := by
        intro a ha
        rcases List.mem_append.1 ha with ha | ha
        · exact hd a ha
        · rw [List.mem_singleton.1 ha]; exact hp
      have hq : q ≠ [] := h1.ne_nil hdp
      simp only [List.flatten_cons, List.length_append] at hl
      obtain ⟨done', prev', e1, e2, e3⟩ := ih (j := j + 1) hdp hq h2 (out := out ++ q) (by
        simp only [List.length_append]; omega)
      refine ⟨done', prev', by rw [e1]; simp, e2, ?_⟩
      have hins := dictInsert_entries hc done prev q
      have e4 : done ++ [prev, q] = done ++ [prev] ++ [q] := by simp
      rw [List.cons_append, lzwExpand, if_neg (by omega), lzwEntry_of_stands hc hp h1 hk]
      simp only
      rw [if_neg (by omega), hins, e4, e3]
      simp only [List.flatten_cons, List.append_assoc, List.length_cons]
      congr 1
      omega

/-- The whole output of LZW_DEC on codes that stand for phrases that fit OUT, and its dictionary (R147, R149). -/
theorem lzwDecode_append {p : Params} (hc : 256 ≤ cap p) {k : Nat} {ks : List Nat} {ps : List (List Byte)}
    (h : CodesStand (cap p) [] (k :: ks) ps) (hl : ps.flatten.length ≤ p.nOut) (rest : List Nat) :
    ∃ done prev, done ++ [prev] = ps ∧ prev ≠ [] ∧
      lzwDecode p (k :: ks ++ rest) =
        lzwExpand p ((lzwEntries ps).take (cap p - 256)) prev ps.flatten (1 + ks.length) rest := by
  cases ps with
  | nil => exact h.elim
  | cons q ps =>
    obtain ⟨h1, h2⟩ := h
    rcases h1 with ⟨hk, rfl⟩ | ⟨-, -, h1⟩
    · obtain ⟨done', prev', e1, e2, e3⟩ :=
        lzwExpand_append hc (done := []) (by simp) (prev := [BitVec.ofNat 8 k]) (by simp) (j := 1) h2
          (out := [BitVec.ofNat 8 k]) (by simpa using hl) rest
      refine ⟨done', prev', by simpa using e1, e2, ?_⟩
      have e0 : (lzwEntries ([] ++ [[BitVec.ofNat 8 k]])).take (cap p - 256) = [] := by simp [lzwEntries]
      rw [e0] at e3
      rw [List.cons_append, lzwDecode, if_neg (by omega), e3, e1]
      simp
    · simp [lzwEntries] at h1

theorem lzwDecode_ok {p : Params} (hc : 256 ≤ cap p) {ks : List Nat} {ps : List (List Byte)}
    (h : CodesStand (cap p) [] ks ps) (hl : ps.flatten.length ≤ p.nOut) :
    lzwDecode p ks = .ok (ps.flatten, (lzwEntries ps).take (cap p - 256)) := by
  cases ks with
  | nil => cases ps with
    | nil => simp [lzwDecode, lzwEntries]
    | cons q ps => exact h.elim
  | cons k ks =>
    obtain ⟨done, prev, -, -, e⟩ := lzwDecode_append hc h hl []
    rw [List.append_nil] at e
    rw [e, lzwExpand]

/-! ### The encoder -/

/-- A string the dictionary finds is what its code stands for. -/
theorem codeStands_of_dictCode {cap : Nat} {done : List (List Byte)} {p : List Byte} {k : Nat}
    (hp : p ≠ []) (h : dictCode ((lzwEntries (done ++ [p])).take (cap - 256)) p = some k) :
    CodeStands cap done k p := by
  have general : ∀ d : Dict, ((d.findIdx? fun t => t == p).map fun i => 256 + i) = some k →
      256 ≤ k ∧ k - 256 < d.length ∧ d[k - 256]? = some p := by
    intro d hd
    obtain ⟨i, hi, rfl⟩ := Option.map_eq_some_iff.1 hd
    obtain ⟨hlt, hb, -⟩ := List.findIdx?_eq_some_iff_getElem.1 hi
    have : 256 + i - 256 = i := by omega
    rw [this]
    refine ⟨by omega, hlt, ?_⟩
    rw [List.getElem?_eq_getElem hlt]
    simpa using hb
  obtain ⟨b, l, rfl⟩ := List.exists_cons_of_ne_nil hp
  cases l with
  | nil =>
    rw [dictCode, Option.some.injEq] at h
    subst h
    exact .inl ⟨by have := b.isLt; omega, by simp⟩
  | cons a l =>
    simp only [dictCode] at h
    obtain ⟨h1, h2, h3⟩ := general _ h
    rw [List.length_take] at h2
    rw [List.getElem?_take_of_lt (by omega)] at h3
    exact .inr ⟨h1, by omega, h3⟩

/-- A string of two symbols or more that the dictionary does not find is no entry. -/
theorem not_mem_of_dictCode {d : Dict} {p : List Byte} (h : dictCode d p = none) : p ∉ d := by
  match p, h with
  | [], h =>
    intro hm
    simp only [dictCode, Option.map_eq_none_iff, List.findIdx?_eq_none_iff] at h
    simpa using h _ hm
  | a :: b :: l, h =>
    intro hm
    simp only [dictCode, Option.map_eq_none_iff, List.findIdx?_eq_none_iff] at h
    simpa using h _ hm

/-- LZW_ENC emits codes that stand for phrases of the input, each a match that could not be extended, and ends with the
entries of those phrases (R140). -/
theorem lzwScan_phrases {cap : Nat} (hc : 256 ≤ cap) (done : List (List Byte)) (s : List Byte) (hs : s ≠ []) (k : Nat)
    (hk : dictCode ((lzwEntries (done ++ [s])).take (cap - 256)) s = some k) (xs : List Byte) :
    ∃ p ps, (p :: ps).flatten = s ++ xs ∧ p.take 1 = s.take 1 ∧
      CodesStand cap done (lzwScan cap ((lzwEntries (done ++ [s])).take (cap - 256)) s k xs).1 (p :: ps) ∧
      PhrasesGreedy cap done (p :: ps) ∧
      (lzwScan cap ((lzwEntries (done ++ [s])).take (cap - 256)) s k xs).2 =
        (lzwEntries (done ++ p :: ps)).take (cap - 256) := by
  induction xs generalizing done s k with
  | nil =>
    have h0 := codeStands_of_dictCode (cap := cap) hs hk
    rw [lzwScan]
    refine ⟨s, [], by simp, rfl, ?_, ?_, ?_⟩
    · rw [CodesStand]; exact ⟨h0, True.intro⟩
    · rw [PhrasesGreedy]; exact True.intro
    · simp only
  | cons c xs ih =>
    rw [lzwScan]
    split
    · rename_i k' hk'
      have ht : (s ++ [c]).take 1 = s.take 1 := by
        obtain ⟨a, l, rfl⟩ := List.exists_cons_of_ne_nil hs
        simp
      have he := lzwEntries_last done ht
      rw [← he] at hk' ⊢
      obtain ⟨p, ps, h1, h2, h3, h4, h5⟩ := ih done (s ++ [c]) (by simp) k' hk'
      exact ⟨p, ps, by rw [h1]; simp, by rw [h2, ht], h3, h4, h5⟩
    · rename_i hn
      have hins := dictInsert_entries hc done s [c]
      have e4 : done ++ [s, [c]] = done ++ [s] ++ [[c]] := by simp
      simp only [List.take_one, List.head?_cons, Option.toList_some] at hins
      rw [e4] at hins
      simp only
      rw [hins]
      obtain ⟨p, ps, h1, h2, h3, h4, h5⟩ := ih (done ++ [s]) [c] (by simp) c.toNat (by simp [dictCode])
      have hh : p.take 1 = [c] := by simpa using h2
      refine ⟨s, p :: ps, by rw [List.flatten_cons, h1]; simp, rfl,
        ⟨codeStands_of_dictCode hs hk, h3⟩, ⟨?_, h4⟩, by rw [h5]; simp⟩
      rw [hh]
      exact not_mem_of_dictCode hn

theorem lzwCodes_phrases {cap : Nat} (hc : 256 ≤ cap) (x : List Byte) :
    ∃ ps, ps.flatten = x ∧ CodesStand cap [] (lzwCodes cap x).1 ps ∧ PhrasesGreedy cap [] ps ∧
      (lzwCodes cap x).2 = (lzwEntries ps).take (cap - 256) := by
  cases x with
  | nil => exact ⟨[], rfl, trivial, trivial, by simp [lzwCodes, lzwEntries]⟩
  | cons x xs =>
    have e0 : (lzwEntries ([] ++ [[x]])).take (cap - 256) = ([] : List (List Byte)) := by simp [lzwEntries]
    obtain ⟨p, ps, h1, h2, h3, h4, h5⟩ :=
      lzwScan_phrases hc [] [x] (by simp) x.toNat (by simp [dictCode]) xs
    rw [e0] at h3 h5
    exact ⟨p :: ps, h1, h3, h4, h5⟩

/-- Codes that stand for phrases are below the cap. -/
theorem CodesStand.lt_cap {cap : Nat} (hc : 256 ≤ cap) {done : List (List Byte)} {ks : List Nat}
    {ps : List (List Byte)} (h : CodesStand cap done ks ps) : ∀ k ∈ ks, k < cap := by
  induction ks generalizing done ps with
  | nil => simp
  | cons k ks ih => cases ps with
    | nil => exact h.elim
    | cons p ps =>
      intro a ha
      rcases List.mem_cons.1 ha with rfl | ha
      · exact h.1.lt_cap hc
      · exact ih h.2 a ha

theorem CodesStand.phrases_ne_nil {cap : Nat} {done : List (List Byte)} (hd : ∀ p ∈ done, p ≠ []) {ks : List Nat}
    {ps : List (List Byte)} (h : CodesStand cap done ks ps) : ∀ p ∈ ps, p ≠ [] := by
  induction ks generalizing done ps with
  | nil => cases ps with
    | nil => simp
    | cons p ps => exact h.elim
  | cons k ks ih => cases ps with
    | nil => exact h.elim
    | cons p ps =>
      have hp := h.1.ne_nil hd
      intro a ha
      rcases List.mem_cons.1 ha with rfl | ha
      · exact hp
      · refine ih (fun q hq => ?_) h.2 a ha
        rcases List.mem_append.1 hq with hq | hq
        · exact hd q hq
        · rw [List.mem_singleton.1 hq]; exact hp

/-- There are no more phrases than symbols. -/
theorem length_le_flatten {ps : List (List Byte)} (h : ∀ p ∈ ps, p ≠ []) : ps.length ≤ ps.flatten.length := by
  induction ps with
  | nil => simp
  | cons p ps ih =>
    have := List.length_pos_iff.2 (h p (by simp))
    have := ih fun q hq => h q (List.mem_cons_of_mem _ hq)
    simp only [List.flatten_cons, List.length_append, List.length_cons]
    omega

/-- The decoder's outputs fit OUT whenever it succeeds, its dictionary never passes the cap, and its errors are FORMAT
or CAPACITY in IN (R150). -/
theorem lzwExpand_cases {p : Params} {d : Dict} {prev out : List Byte} {j : Nat} (ho : out.length ≤ p.nOut)
    (ks : List Nat) :
    (∃ r, lzwExpand p d prev out j ks = .ok r ∧ r.1.length ≤ p.nOut) ∨
    (∃ n, lzwExpand p d prev out j ks = .error (inError .format n) ∨
      lzwExpand p d prev out j ks = .error (inError .capacity n)) := by
  induction ks generalizing d prev out j with
  | nil => exact .inl ⟨_, rfl, ho⟩
  | cons k ks ih =>
    rw [lzwExpand]
    split
    · exact .inr ⟨_, .inl rfl⟩
    · split
      · exact .inr ⟨_, .inl rfl⟩
      · split
        · exact .inr ⟨_, .inr rfl⟩
        · exact ih (by simp only [List.length_append]; omega)

theorem lzwDecode_cases {p : Params} (ho : 1 ≤ p.nOut) (ks : List Nat) :
    (∃ r, lzwDecode p ks = .ok r ∧ r.1.length ≤ p.nOut) ∨
    (∃ n, lzwDecode p ks = .error (inError .format n) ∨ lzwDecode p ks = .error (inError .capacity n)) := by
  cases ks with
  | nil => exact .inl ⟨_, rfl, by simp⟩
  | cons k ks =>
    rw [lzwDecode]
    split
    · exact .inr ⟨_, .inl rfl⟩
    · exact lzwExpand_cases (by simpa using ho) ks

end Sys2Proof.Machine
end

