-- ==== Sys2Proof/Laws/Rle.lean ====
section
/-! SUPPORT. What the loops of RLE_ENC and RLE_DEC compute (40_rle.md R121, R127, R128, R132). -/

namespace Sys2Proof.Machine

/-- The symbols a run list stands for (R121). -/
def runSymbols (runs : List Run) : List Byte := (runs.map fun r => List.replicate r.2 r.1).flatten

@[simp] theorem runSymbols_nil : runSymbols [] = [] := rfl

@[simp] theorem runSymbols_cons (r : Run) (runs : List Run) :
    runSymbols (r :: runs) = List.replicate r.2 r.1 ++ runSymbols runs := rfl

theorem runSymbols_append (a b : List Run) : runSymbols (a ++ b) = runSymbols a ++ runSymbols b := by
  simp [runSymbols]

/-- The first run of a scan has the symbol of the current run, and its runs reproduce the input (R121). -/
theorem rleScan_symbols (sym : Byte) (cnt : Nat) (xs : List Byte) :
    runSymbols (rleScan sym cnt xs) = List.replicate cnt sym ++ xs := by
  induction xs generalizing sym cnt with
  | nil => simp [rleScan]
  | cons x xs ih =>
    rw [rleScan]
    split
    · rename_i h
      subst h
      rw [ih, List.replicate_succ', List.append_assoc]
      rfl
    · rw [runSymbols_cons, ih]; rfl

theorem rleScan_counts {sym : Byte} {cnt : Nat} (hc : 1 ≤ cnt) (xs : List Byte) :
    ∀ r ∈ rleScan sym cnt xs, 1 ≤ r.2 := by
  induction xs generalizing sym cnt with
  | nil => simp [rleScan, hc]
  | cons x xs ih =>
    rw [rleScan]
    split
    · exact ih (by omega)
    · intro r hr
      rcases List.mem_cons.1 hr with rfl | hr
      · exact hc
      · exact ih (by omega) r hr

/-- A scan's first run has the current symbol. -/
theorem rleScan_head (sym : Byte) (cnt : Nat) (xs : List Byte) :
    ∃ n rest, rleScan sym cnt xs = (sym, n) :: rest := by
  induction xs generalizing cnt with
  | nil => exact ⟨cnt, [], rfl⟩
  | cons x xs ih =>
    rw [rleScan]
    split
    · exact ih (cnt + 1)
    · exact ⟨cnt, _, rfl⟩

/-- Adjacent runs never share a symbol (R121). -/
theorem rleScan_chain (sym : Byte) (cnt : Nat) (xs : List Byte) :
    (rleScan sym cnt xs).IsChain (fun a b => a.1 ≠ b.1) := by
  induction xs generalizing sym cnt with
  | nil => simp [rleScan]
  | cons x xs ih =>
    rw [rleScan]
    split
    · exact ih sym (cnt + 1)
    · rename_i h
      obtain ⟨n, rest, e⟩ := rleScan_head x 1 xs
      have := ih x 1
      rw [e] at this ⊢
      exact List.isChain_cons_cons.2 ⟨fun h' => h h'.symm, this⟩

theorem rleScan_length (sym : Byte) (cnt : Nat) (xs : List Byte) : (rleScan sym cnt xs).length ≤ 1 + xs.length := by
  induction xs generalizing sym cnt with
  | nil => simp [rleScan]
  | cons x xs ih =>
    rw [rleScan]
    split
    · have := ih sym (cnt + 1); simp only [List.length_cons]; omega
    · have := ih x 1; simp only [List.length_cons]; omega

theorem rleRuns_symbols (x : List Byte) : runSymbols (rleRuns x) = x := by
  cases x with
  | nil => rfl
  | cons x xs => simp [rleRuns, rleScan_symbols]

theorem rleRuns_counts (x : List Byte) : ∀ r ∈ rleRuns x, 1 ≤ r.2 := by
  cases x with
  | nil => simp [rleRuns]
  | cons x xs => exact rleScan_counts (by omega) xs

theorem rleRuns_chain (x : List Byte) : (rleRuns x).IsChain (fun a b => a.1 ≠ b.1) := by
  cases x with
  | nil => simp [rleRuns]
  | cons x xs => exact rleScan_chain x 1 xs

theorem rleRuns_length_le (x : List Byte) : (rleRuns x).length ≤ x.length := by
  cases x with
  | nil => simp [rleRuns]
  | cons x xs => have := rleScan_length x 1 xs; simp only [rleRuns, List.length_cons]; omega

/-- Equal symbols are one run (R124). -/
theorem rleScan_replicate (b : Byte) (n c : Nat) : rleScan b c (List.replicate n b) = [(b, c + n)] := by
  induction n generalizing c with
  | zero => rfl
  | succ n ih =>
    rw [List.replicate_succ, rleScan, if_pos rfl, ih]
    congr 2
    omega

/-- No count of a run list exceeds the number of symbols it stands for. -/
theorem count_le_length_runSymbols {runs : List Run} {r : Run} (h : r ∈ runs) : r.2 ≤ (runSymbols runs).length := by
  induction runs with
  | nil => simp at h
  | cons a runs ih =>
    rw [runSymbols_cons, List.length_append, List.length_replicate]
    rcases List.mem_cons.1 h with rfl | h
    · omega
    · have := ih h; omega

/-- RLE_DEC over records that are all runs and fit OUT (R127). -/
theorem rleExpand_append {nOut r : Nat} {out : List Byte} {pre : List Run} (hc : ∀ a ∈ pre, a.2 ≠ 0)
    (hl : (out ++ runSymbols pre).length ≤ nOut) (post : List Run) :
    rleExpand nOut r out (pre ++ post) = rleExpand nOut (r + pre.length) (out ++ runSymbols pre) post := by
  induction pre generalizing r out with
  | nil => simp
  | cons a pre ih =>
    have ha := hc a (by simp)
    simp only [runSymbols_cons, List.length_append, List.length_replicate] at hl
    rw [List.cons_append, rleExpand, if_neg ha, if_neg (by omega),
      ih (fun b hb => hc b (List.mem_cons_of_mem _ hb)) (by simp; omega)]
    simp only [List.length_cons, runSymbols_cons, List.append_assoc]
    congr 1
    omega

theorem rleExpand_ok {nOut r : Nat} {out : List Byte} {runs : List Run} (hc : ∀ a ∈ runs, a.2 ≠ 0)
    (hl : (out ++ runSymbols runs).length ≤ nOut) : rleExpand nOut r out runs = .ok (out ++ runSymbols runs) := by
  have := rleExpand_append (r := r) hc hl []
  rw [List.append_nil] at this
  rw [this, rleExpand]

/-- What RLE_DEC has put out when it succeeds is no longer than OUT, and its errors are FORMAT or CAPACITY in IN. -/
theorem rleExpand_cases {nOut r : Nat} {out : List Byte} (ho : out.length ≤ nOut) (runs : List Run) :
    (∃ o, rleExpand nOut r out runs = .ok o ∧ o.length ≤ nOut) ∨
    (∃ n, rleExpand nOut r out runs = .error (inError .format n) ∨
      rleExpand nOut r out runs = .error (inError .capacity n)) := by
  induction runs generalizing r out with
  | nil => exact .inl ⟨out, rfl, ho⟩
  | cons a runs ih =>
    rw [rleExpand]
    split
    · exact .inr ⟨_, .inl rfl⟩
    · split
      · exact .inr ⟨_, .inr rfl⟩
      · exact ih (by simp; omega)

end Sys2Proof.Machine
end

