-- ==== Sys2Proof/Laws/StaticFreq.lean ====
section
/-! SUPPORT. What the ranking, the codewords and the bit string of SF_ENC are (42_static_frequency.md R161 to R165;
30_encoding.md R103, R104). -/

namespace Sys2Proof.Machine

/-! ### The ranking -/

theorem rankInsert_perm (a : Ranked) (l : List Ranked) : (rankInsert a l).Perm (a :: l) := by
  induction l with
  | nil => exact .refl _
  | cons b l ih =>
    rw [rankInsert]
    split
    · exact .refl _
    · exact (ih.cons b).trans (.swap a b l)

theorem rankSort_perm (l : List Ranked) : (rankSort l).Perm l := by
  induction l with
  | nil => exact .refl _
  | cons a l ih => exact (rankInsert_perm a _).trans (ih.cons a)

/-- The rank order as a proposition (R161). -/
theorem rankedBefore_iff (a b : Ranked) :
    rankedBefore a b = true ↔ a.1 < b.1 ∨ (a.1 = b.1 ∧ a.2.toNat ≤ b.2.toNat) := by
  simp [rankedBefore]

theorem rankInsert_sorted {a : Ranked} {l : List Ranked} (h : l.Pairwise (fun a b => rankedBefore a b = true)) :
    (rankInsert a l).Pairwise (fun a b => rankedBefore a b = true) := by
  induction l with
  | nil => simp [rankInsert]
  | cons b l ih =>
    rw [List.pairwise_cons] at h
    rw [rankInsert]
    split
    · rename_i hab
      refine List.pairwise_cons.2 ⟨fun c hc => ?_, List.pairwise_cons.2 h⟩
      rcases List.mem_cons.1 hc with rfl | hc
      · exact hab
      · have hbc := h.1 c hc
        rw [rankedBefore_iff] at *
        omega
    · rename_i hab
      refine List.pairwise_cons.2 ⟨fun c hc => ?_, ih h.2⟩
      rcases List.mem_cons.1 ((rankInsert_perm a l).subset hc) with rfl | hc
      · rw [rankedBefore_iff] at *
        omega
      · exact h.1 c hc

theorem rankSort_sorted (l : List Ranked) : (rankSort l).Pairwise (fun a b => rankedBefore a b = true) := by
  induction l with
  | nil => exact .nil
  | cons a l ih => exact rankInsert_sorted ih

/-- The distinct symbols are those that occur, each with its count (R160). -/
theorem mem_sfFrequencies (x : List Byte) (a : Ranked) :
    a ∈ sfFrequencies x ↔ a.1 = x.count a.2 ∧ a.2 ∈ x := by
  simp only [sfFrequencies, List.mem_filter, List.mem_map, List.mem_range, decide_eq_true_eq]
  constructor
  · rintro ⟨⟨b, -, rfl⟩, h⟩
    exact ⟨rfl, List.count_pos_iff.1 h⟩
  · rintro ⟨h1, h2⟩
    refine ⟨⟨a.2.toNat, by have := a.2.isLt; omega, ?_⟩, by rw [h1]; exact List.count_pos_iff.2 h2⟩
    simp [← h1]

theorem sfFrequencies_nodup (x : List Byte) : ((sfFrequencies x).map fun a => a.2).Nodup := by
  have h : (((List.range 256).map fun b => (x.count (BitVec.ofNat 8 b), BitVec.ofNat 8 b)).map
      fun a : Ranked => a.2).Nodup := by
    rw [List.map_map]
    refine List.Nodup.map_on ?_ List.nodup_range
    intro a ha b hb hab
    have := congrArg BitVec.toNat hab
    simp only [List.mem_range] at ha hb
    simpa [BitVec.toNat_ofNat, Nat.mod_eq_of_lt ha, Nat.mod_eq_of_lt hb] using this
  exact h.sublist (List.filter_sublist.map _)

theorem sfFrequencies_length_le (x : List Byte) : (sfFrequencies x).length ≤ 256 := by
  have := List.length_filter_le (fun a : Ranked => decide (0 < a.1))
    ((List.range 256).map fun b => (x.count (BitVec.ofNat 8 b), BitVec.ofNat 8 b))
  simpa [sfFrequencies] using this

theorem mem_sfRanks (x : List Byte) (a : Ranked) : a ∈ sfRanks x ↔ a.1 = x.count a.2 ∧ a.2 ∈ x := by
  rw [sfRanks, (rankSort_perm _).mem_iff, mem_sfFrequencies]

theorem sfRanks_nodup (x : List Byte) : ((sfRanks x).map fun a => a.2).Nodup :=
  ((rankSort_perm (sfFrequencies x)).map _).nodup_iff.2 (sfFrequencies_nodup x)

theorem sfRanks_length_le (x : List Byte) : (sfRanks x).length ≤ 256 := by
  rw [sfRanks, (rankSort_perm _).length_eq]
  exact sfFrequencies_length_le x

theorem sfRanks_length_pos {x : List Byte} (h : x ≠ []) : 1 ≤ (sfRanks x).length := by
  obtain ⟨b, l, rfl⟩ := List.exists_cons_of_ne_nil h
  have : ((b :: l).count b, b) ∈ sfRanks (b :: l) := (mem_sfRanks _ _).2 ⟨rfl, by simp⟩
  exact List.length_pos_of_mem this

theorem sfRanks_sorted (x : List Byte) : (sfRanks x).Pairwise (fun a b => rankedBefore a b = true) :=
  rankSort_sorted _

/-- The codeword of the symbol of rank `r` (R162). -/
theorem sfCodeOf_rank {x : List Byte} {r : Nat} {a : Ranked} (h : (sfRanks x)[r]? = some a) :
    sfCodeOf (sfRanks x) a.2 = sfCode (sfRanks x).length r := by
  obtain ⟨hr, e⟩ := List.getElem?_eq_some_iff.1 h
  rw [sfCodeOf]
  congr 1
  have hlt : (sfRanks x).findIdx (fun b => b.2 == a.2) < (sfRanks x).length :=
    List.findIdx_lt_length_of_exists ⟨a, List.mem_of_getElem? h, by simp⟩
  have hg := List.findIdx_getElem (w := hlt)
  have hn := (List.nodup_iff_injective_get.1 (sfRanks_nodup x))
  have e1 : ((sfRanks x)[(sfRanks x).findIdx (fun b => b.2 == a.2)]).2 = a.2 := by simpa using hg
  have := @hn ⟨(sfRanks x).findIdx (fun b => b.2 == a.2), by simpa using hlt⟩ ⟨r, by simpa using hr⟩ (by
    simp [e1, e])
  simpa using this

/-! ### Widths and codewords -/

/-- The width is the least one that holds `k` codewords (R162). -/
theorem sfWidth_spec {k : Nat} (h1 : 1 ≤ k) (h2 : k ≤ 256) :
    k ≤ 2 ^ sfWidth k ∧ (∀ w, 1 ≤ w → k ≤ 2 ^ w → sfWidth k ≤ w) ∧ 1 ≤ sfWidth k ∧ sfWidth k ≤ 8 := by
  have mono : ∀ {n w : Nat}, 2 ^ n < k → k ≤ 2 ^ w → n + 1 ≤ w := by
    intro n w hn hw
    exact (Nat.pow_lt_pow_iff_right (by omega)).1 (Nat.lt_of_lt_of_le hn hw)
  unfold sfWidth
  split_ifs <;> refine ⟨by omega, fun w hw hk => ?_, by omega, by omega⟩
  · exact hw
  · exact mono (n := 1) (by omega) hk
  · exact mono (n := 2) (by omega) hk
  · exact mono (n := 3) (by omega) hk
  · exact mono (n := 4) (by omega) hk
  · exact mono (n := 5) (by omega) hk
  · exact mono (n := 6) (by omega) hk
  · exact mono (n := 7) (by omega) hk

theorem codewordBits_length (w code : Nat) : (codewordBits w code).length = w := by simp [codewordBits]

/-- The bit string has `n * W` bits (R163, R164, R169). -/
theorem sfBits_length (ranks : List Ranked) (x : List Byte) :
    (sfBits ranks x).length = x.length * sfWidth ranks.length := by
  induction x with
  | nil => simp [sfBits]
  | cons b x ih =>
    simp only [sfBits, List.map_cons, List.flatten_cons, List.length_append, codewordBits_length, List.length_cons]
      at ih ⊢
    rw [ih, Nat.add_mul]
    omega

/-- Bit `t` of the codeword of symbol `i` stands at place `i * W + t` of the bit string (R160). -/
theorem sfBits_getElem? {ranks : List Ranked} {x : List Byte} {i t : Nat} {b : Byte} (hi : x[i]? = some b)
    (ht : t < sfWidth ranks.length) :
    (sfBits ranks x)[i * sfWidth ranks.length + t]? =
      some ((sfCodeOf ranks b).testBit (sfWidth ranks.length - 1 - t)) := by
  induction x generalizing i with
  | nil => simp at hi
  | cons c x ih =>
    simp only [sfBits, List.map_cons, List.flatten_cons] at ih ⊢
    cases i with
    | zero =>
      simp only [List.getElem?_cons_zero, Option.some.injEq] at hi
      subst hi
      rw [Nat.zero_mul, Nat.zero_add, List.getElem?_append_left (by rw [codewordBits_length]; exact ht)]
      simp [codewordBits, ht]
    | succ i =>
      rw [List.getElem?_cons_succ] at hi
      rw [List.getElem?_append_right (by rw [codewordBits_length, Nat.add_mul]; omega), codewordBits_length,
        ← ih hi]
      congr 1
      rw [Nat.add_mul]
      omega

/-! ### Packing -/

theorem packBits_length (bits : List Bool) : (packBits bits).length = ceilDiv bits.length 8 := by simp [packBits]

/-- A packed byte's bits, most significant first, missing ones 0 (R103). -/
theorem packByte_getLsbD (bits : List Bool) {t : Nat} (ht : t < 8) :
    (packByte bits).getLsbD (7 - t) = bits.getD t false := by
  have key : ∀ b0 b1 b2 b3 b4 b5 b6 b7 : Bool, ∀ t, t < 8 →
      (BitVec.ofNat 8 (b0.toNat * 128 + (b1.toNat * 64 + (b2.toNat * 32 + (b3.toNat * 16 + (b4.toNat * 8 +
        (b5.toNat * 4 + (b6.toNat * 2 + (b7.toNat * 1 + 0))))))))).getLsbD (7 - t) =
      [b0, b1, b2, b3, b4, b5, b6, b7].getD t false := by decide
  have e : (List.range 8).map (fun j => (bits.getD j false).toNat * 2 ^ (7 - j)) =
      [(bits.getD 0 false).toNat * 128, (bits.getD 1 false).toNat * 64, (bits.getD 2 false).toNat * 32,
        (bits.getD 3 false).toNat * 16, (bits.getD 4 false).toNat * 8, (bits.getD 5 false).toNat * 4,
        (bits.getD 6 false).toNat * 2, (bits.getD 7 false).toNat * 1] := rfl
  rw [packByte, e]
  simp only [List.sum_cons, List.sum_nil]
  rw [key _ _ _ _ _ _ _ _ t ht]
  match t, ht with
  | 0, _ | 1, _ | 2, _ | 3, _ | 4, _ | 5, _ | 6, _ | 7, _ => rfl

/-- Bit `j` of a bit string is bit `7 - j mod 8` of byte `j / 8` of the packed string (R103). -/
theorem packBits_bit (bits : List Bool) {j : Nat} (hj : j < 8 * ceilDiv bits.length 8) :
    ∃ b, (packBits bits)[j / 8]? = some b ∧ b.getLsbD (7 - j % 8) = bits.getD j false := by
  refine ⟨packByte (bits.drop (8 * (j / 8))), ?_, ?_⟩
  · simp only [packBits, List.getElem?_map]
    rw [List.getElem?_range (by omega)]
    rfl
  · rw [packByte_getLsbD _ (by omega), List.getD_eq_getElem?_getD, List.getD_eq_getElem?_getD, List.getElem?_drop]
    congr 2
    omega

theorem tabEntry_length (sym : Byte) (code width freq : Nat) : (tabEntry sym code width freq).length = 8 := by
  simp [tabEntry]

theorem sfTab_length (ranks : List Ranked) : (sfTab ranks).length = 8 * ranks.length := by
  have key : ∀ l : List Ranked,
      (l.map fun a => tabEntry a.2 (sfCodeOf ranks a.2) (sfWidth ranks.length) a.1).flatten.length = 8 * l.length := by
    intro l
    induction l with
    | nil => rfl
    | cons a l ih =>
      simp only [List.map_cons, List.flatten_cons, List.length_append, ih, tabEntry_length, List.length_cons]
      omega
  exact key ranks

/-- The packed output is no longer than the input (R164). -/
theorem sfOut_length_le {x : List Byte} (h : x ≠ []) : (packBits (sfBits (sfRanks x) x)).length ≤ x.length := by
  have := (sfWidth_spec (sfRanks_length_pos h) (sfRanks_length_le x)).2.2.2
  rw [packBits_length, sfBits_length, ceilDiv]
  have : x.length * sfWidth (sfRanks x).length ≤ x.length * 8 := Nat.mul_le_mul_left _ this
  omega

end Sys2Proof.Machine
end

