-- ==== Sys2Proof/Laws/Memory.lean ====
section
/-! SUPPORT. The laws of memory: a read after a write, what a write and a forget leave alone, and that every operation
keeps the canonical form. -/

namespace Sys2Proof.Machine

/-- The canonical form as Mathlib states it. -/
theorem Memory.wf_iff_pairwise (m : Memory) : m.wf = true ↔ m.Pairwise (fun c d => c.1 < d.1) := by
  induction m with
  | nil => simp [Memory.wf]
  | cons c m ih =>
    cases m with
    | nil => simp [Memory.wf]
    | cons d m =>
      rw [Memory.wf, Bool.and_eq_true, ih, List.pairwise_cons (a := c)]
      simp only [decide_eq_true_eq]
      constructor
      · rintro ⟨hcd, hp⟩
        refine ⟨fun e he => ?_, hp⟩
        rcases List.mem_cons.1 he with rfl | he
        · exact hcd
        · exact Nat.lt_trans hcd (List.rel_of_pairwise_cons hp he)
      · rintro ⟨hc, hp⟩
        exact ⟨hc d (by simp), hp⟩

@[simp] theorem Memory.get_nil (a : Nat) : Memory.get [] a = none := rfl

theorem Memory.get_cons (c : Host.Cell) (m : Memory) (a : Nat) :
    Memory.get (c :: m) a = if c.1 = a then some c.2 else Memory.get m a := rfl

/-- A listed address has a cell. -/
theorem Memory.mem_of_get {m : Memory} {a : Nat} {v : Byte} (h : m.get a = some v) : (a, v) ∈ m := by
  induction m with
  | nil => simp at h
  | cons c m ih =>
    rw [Memory.get_cons] at h
    split at h
    · rename_i hc
      cases h
      exact List.mem_cons.2 (.inl (by rw [← hc]))
    · exact List.mem_cons_of_mem _ (ih h)

/-- A read after one write. -/
theorem Memory.get_set (m : Memory) (a b : Nat) (v : Byte) :
    (m.set a v).get b = if b = a then some v else m.get b := by
  induction m with
  | nil =>
    simp only [Memory.set, Memory.get_cons, Memory.get_nil]
    by_cases h : a = b <;> simp [h, eq_comm]
  | cons c m ih =>
    rw [Memory.set]
    split
    · simp only [Memory.get_cons]
      by_cases h : a = b <;> simp [h, eq_comm]
    · split
      · rename_i h
        subst h
        simp only [Memory.get_cons]
        by_cases hb : c.1 = b
        · simp [hb]
        · have : b ≠ c.1 := fun e => hb e.symm
          simp [hb, this]
      · rename_i h1 h2
        simp only [Memory.get_cons, ih]
        by_cases hb : c.1 = b
        · have : b ≠ a := by omega
          simp [hb, this]
        · simp [hb]

/-- A write adds no address but its own. -/
theorem Memory.mem_set {m : Memory} {a : Nat} {v : Byte} {c : Host.Cell} (h : c ∈ m.set a v) :
    c = (a, v) ∨ c ∈ m := by
  induction m with
  | nil => simpa [Memory.set] using h
  | cons d m ih =>
    rw [Memory.set] at h
    split at h
    · simpa using h
    · split at h
      · rcases List.mem_cons.1 h with h | h
        · exact .inl h
        · exact .inr (List.mem_cons_of_mem _ h)
      · rcases List.mem_cons.1 h with h | h
        · exact .inr (by simp [h])
        · rcases ih h with h | h
          · exact .inl h
          · exact .inr (List.mem_cons_of_mem _ h)

/-- A write keeps the canonical form. -/
theorem Memory.wf_set {m : Memory} (h : m.wf = true) (a : Nat) (v : Byte) : (m.set a v).wf = true := by
  rw [Memory.wf_iff_pairwise] at h ⊢
  induction m with
  | nil => simp [Memory.set]
  | cons c m ih =>
    rw [List.pairwise_cons] at h
    rw [Memory.set]
    split
    · rename_i hac
      refine List.pairwise_cons.2 ⟨fun e he => ?_, List.pairwise_cons.2 h⟩
      rcases List.mem_cons.1 he with rfl | he
      · exact hac
      · exact Nat.lt_trans hac (h.1 e he)
    · split
      · rename_i hac
        exact List.pairwise_cons.2 ⟨fun e he => by rw [hac]; exact h.1 e he, h.2⟩
      · rename_i h1 h2
        refine List.pairwise_cons.2 ⟨fun e he => ?_, ih h.2⟩
        rcases Memory.mem_set he with rfl | he
        · show c.1 < a
          omega
        · exact h.1 e he

/-- A read after a byte string has been stored. -/
theorem Memory.get_setBytes (m : Memory) (a b : Nat) (bs : List Byte) :
    (m.setBytes a bs).get b = if a ≤ b ∧ b < a + bs.length then bs[b - a]? else m.get b := by
  induction bs generalizing m a with
  | nil =>
    simp [Memory.setBytes]
  | cons v bs ih =>
    rw [Memory.setBytes, ih, Memory.get_set]
    by_cases hb : b = a
    · subst hb
      have h1 : ¬ (b + 1 ≤ b ∧ b < b + 1 + bs.length) := by omega
      simp
    · by_cases h : a + 1 ≤ b ∧ b < a + 1 + bs.length
      · have h' : a ≤ b ∧ b < a + (v :: bs).length := by simp only [List.length_cons]; omega
        have e : b - a = (b - (a + 1)) + 1 := by omega
        rw [if_pos h, if_pos h', e, List.getElem?_cons_succ]
      · have h' : ¬ (a ≤ b ∧ b < a + (v :: bs).length) := by simp only [List.length_cons]; omega
        rw [if_neg h, if_neg h', if_neg hb]

theorem Memory.wf_setBytes {m : Memory} (h : m.wf = true) (a : Nat) (bs : List Byte) :
    (m.setBytes a bs).wf = true := by
  induction bs generalizing m a with
  | nil => exact h
  | cons v bs ih => exact ih (Memory.wf_set h a v) (a + 1)

/-- A read after a range has been forgotten. -/
theorem Memory.get_forget (m : Memory) (a size b : Nat) :
    (m.forget a size).get b = if a ≤ b ∧ b < a + size then none else m.get b := by
  induction m with
  | nil => simp [Memory.forget]
  | cons c m ih =>
    rw [Memory.forget, List.filter_cons]
    change Memory.get (if _ then c :: Memory.forget m a size else Memory.forget m a size) b = _
    by_cases hc : a ≤ c.1 ∧ c.1 < a + size
    · have : (!(decide (a ≤ c.1) && decide (c.1 < a + size))) = false := by simp [hc]
      rw [this]
      simp only [Bool.false_eq_true, if_false, ih, Memory.get_cons]
      by_cases hb : a ≤ b ∧ b < a + size
      · simp [hb]
      · have : c.1 ≠ b := fun e => hb (e ▸ hc)
        simp [this]
    · have : (!(decide (a ≤ c.1) && decide (c.1 < a + size))) = true := by
        rw [Bool.not_eq_true', ← Bool.not_eq_true]
        simpa using hc
      rw [this]
      simp only [if_true, ih, Memory.get_cons]
      by_cases hb : a ≤ b ∧ b < a + size
      · have : c.1 ≠ b := fun e => hc (e ▸ hb)
        simp [this, hb]
      · simp [hb]

theorem Memory.wf_forget {m : Memory} (h : m.wf = true) (a size : Nat) : (m.forget a size).wf = true := by
  rw [Memory.wf_iff_pairwise] at h ⊢
  exact h.filter _

/-- A read after OUT and TAB have become unspecified. -/
theorem Memory.get_forgetOutputs (m : Memory) (b : Nat) :
    m.forgetOutputs.get b =
      if (0x3000000 ≤ b ∧ b < 0x4000000) ∨ (0x1000 ≤ b ∧ b < 0x1800) then none else m.get b := by
  simp only [Memory.forgetOutputs, Memory.get_forget, Buffer.base, outSpan]
  split_ifs <;> first | rfl | (exfalso; omega)

theorem Memory.forgetOutputs_out (m : Memory) {j : Nat} (h : j < 0x1000000) :
    m.forgetOutputs.get (Buffer.out.base + j) = none := by
  have : Buffer.out.base = 0x3000000 := rfl
  rw [Memory.get_forgetOutputs, if_pos (by omega)]

theorem Memory.forgetOutputs_tab (m : Memory) {j : Nat} (h : j < 2048) :
    m.forgetOutputs.get (Buffer.tab.base + j) = none := by
  have : Buffer.tab.base = 0x1000 := rfl
  rw [Memory.get_forgetOutputs, if_pos (by omega)]

theorem Memory.wf_forgetOutputs {m : Memory} (h : m.wf = true) : m.forgetOutputs.wf = true :=
  Memory.wf_forget (Memory.wf_forget h _ _) _ _

end Sys2Proof.Machine
end

