-- ==== Sys2Proof/Laws/Ops.lean ====
section
/-! SUPPORT. One lemma for each shared operation, saying once what it does: the two completions, the eager checks, the
snapshot (60_exceptions.md R210, R213, R215; 20_memory.md R78). -/

namespace Sys2Proof.Machine

/-- Forgetting the outputs touches no byte outside them, and defines none inside. -/
theorem Memory.forgetOutputs_outside (m : Memory) {a : Nat} (h : OutsideOutputs a) :
    m.forgetOutputs.get a = m.get a := by
  simp only [OutsideOutputs, Buffer.base, outSpan] at h
  rw [Memory.get_forgetOutputs, if_neg (by omega)]

theorem Memory.forgetOutputs_inside (m : Memory) {a : Nat} (h : ¬ OutsideOutputs a) :
    m.forgetOutputs.get a = none := by
  simp only [OutsideOutputs, Buffer.base, outSpan] at h
  rw [Memory.get_forgetOutputs, if_pos (by omega)]

/-- What a successful completion does (R210). -/
theorem succeed_succeeded {s : State} (hs : s.cfg.Legal) (r : CmdResult) (ho : r.out.length ≤ s.cfg.nOut)
    (ht : r.tab.length ≤ 2048) : Succeeded s (succeed r s) r.regs r.collapsed r.out r.tab where
  idle := rfl
  status := rfl
  res := rfl
  outBytes j hj := by
    have hj : j < s.cfg.nOut := hj
    have := hs.nOut_le
    simp only [succeed, Memory.get_setBytes, Memory.get_forgetOutputs, Buffer.base]
    by_cases h : j < r.out.length
    · rw [if_pos (by omega), Nat.add_sub_cancel_left]
    · rw [if_neg (by omega), if_neg (by omega), if_pos (by omega)]
      exact (List.getElem?_eq_none (by omega)).symm
  tabBytes j hj := by
    simp only [succeed, Memory.get_setBytes, Memory.get_forgetOutputs, Buffer.base]
    by_cases h : j < r.tab.length
    · rw [if_neg (by omega), if_pos (by omega), Nat.add_sub_cancel_left]
    · rw [if_neg (by omega), if_neg (by omega), if_pos (by omega)]
      exact (List.getElem?_eq_none (by omega)).symm
  frame :=
    { cfg := rfl, irqEn := rfl, cmd := rfl, inLen := rfl, auxLen := rfl, dropped := rfl, host := rfl, answer := rfl
      turns := rfl, draws := rfl, powerUp := rfl
      mem := fun a ha => by
        have := hs.nOut_le
        simp only [OutsideOutputs, Buffer.base, outSpan] at ha
        simp only [succeed, Memory.get_setBytes, Memory.get_forgetOutputs, Buffer.base]
        rw [if_neg (by omega), if_neg (by omega), if_neg (by omega)] }

/-- What an error completion does (R213). -/
theorem raiseError_failed {s : State} (hs : s.cfg.Legal) (e : CmdError) :
    Failed s (raiseError e s) e.code e.pos e.auxBuf where
  idle := rfl
  status := rfl
  res := rfl
  outBytes j hj := by
    have hj : j < s.cfg.nOut := hj
    have := hs.nOut_le
    simp only [raiseError, Memory.get_forgetOutputs, Buffer.base]
    rw [if_pos (by omega)]; rfl
  tabBytes j hj := by
    simp only [raiseError, Memory.get_forgetOutputs, Buffer.base]
    rw [if_pos (by omega)]; rfl
  frame :=
    { cfg := rfl, irqEn := rfl, cmd := rfl, inLen := rfl, auxLen := rfl, dropped := rfl, host := rfl, answer := rfl
      turns := rfl, draws := rfl, powerUp := rfl
      mem := fun a ha => by
        simp only [OutsideOutputs, Buffer.base, outSpan] at ha
        simp only [raiseError, Memory.get_forgetOutputs]
        rw [if_neg (by omega)] }

/-- A completion is one of the two (R97). -/
theorem finish_cases (r : CmdOutcome) (s : State) :
    (∃ res, r = .ok res ∧ finish r s = succeed res s) ∨ (∃ e, r = .error e ∧ finish r s = raiseError e s) := by
  cases r with
  | ok res => exact .inl ⟨res, rfl, rfl⟩
  | error e => exact .inr ⟨e, rfl, rfl⟩

/-- Every command is one completion of one outcome, which depends on the parameters and the snapshot alone (R78,
R97). -/
theorem exec_eq_finish (i : Instr) : ∃ f : Params → Snapshot → CmdOutcome,
    ∀ s, exec i s = .next (finish (f s.cfg s.snapshot) s) := by
  cases i
  · exact ⟨runRleEnc, fun _ => rfl⟩
  · exact ⟨runRleDec, fun _ => rfl⟩
  · exact ⟨runLzwEnc, fun _ => rfl⟩
  · exact ⟨runLzwDec, fun _ => rfl⟩
  · exact ⟨runSfEnc, fun _ => rfl⟩
  · exact ⟨runArEnc, fun _ => rfl⟩

/-- The eager checks pass on an input that is there, fits, and is a whole number of records (R215). -/
theorem afterEager_pass {s : State} {x : List Byte} (hx : InputIs s x) {unit : Nat} (hu : x.length % unit = 0)
    (body : CmdOutcome) : afterEager s.cfg s.snapshot false unit body = body := by
  have h1 := hx.nonempty
  have h2 := hx.fits
  have h3 := hx.len
  rw [afterEager, eagerError, h3, if_neg (by omega), if_neg (by omega)]
  simp [hu]

/-- The eager checks of AR_ENC pass on a message and a specification that are there and fit (R215). -/
theorem afterEager_pass_aux {s : State} {x y : List Byte} (hx : InputIs s x) (hy : AuxIs s y) (body : CmdOutcome) :
    afterEager s.cfg s.snapshot true 1 body = body := by
  have h1 := hx.nonempty
  have h2 := hx.fits
  have h4 := hy.nonempty
  have h5 := hy.fits
  rw [afterEager, eagerError, hx.len, hy.len, if_neg (by omega), if_neg (by omega)]
  have e1 : (true && decide (y.length = 0)) = false := by simp; intro h; subst h; simp at h4
  have e2 : (true && decide (s.cfg.nAux < y.length)) = false := by simp; omega
  rw [e1, e2]
  simp [Nat.mod_one]

/-- What the body of a command needs to know when the eager checks pass (R215). -/
theorem afterEager_cases (p : Params) (snap : Snapshot) (usesAux : Bool) (unit : Nat) (body : CmdOutcome) :
    (∃ e, afterEager p snap usesAux unit body = .error e ∧ e.pos = 0 ∧
      (e.code = .emptyInput ∨ e.code = .capacity ∨ (e.code = .format ∧ e.auxBuf = false))) ∨
    (afterEager p snap usesAux unit body = body ∧ 1 ≤ snap.inLen.toNat ∧ snap.inLen.toNat ≤ p.nIn ∧
      snap.inLen.toNat % unit = 0 ∧
      (usesAux = true → 1 ≤ snap.auxLen.toNat ∧ snap.auxLen.toNat ≤ p.nAux)) := by
  simp only [afterEager, eagerError, inError, auxError]
  by_cases h1 : snap.inLen.toNat = 0
  · left; simp [h1]
  by_cases h2 : p.nIn < snap.inLen.toNat
  · left; simp [h1, h2]
  by_cases h3 : usesAux = true ∧ snap.auxLen.toNat = 0
  · left; simp [h1, h2, h3.1, h3.2]
  by_cases h4 : usesAux = true ∧ p.nAux < snap.auxLen.toNat
  · left
    have : snap.auxLen.toNat ≠ 0 := by omega
    simp only [h1, h2, h4.1, h4.2, this]; simp
  have e3 : (usesAux && decide (snap.auxLen.toNat = 0)) = false := by
    rw [← Bool.not_eq_true]; simpa using h3
  have e4 : (usesAux && decide (p.nAux < snap.auxLen.toNat)) = false := by
    rw [← Bool.not_eq_true]; simpa using h4
  rw [e3, e4]
  by_cases h5 : snap.inLen.toNat % unit = 0
  · right
    refine ⟨by simp [h1, h2, h5], by omega, by omega, h5, fun hu => ?_⟩
    simp only [hu, true_and] at h3 h4
    omega
  · left; simp [h1, h2, h5]

/-- The bytes of a snapshot (R78, R85, R95). -/
theorem snapBytes_length (s : State) (b : Buffer) (len : Nat) :
    (snapBytes s b len).length = if len ≤ b.size s.cfg then len else 0 := by
  unfold snapBytes; split <;> simp

theorem snapBytes_getElem? {s : State} {b : Buffer} {len j : Nat} (hl : len ≤ b.size s.cfg) (hj : j < len) :
    (snapBytes s b len)[j]? = some ((s.mem.get (b.base + j)).getD (Config.inputByte s.draws (b.base + j))) := by
  simp [snapBytes, hl, hj]

theorem snapBytes_matches (s : State) (b : Buffer) (len : Nat) : SnapMatches s b len (snapBytes s b len) := by
  refine ⟨snapBytes_length s b len, fun j v hj hv => ?_⟩
  rw [snapBytes_length] at hj
  split at hj
  · rename_i hl; rw [snapBytes_getElem? hl hj, hv]; rfl
  · omega

end Sys2Proof.Machine
end

