-- ==== Sys2Proof/Laws/State.lean ====
section
/-! SUPPORT. What each update of the state does to each field, by `rfl`, and what it does to BUSY (10_state.md R22). -/

namespace Sys2Proof.Machine

/-! ### After launch -/

@[simp] theorem launch_cfg (v : Word) (s : State) : (launch v s).cfg = s.cfg := rfl
@[simp] theorem launch_irqEn (v : Word) (s : State) : (launch v s).irqEn = s.irqEn := rfl
@[simp] theorem launch_cmd (v : Word) (s : State) : (launch v s).cmd = v := rfl
@[simp] theorem launch_status (v : Word) (s : State) : (launch v s).status = s.status.launched := rfl
@[simp] theorem launch_inLen (v : Word) (s : State) : (launch v s).inLen = s.inLen := rfl
@[simp] theorem launch_auxLen (v : Word) (s : State) : (launch v s).auxLen = s.auxLen := rfl
@[simp] theorem launch_res (v : Word) (s : State) : (launch v s).res = .zero := rfl
@[simp] theorem launch_phase (v : Word) (s : State) : (launch v s).phase = .busy (takeSnapshot s) := rfl
@[simp] theorem launch_mem (v : Word) (s : State) : (launch v s).mem = s.mem.forgetOutputs := rfl
@[simp] theorem launch_host (v : Word) (s : State) : (launch v s).host = s.host := rfl
@[simp] theorem launch_answer (v : Word) (s : State) : (launch v s).answer = s.answer := rfl
@[simp] theorem launch_turns (v : Word) (s : State) : (launch v s).turns = s.turns := rfl
@[simp] theorem launch_draws (v : Word) (s : State) : (launch v s).draws = s.draws + 1 := rfl
@[simp] theorem launch_powerUp (v : Word) (s : State) : (launch v s).powerUp = s.powerUp := rfl

/-! ### After a successful completion -/

@[simp] theorem succeed_cfg (r : CmdResult) (s : State) : (succeed r s).cfg = s.cfg := rfl
@[simp] theorem succeed_irqEn (r : CmdResult) (s : State) : (succeed r s).irqEn = s.irqEn := rfl
@[simp] theorem succeed_cmd (r : CmdResult) (s : State) : (succeed r s).cmd = s.cmd := rfl
@[simp] theorem succeed_status (r : CmdResult) (s : State) :
    (succeed r s).status = s.status.succeeded r.collapsed := rfl
@[simp] theorem succeed_inLen (r : CmdResult) (s : State) : (succeed r s).inLen = s.inLen := rfl
@[simp] theorem succeed_auxLen (r : CmdResult) (s : State) : (succeed r s).auxLen = s.auxLen := rfl
@[simp] theorem succeed_res (r : CmdResult) (s : State) : (succeed r s).res = r.regs := rfl
@[simp] theorem succeed_phase (r : CmdResult) (s : State) : (succeed r s).phase = .idle := rfl
@[simp] theorem succeed_mem (r : CmdResult) (s : State) :
    (succeed r s).mem = (s.mem.forgetOutputs.setBytes Buffer.tab.base r.tab).setBytes Buffer.out.base r.out := rfl
@[simp] theorem succeed_host (r : CmdResult) (s : State) : (succeed r s).host = s.host := rfl
@[simp] theorem succeed_answer (r : CmdResult) (s : State) : (succeed r s).answer = s.answer := rfl
@[simp] theorem succeed_turns (r : CmdResult) (s : State) : (succeed r s).turns = s.turns := rfl
@[simp] theorem succeed_draws (r : CmdResult) (s : State) : (succeed r s).draws = s.draws := rfl
@[simp] theorem succeed_powerUp (r : CmdResult) (s : State) : (succeed r s).powerUp = s.powerUp := rfl

/-! ### After an error completion -/

@[simp] theorem raiseError_cfg (e : CmdError) (s : State) : (raiseError e s).cfg = s.cfg := rfl
@[simp] theorem raiseError_irqEn (e : CmdError) (s : State) : (raiseError e s).irqEn = s.irqEn := rfl
@[simp] theorem raiseError_cmd (e : CmdError) (s : State) : (raiseError e s).cmd = s.cmd := rfl
@[simp] theorem raiseError_status (e : CmdError) (s : State) :
    (raiseError e s).status = s.status.failed e.code e.auxBuf := rfl
@[simp] theorem raiseError_inLen (e : CmdError) (s : State) : (raiseError e s).inLen = s.inLen := rfl
@[simp] theorem raiseError_auxLen (e : CmdError) (s : State) : (raiseError e s).auxLen = s.auxLen := rfl
@[simp] theorem raiseError_res (e : CmdError) (s : State) :
    (raiseError e s).res = { ResultRegs.zero with errPos := BitVec.ofNat 32 e.pos } := rfl
@[simp] theorem raiseError_phase (e : CmdError) (s : State) : (raiseError e s).phase = .idle := rfl
@[simp] theorem raiseError_mem (e : CmdError) (s : State) : (raiseError e s).mem = s.mem.forgetOutputs := rfl
@[simp] theorem raiseError_host (e : CmdError) (s : State) : (raiseError e s).host = s.host := rfl
@[simp] theorem raiseError_answer (e : CmdError) (s : State) : (raiseError e s).answer = s.answer := rfl
@[simp] theorem raiseError_turns (e : CmdError) (s : State) : (raiseError e s).turns = s.turns := rfl
@[simp] theorem raiseError_draws (e : CmdError) (s : State) : (raiseError e s).draws = s.draws := rfl
@[simp] theorem raiseError_powerUp (e : CmdError) (s : State) : (raiseError e s).powerUp = s.powerUp := rfl

/-! ### After a soft reset -/

@[simp] theorem softReset_cfg (v : Word) (s : State) : (softReset v s).cfg = s.cfg := rfl
@[simp] theorem softReset_irqEn (v : Word) (s : State) : (softReset v s).irqEn = v.getLsbD 0 := rfl
@[simp] theorem softReset_cmd (v : Word) (s : State) : (softReset v s).cmd = 0 := rfl
@[simp] theorem softReset_status (v : Word) (s : State) : (softReset v s).status = .zero := rfl
@[simp] theorem softReset_inLen (v : Word) (s : State) : (softReset v s).inLen = 0 := rfl
@[simp] theorem softReset_auxLen (v : Word) (s : State) : (softReset v s).auxLen = 0 := rfl
@[simp] theorem softReset_res (v : Word) (s : State) : (softReset v s).res = .zero := rfl
@[simp] theorem softReset_phase (v : Word) (s : State) : (softReset v s).phase = .idle := rfl
@[simp] theorem softReset_mem (v : Word) (s : State) : (softReset v s).mem = s.mem.forgetOutputs := rfl
@[simp] theorem softReset_host (v : Word) (s : State) : (softReset v s).host = s.host := rfl
@[simp] theorem softReset_answer (v : Word) (s : State) : (softReset v s).answer = s.answer := rfl
@[simp] theorem softReset_turns (v : Word) (s : State) : (softReset v s).turns = s.turns := rfl
@[simp] theorem softReset_draws (v : Word) (s : State) : (softReset v s).draws = s.draws := rfl
@[simp] theorem softReset_powerUp (v : Word) (s : State) : (softReset v s).powerUp = s.powerUp := rfl

/-! ### After a hardware reset -/

@[simp] theorem hardReset_cfg (s : State) : (hardReset s).cfg = s.cfg := rfl
@[simp] theorem hardReset_irqEn (s : State) : (hardReset s).irqEn = false := rfl
@[simp] theorem hardReset_cmd (s : State) : (hardReset s).cmd = 0 := rfl
@[simp] theorem hardReset_status (s : State) : (hardReset s).status = .zero := rfl
@[simp] theorem hardReset_inLen (s : State) : (hardReset s).inLen = 0 := rfl
@[simp] theorem hardReset_auxLen (s : State) : (hardReset s).auxLen = 0 := rfl
@[simp] theorem hardReset_res (s : State) : (hardReset s).res = .zero := rfl
@[simp] theorem hardReset_phase (s : State) : (hardReset s).phase = .idle := rfl
@[simp] theorem hardReset_mem (s : State) : (hardReset s).mem = [] := rfl
@[simp] theorem hardReset_host (s : State) : (hardReset s).host = s.host := rfl
@[simp] theorem hardReset_answer (s : State) : (hardReset s).answer = s.answer := rfl
@[simp] theorem hardReset_turns (s : State) : (hardReset s).turns = s.turns := rfl
@[simp] theorem hardReset_draws (s : State) : (hardReset s).draws = s.draws := rfl
@[simp] theorem hardReset_powerUp (s : State) : (hardReset s).powerUp = s.powerUp + 1 := rfl

/-! ### After a dropped write -/

@[simp] theorem State.drop_cfg (s : State) : s.drop.cfg = s.cfg := rfl
@[simp] theorem State.drop_irqEn (s : State) : s.drop.irqEn = s.irqEn := rfl
@[simp] theorem State.drop_cmd (s : State) : s.drop.cmd = s.cmd := rfl
@[simp] theorem State.drop_status (s : State) : s.drop.status = { s.status with dropped := true } := rfl
@[simp] theorem State.drop_inLen (s : State) : s.drop.inLen = s.inLen := rfl
@[simp] theorem State.drop_auxLen (s : State) : s.drop.auxLen = s.auxLen := rfl
@[simp] theorem State.drop_res (s : State) : s.drop.res = s.res := rfl
@[simp] theorem State.drop_phase (s : State) : s.drop.phase = s.phase := rfl
@[simp] theorem State.drop_mem (s : State) : s.drop.mem = s.mem := rfl
@[simp] theorem State.drop_host (s : State) : s.drop.host = s.host := rfl
@[simp] theorem State.drop_answer (s : State) : s.drop.answer = s.answer := rfl
@[simp] theorem State.drop_turns (s : State) : s.drop.turns = s.turns := rfl
@[simp] theorem State.drop_draws (s : State) : s.drop.draws = s.draws := rfl
@[simp] theorem State.drop_powerUp (s : State) : s.drop.powerUp = s.powerUp := rfl

/-! ### STATUS after a launch and a completion -/

@[simp] theorem Status.launched_dropped (st : Status) : st.launched.dropped = st.dropped := rfl
@[simp] theorem Status.launched_done (st : Status) : st.launched.done = false := rfl
@[simp] theorem Status.launched_err (st : Status) : st.launched.err = false := rfl
@[simp] theorem Status.launched_errCode (st : Status) : st.launched.errCode = .none := rfl
@[simp] theorem Status.launched_errBuf (st : Status) : st.launched.errBuf = false := rfl
@[simp] theorem Status.launched_collapsed (st : Status) : st.launched.collapsed = false := rfl
@[simp] theorem Status.succeeded_done (c : Bool) (st : Status) : (st.succeeded c).done = true := rfl
@[simp] theorem Status.succeeded_err (c : Bool) (st : Status) : (st.succeeded c).err = false := rfl
@[simp] theorem Status.succeeded_errCode (c : Bool) (st : Status) : (st.succeeded c).errCode = .none := rfl
@[simp] theorem Status.succeeded_errBuf (c : Bool) (st : Status) : (st.succeeded c).errBuf = false := rfl
@[simp] theorem Status.succeeded_collapsed (c : Bool) (st : Status) : (st.succeeded c).collapsed = c := rfl
@[simp] theorem Status.succeeded_dropped (c : Bool) (st : Status) : (st.succeeded c).dropped = st.dropped := rfl
@[simp] theorem Status.failed_done (k : ErrCode) (b : Bool) (st : Status) : (st.failed k b).done = true := rfl
@[simp] theorem Status.failed_err (k : ErrCode) (b : Bool) (st : Status) : (st.failed k b).err = true := rfl
@[simp] theorem Status.failed_errCode (k : ErrCode) (b : Bool) (st : Status) : (st.failed k b).errCode = k := rfl
@[simp] theorem Status.failed_errBuf (k : ErrCode) (b : Bool) (st : Status) : (st.failed k b).errBuf = b := rfl
@[simp] theorem Status.failed_collapsed (k : ErrCode) (b : Bool) (st : Status) : (st.failed k b).collapsed = false := rfl
@[simp] theorem Status.failed_dropped (k : ErrCode) (b : Bool) (st : Status) : (st.failed k b).dropped = st.dropped := rfl

/-! ### BUSY -/

theorem busy_iff (s : State) : s.busy = true ↔ ∃ snap, s.phase = .busy snap := by
  cases h : s.phase <;> simp [State.busy, Phase.isBusy, h]

theorem idle_iff (s : State) : s.busy = false ↔ s.phase = .idle := by
  cases h : s.phase <;> simp [State.busy, Phase.isBusy, h]

@[simp] theorem launch_busy (v : Word) (s : State) : (launch v s).busy = true := rfl
@[simp] theorem succeed_busy (r : CmdResult) (s : State) : (succeed r s).busy = false := rfl
@[simp] theorem raiseError_busy (e : CmdError) (s : State) : (raiseError e s).busy = false := rfl
@[simp] theorem softReset_busy (v : Word) (s : State) : (softReset v s).busy = false := rfl
@[simp] theorem hardReset_busy (s : State) : (hardReset s).busy = false := rfl
@[simp] theorem State.drop_busy (s : State) : s.drop.busy = s.busy := rfl

@[simp] theorem finish_busy (r : CmdOutcome) (s : State) : (finish r s).busy = false := by
  cases r <;> rfl

theorem snapshot_of_phase {s : State} {snap : Snapshot} (h : s.phase = .busy snap) : s.snapshot = snap := by
  simp [State.snapshot, h]

theorem snapshot_of_idle {s : State} (h : s.phase = .idle) : s.snapshot = takeSnapshot s := by
  simp [State.snapshot, h]

end Sys2Proof.Machine
end

