-- ==== Sys2Proof/Laws/Port.lean ====
section
/-! SUPPORT. What the host port can do, said once: where an offset leads, what a write may change, and what a
transaction and a line of the host program leave (10_state.md R22 to R31; 20_memory.md R61 to R76). -/

namespace Sys2Proof.Machine

/-! ### The address map -/

theorem mod_size_lt (n : Size) (a : Nat) : a % n.bytes < n.bytes := by cases n <;> simp [Size.bytes] <;> omega

theorem size_pos (n : Size) : 1 ≤ n.bytes := by cases n <;> simp [Size.bytes]

/-- The registers are the 24 words below 0x60 (R23). -/
theorem regAt_isSome (o : Nat) : (regAt o).isSome = true ↔ o < 0x60 := by
  constructor
  · intro h
    by_contra hc
    have h24 : 24 ≤ o / 4 := by omega
    obtain ⟨k, hk⟩ : ∃ k, o / 4 = k + 24 := ⟨o / 4 - 24, by omega⟩
    simp [regAt, hk] at h
  · intro h
    have h24 : o / 4 < 24 := by omega
    unfold regAt
    generalize o / 4 = q at h24
    interval_cases q <;> rfl

theorem regionOf_register {p : Params} {o : Nat} {r : RegName} (h : regAt o = some r) :
    regionOf p o = .register r := by
  have h60 : o < 0x60 := (regAt_isSome o).mp (by simp [h])
  have : o < 0x1000 := by omega
  simp [regionOf, this, h]

/-- The windows do not overlap, so an offset inside a buffer leads to it (R61, R64). -/
theorem regionOf_buffer {p : Params} (hp : p.Legal) {o : Nat} {b : Buffer} (h1 : b.base ≤ o)
    (h2 : o < b.base + b.size p) : regionOf p o = .buffer b (o - b.base) := by
  have hi := hp.nIn_le
  have ha := hp.nAux_le
  have ho := hp.nOut_le
  have inside : inWindow p b o = .buffer b (o - b.base) := if_pos ⟨h1, h2⟩
  rw [← inside]
  unfold regionOf
  cases b <;> simp only [Buffer.base, Buffer.size] at h1 h2
  · rw [if_neg (by omega), if_pos (by omega)]
  · rw [if_neg (by omega), if_neg (by omega), if_pos (by omega)]
  · rw [if_neg (by omega), if_neg (by omega), if_neg (by omega), if_pos (by omega)]
  · rw [if_neg (by omega), if_neg (by omega), if_neg (by omega), if_neg (by omega)]

/-- What a region says about its offset, on every instance. -/
theorem regionOf_cases (p : Params) (o : Nat) :
    (∃ r, regionOf p o = .register r ∧ regAt o = some r ∧ o < 0x60) ∨
    (∃ b : Buffer, regionOf p o = .buffer b (o - b.base) ∧ b.base ≤ o ∧ o < b.base + b.size p ∧ 0x60 ≤ o) ∨
    (regionOf p o = .reserved ∧ 0x60 ≤ o) := by
  have window : ∀ b : Buffer, 0x60 ≤ o → inWindow p b o = regionOf p o →
      (∃ r, regionOf p o = .register r ∧ regAt o = some r ∧ o < 0x60) ∨
      (∃ b : Buffer, regionOf p o = .buffer b (o - b.base) ∧ b.base ≤ o ∧ o < b.base + b.size p ∧ 0x60 ≤ o) ∨
      (regionOf p o = .reserved ∧ 0x60 ≤ o) := by
    intro b ho hw
    rw [← hw]
    unfold inWindow
    split
    · exact .inr (.inl ⟨b, rfl, by omega, by omega, ho⟩)
    · exact .inr (.inr ⟨rfl, ho⟩)
  by_cases h1 : o < 0x1000
  · cases hr : regAt o with
    | some r => exact .inl ⟨r, regionOf_register hr, rfl, (regAt_isSome o).mp (by simp [hr])⟩
    | none =>
      have : ¬ o < 0x60 := fun h => by simpa [hr] using (regAt_isSome o).mpr h
      exact .inr (.inr ⟨by simp [regionOf, h1, hr], by omega⟩)
  · by_cases h2 : o < 0x1000000
    · exact window .tab (by omega) (by simp [regionOf, h1, h2])
    · by_cases h3 : o < 0x2000000
      · exact window .input (by omega) (by simp [regionOf, h1, h2, h3])
      · by_cases h4 : o < 0x3000000
        · exact window .aux (by omega) (by simp [regionOf, h1, h2, h3, h4])
        · exact window .out (by omega) (by simp [regionOf, h1, h2, h3, h4])

/-! ### Registers and buffers at the port -/

theorem portWrite_register {o : Offset} {r : RegName} (hm : o.toNat % 4 = 0) (hr : regAt o.toNat = some r) (v : Word)
    (s : State) : portWrite o .word v s = some (writeReg r v s) := by
  have h : ¬ o.toNat % Size.word.bytes ≠ 0 := by simpa [Size.bytes] using hm
  rw [portWrite, if_neg h, regionOf_register hr]
  exact if_pos rfl

theorem portRead_register {o : Offset} {r : RegName} (hm : o.toNat % 4 = 0) (hr : regAt o.toNat = some r)
    (s : State) : portRead o .word s = some (readReg r s) := by
  have h : ¬ o.toNat % Size.word.bytes ≠ 0 := by simpa [Size.bytes] using hm
  rw [portRead, if_neg h, regionOf_register hr]
  exact if_pos rfl

theorem portWrite_buffer {s : State} (hp : s.cfg.Legal) {o : Offset} {n : Size} {b : Buffer} (hm : o.toNat % n.bytes = 0)
    (h1 : b.base ≤ o.toNat) (h2 : o.toNat + n.bytes ≤ b.base + b.size s.cfg) (v : Word) :
    portWrite o n v s = if b.hostWritable then some (writeBytes b (o.toNat - b.base) n.bytes v s) else none := by
  have := size_pos n
  rw [portWrite, if_neg (by simpa using hm), regionOf_buffer hp h1 (by omega)]
  simp only
  cases b.hostWritable <;> simp <;> omega

theorem portRead_buffer {s : State} (hp : s.cfg.Legal) {o : Offset} {n : Size} {b : Buffer} (hm : o.toNat % n.bytes = 0)
    (h1 : b.base ≤ o.toNat) (h2 : o.toNat + n.bytes ≤ b.base + b.size s.cfg) :
    portRead o n s = some (readBytes b (o.toNat - b.base) n.bytes s) := by
  have := size_pos n
  rw [portRead, if_neg (by simpa using hm), regionOf_buffer hp h1 (by omega)]
  exact if_pos (by omega)

/-- A read of a buffer gives its bytes, the lowest in bits 7:0, and 0 above them (R65). -/
theorem readBytes_spec (b : Buffer) (j : Nat) (n : Size) (s : State) :
    (readBytes b j n.bytes s).toNat < 2 ^ (8 * n.bytes) ∧
    ∀ k, k < n.bytes → (readBytes b j n.bytes s).extractLsb' (8 * k) 8 = readByte b (j + k) s := by
  have hv : ∀ f : Nat → Byte, ∀ k, k < n.bytes → leNat ((List.range n.bytes).map f) < 2 ^ (8 * n.bytes) ∧
      leNat ((List.range n.bytes).map f) / 2 ^ (8 * k) % 2 ^ 8 = (f k).toNat := by
    intro f k hk
    have h0 := (f 0).isLt
    have h1 := (f 1).isLt
    have h2 := (f 2).isLt
    have h3 := (f 3).isLt
    cases n <;> simp only [Size.bytes] at hk ⊢ <;> interval_cases k <;> simp [List.range_succ, leNat] <;> omega
  have h32 : 2 ^ (8 * n.bytes) ≤ 2 ^ 32 := Nat.pow_le_pow_right (by omega) (by cases n <;> simp [Size.bytes])
  refine ⟨?_, fun k hk => ?_⟩
  · have h := (hv (fun t => readByte b (j + t) s) 0 (size_pos n)).1
    rw [readBytes, BitVec.toNat_ofNat]
    exact Nat.lt_of_le_of_lt (Nat.mod_le _ _) h
  · have h := hv (fun t => readByte b (j + t) s) k hk
    apply BitVec.eq_of_toNat_eq
    rw [BitVec.extractLsb'_toNat, Nat.shiftRight_eq_div_pow, readBytes, BitVec.toNat_ofNat,
      Nat.mod_eq_of_lt (Nat.lt_of_lt_of_le h.1 h32)]
    exact h.2

/-- A write to a register, as a transaction (R63, R67). -/
theorem transact_write_register {o : Offset} {r : RegName} (hm : o.toNat % 4 = 0) (hr : regAt o.toNat = some r)
    (v : Word) (s : State) : transact (.write o .word v) s = { writeReg r v s with answer := some .ok } := by
  simp only [transact, portWrite_register hm hr]

/-- A read of a register, as a transaction (R63, R67). -/
theorem transact_read_register {o : Offset} {r : RegName} (hm : o.toNat % 4 = 0) (hr : regAt o.toNat = some r)
    (s : State) :
    transact (.read o .word) s = { s with answer := some (.data (readReg r s)), draws := s.draws + 1 } := by
  simp only [transact, portRead_register hm hr]

/-! ### Writes -/

/-- What an answered write of `v` may do to the block (R24 to R31, R71, R72). -/
inductive WriteEffect (o : Offset) (n : Size) (v : Word) (s : State) : State → Prop where
  | ignored : WriteEffect o n v s s
  | dropped : s.busy = true → WriteEffect o n v s s.drop
  | softReset : o = 0x004 → n = .word → v.getLsbD 1 = true → WriteEffect o n v s (softReset v s)
  | irqEnable : o = 0x004 → n = .word → v.getLsbD 1 = false → WriteEffect o n v s { s with irqEn := v.getLsbD 0 }
  | launch : o = 0x008 → n = .word → s.busy = false → WriteEffect o n v s (launch v s)
  | status : o = 0x00C → n = .word → WriteEffect o n v s { s with status := s.status.clearWritten v }
  | inLen : o = 0x010 → n = .word → s.busy = false → WriteEffect o n v s { s with inLen := v }
  | auxLen : o = 0x014 → n = .word → s.busy = false → WriteEffect o n v s { s with auxLen := v }
  | bytes (b : Buffer) : b = .input ∨ b = .aux → s.busy = false → b.base ≤ o.toNat →
    o.toNat + n.bytes ≤ b.base + b.size s.cfg →
    WriteEffect o n v s { s with mem := s.mem.setBytes o.toNat (leBytes n.bytes v.toNat) }

theorem regAt_eq {o : Offset} (hm : o.toNat % 4 = 0) {k : Nat} (hk : k < 2 ^ 26) (h : o.toNat / 4 = k / 4)
    (h4 : k % 4 = 0) : o = BitVec.ofNat 26 k := by
  apply BitVec.eq_of_toNat_eq
  rw [BitVec.toNat_ofNat, Nat.mod_eq_of_lt hk]
  omega

theorem regAt_ctrl {o : Offset} (hm : o.toNat % 4 = 0) (h : regAt o.toNat = some .ctrl) : o = 0x004 := by
  have h24 := (regAt_isSome o.toNat).mp (by simp [h])
  apply regAt_eq hm (k := 4) (by omega) _ (by omega)
  unfold regAt at h
  generalize o.toNat / 4 = q at *
  split at h <;> first | rfl | cases h

theorem regAt_cmd {o : Offset} (hm : o.toNat % 4 = 0) (h : regAt o.toNat = some .cmd) : o = 0x008 := by
  apply regAt_eq hm (k := 8) (by omega) _ (by omega)
  unfold regAt at h
  generalize o.toNat / 4 = q at *
  split at h <;> first | rfl | cases h

theorem regAt_status {o : Offset} (hm : o.toNat % 4 = 0) (h : regAt o.toNat = some .status) : o = 0x00C := by
  apply regAt_eq hm (k := 12) (by omega) _ (by omega)
  unfold regAt at h
  generalize o.toNat / 4 = q at *
  split at h <;> first | rfl | cases h

theorem regAt_inLen {o : Offset} (hm : o.toNat % 4 = 0) (h : regAt o.toNat = some .inLen) : o = 0x010 := by
  apply regAt_eq hm (k := 16) (by omega) _ (by omega)
  unfold regAt at h
  generalize o.toNat / 4 = q at *
  split at h <;> first | rfl | cases h

theorem regAt_auxLen {o : Offset} (hm : o.toNat % 4 = 0) (h : regAt o.toNat = some .auxLen) : o = 0x014 := by
  apply regAt_eq hm (k := 20) (by omega) _ (by omega)
  unfold regAt at h
  generalize o.toNat / 4 = q at *
  split at h <;> first | rfl | cases h

/-- Everything a write that is no bus error can do (R24 to R31, R71, R72). -/
theorem portWrite_cases {o : Offset} {n : Size} {v : Word} {s s' : State} (h : portWrite o n v s = some s') :
    WriteEffect o n v s s' := by
  unfold portWrite at h
  split at h
  · cases h
  rename_i hm
  obtain ⟨r, hr, hreg, -⟩ | ⟨b, hb, h1, h2, -⟩ | ⟨hres, -⟩ := regionOf_cases s.cfg o.toNat
  · simp only [hr] at h
    split at h
    · rename_i hn
      subst hn
      simp only [Size.bytes, ne_eq, not_not] at hm
      injection h with h
      subst h
      cases r <;> simp only [writeReg] <;> try exact .ignored
      · split
        · exact .softReset (regAt_ctrl hm hreg) rfl ‹_›
        · exact .irqEnable (regAt_ctrl hm hreg) rfl (Bool.eq_false_of_not_eq_true ‹¬ _›)
      · unfold unlessBusy; split
        · exact .dropped ‹_›
        · exact .launch (regAt_cmd hm hreg) rfl (Bool.eq_false_of_not_eq_true ‹¬ _›)
      · exact .status (regAt_status hm hreg) rfl
      · unfold unlessBusy; split
        · exact .dropped ‹_›
        · exact .inLen (regAt_inLen hm hreg) rfl (Bool.eq_false_of_not_eq_true ‹¬ _›)
      · unfold unlessBusy; split
        · exact .dropped ‹_›
        · exact .auxLen (regAt_auxLen hm hreg) rfl (Bool.eq_false_of_not_eq_true ‹¬ _›)
    · cases h
  · simp only [hb] at h
    split at h
    · rename_i hw
      injection h with h
      subst h
      unfold writeBytes unlessBusy
      split
      · exact .dropped ‹_›
      · rw [Nat.add_sub_cancel' h1]
        refine .bytes b ?_ (Bool.eq_false_of_not_eq_true ‹¬ _›) h1 (by omega)
        cases b <;> simp_all [Buffer.hostWritable]
    · cases h
  · simp only [hres] at h
    cases h

/-! ### Transactions and host moves -/

/-- What a move of the host may do: nothing in the block, or an answered write (R63, R70, R110). -/
inductive HostEffect (s : State) : State → Prop where
  /-- Nothing but the host's own state, the answer and the draws: a branch, a read, a bus error, the end of the program. -/
  | quiet (a : HostAgent) (ans : Option Answer) (d : Nat) : a.prog = s.host.prog →
    HostEffect s { s with host := a, answer := ans, draws := d }
  /-- A write that is answered OK. -/
  | write (o : Offset) (n : Size) (w : HostVal) (a : HostAgent) (u : State) : a.prog = s.host.prog →
    s.host.prog[s.host.pc]? = some (.store n o w) → WriteEffect o n (w.eval s.host) s u →
    HostEffect s { u with host := a, answer := some .ok }

theorem WriteEffect.host {o : Offset} {n : Size} {v : Word} {s u : State} (h : WriteEffect o n v s u) :
    u.host = s.host := by cases h <;> rfl

theorem WriteEffect.turns {o : Offset} {n : Size} {v : Word} {s u : State} (h : WriteEffect o n v s u) :
    u.turns = s.turns := by cases h <;> rfl

theorem WriteEffect.cfg {o : Offset} {n : Size} {v : Word} {s u : State} (h : WriteEffect o n v s u) :
    u.cfg = s.cfg := by cases h <;> rfl

theorem WriteEffect.powerUp {o : Offset} {n : Size} {v : Word} {s u : State} (h : WriteEffect o n v s u) :
    u.powerUp = s.powerUp := by cases h <;> rfl

@[simp] theorem HostAgent.goto_prog (a : HostAgent) (k : Nat) : (a.goto k).prog = a.prog := rfl

theorem HostAgent.loaded_prog (a : HostAgent) (h : Fin 8) (ans : Option Answer) : (a.loaded h ans).prog = a.prog := by
  unfold HostAgent.loaded; split <;> rfl

/-- Everything a move of the host can do. -/
theorem hostMove_cases (s : State) : HostEffect s (hostMove s) := by
  unfold hostMove
  split
  · rename_i op hop
    cases op with
    | load n h o =>
      simp only [hostOp, transact]
      split
      · exact .quiet _ (some (.data _)) _ (by simp [HostAgent.loaded_prog])
      · exact .quiet _ (some .busError) s.draws (by simp [HostAgent.loaded_prog])
    | store n o w =>
      simp only [hostOp, transact]
      split
      · rename_i u hu
        have hw := portWrite_cases hu
        exact .write o n w _ u (by simp [hw.host]) hop hw
      · exact .quiet _ (some .busError) s.draws (by simp)
    | bnz h m k => exact .quiet _ s.answer s.draws (by simp)
    | bz h m k => exact .quiet _ s.answer s.draws (by simp)
  · exact .quiet s.host s.answer s.draws rfl

end Sys2Proof.Machine
end

