-- ==== Sys2Proof/Laws/Step.lean ====
section
/-! SUPPORT. One lemma says what a step can do (00_scope.md R18; 60_exceptions.md R210, R218); everything about all
steps is derived from it. -/

namespace Sys2Proof.Machine

/-- `exec i` is one completion of one outcome, whatever the state. -/
theorem exec_next (i : Instr) (s : State) : ∃ r, exec i s = .next (finish r s) := by
  obtain ⟨f, h⟩ := exec_eq_finish i
  exact ⟨_, h s⟩

/-- What the engine's move can do. -/
inductive EngineEffect (s : State) : State → Prop where
  | idle : s.phase = .idle → EngineEffect s s
  | command (snap : Snapshot) (i : Instr) (r : CmdOutcome) : s.phase = .busy snap → decodeWord s.cmd = .ok i →
    exec i s = .next (finish r s) → EngineEffect s (finish r s)
  | illegal (snap : Snapshot) (e : DecodeError) : s.phase = .busy snap → decodeWord s.cmd = .error e →
    EngineEffect s (finishIllegal s)

theorem engineMove_cases (s : State) : ∃ t, engineMove s = .next t ∧ EngineEffect s t := by
  unfold engineMove
  cases hp : s.phase with
  | idle => exact ⟨s, rfl, .idle hp⟩
  | busy snap =>
    cases hd : decodeWord s.cmd with
    | ok i =>
      obtain ⟨r, hr⟩ := exec_next i s
      exact ⟨_, hr, .command snap i r hp hd hr⟩
    | error e => exact ⟨_, rfl, .illegal snap e hp hd⟩

/-- What a step can do, agent by agent; the turn it takes is used up first. -/
inductive StepEffect (s : State) : State → Prop where
  | host (t : State) : s.mover = .host → HostEffect { s with turns := s.turns.tail } t → StepEffect s t
  | engine (t : State) : s.mover = .engine → EngineEffect { s with turns := s.turns.tail } t → StepEffect s t
  | hardReset : s.mover = .hardReset → StepEffect s (hardReset { s with turns := s.turns.tail })

theorem step_eq_move (s : State) : step s = move s.mover { s with turns := s.turns.tail } := by
  unfold step State.mover defaultTurn
  cases s with
  | mk cfg irqEn cmd status inLen auxLen res phase mem host answer turns draws powerUp =>
    cases turns <;> rfl

/-- Every step has a next state, and it is one of these. -/
theorem step_cases (s : State) : ∃ t, step s = .next t ∧ StepEffect s t := by
  rw [step_eq_move]
  cases hm : s.mover with
  | host => exact ⟨_, rfl, .host _ hm (hostMove_cases _)⟩
  | engine =>
    obtain ⟨t, h1, h2⟩ := engineMove_cases { s with turns := s.turns.tail }
    exact ⟨t, h1, .engine t hm h2⟩
  | hardReset => exact ⟨_, rfl, .hardReset hm⟩

theorem stepEffect_of_step {s t : State} (h : step s = .next t) : StepEffect s t := by
  obtain ⟨u, h1, h2⟩ := step_cases s
  rw [h1] at h
  injection h with h
  exact h ▸ h2

/-! ### Memory stays in canonical form -/

theorem wf_succeed {s : State} (h : s.mem.wf = true) (r : CmdResult) : (succeed r s).mem.wf = true :=
  Memory.wf_setBytes (Memory.wf_setBytes (Memory.wf_forgetOutputs h) _ _) _ _

theorem wf_raiseError {s : State} (h : s.mem.wf = true) (e : CmdError) : (raiseError e s).mem.wf = true :=
  Memory.wf_forgetOutputs h

theorem wf_finish {s : State} (h : s.mem.wf = true) (r : CmdOutcome) : (finish r s).mem.wf = true := by
  cases r with
  | ok r => exact wf_succeed h r
  | error e => exact wf_raiseError h e

theorem WriteEffect.wf {o : Offset} {n : Size} {v : Word} {s u : State} (h : WriteEffect o n v s u)
    (hs : s.mem.wf = true) : u.mem.wf = true := by
  cases h with
  | softReset => exact Memory.wf_forgetOutputs hs
  | launch => exact Memory.wf_forgetOutputs hs
  | bytes => exact Memory.wf_setBytes hs _ _
  | ignored | dropped | irqEnable | status | inLen | auxLen => exact hs

end Sys2Proof.Machine
end

