-- ==== Sys2Proof/Laws/Outcome.lean ====
section
/-! SUPPORT. What every command's outcome satisfies, said once for the six (60_exceptions.md R210, R213, R214;
30_encoding.md R109), and with it what a completion leaves. -/

namespace Sys2Proof.Machine

/-- The outputs of a success fit, TAB is defined by SF_ENC only, and the interval lies in `[0, 2^P]`. -/
structure GoodResult (p : Params) (i : Instr) (r : CmdResult) : Prop where
  out_len : r.out.length ≤ p.nOut
  tab : (r.tab = [] ∧ r.resWidth = 0) ∨
    (i = .sfEnc ∧ r.tab.length = 8 * r.resCount ∧ r.resCount ≤ 256 ∧ 1 ≤ r.resWidth ∧ r.resWidth ≤ 8)
  interval : r.arLow ≤ r.arVal ∧ r.arVal ≤ r.arHigh ∧ r.arHigh ≤ 2 ^ p.arP
  collapsed : r.collapsed = true → r.arLow = r.arHigh

/-- An error has a code of R212 other than NONE and ILLEGAL_COMMAND, and names AUX for AR_ENC's AUX errors only. -/
structure GoodError (i : Instr) (e : CmdError) : Prop where
  code : e.code = .emptyInput ∨ e.code = .format ∨ e.code = .capacity ∨ (i = .arEnc ∧ e.code = .unknownSymbol)
  aux : e.auxBuf = true → i = .arEnc ∧ (e.code = .emptyInput ∨ e.code = .format ∨ e.code = .capacity)

/-- A result or an error that is good. -/
def GoodOutcome (p : Params) (i : Instr) : CmdOutcome → Prop
  | .ok r => GoodResult p i r
  | .error e => GoodError i e

/-- A result that defines no TAB byte and no interval. -/
theorem GoodResult.plain {p : Params} {i : Instr} {r : CmdResult} (h : r.out.length ≤ p.nOut) (h1 : r.tab = [])
    (h2 : r.resWidth = 0) (h3 : r.arLow = 0) (h4 : r.arHigh = 0) (h5 : r.arVal = 0) : GoodResult p i r :=
  ⟨h, .inl ⟨h1, h2⟩, by simp [h3, h4, h5], fun _ => by rw [h3, h4]⟩

/-- The eager errors are good, and the body need only be good when they pass. -/
theorem afterEager_good {p : Params} {snap : Snapshot} {i : Instr} {usesAux : Bool} {unit : Nat} {body : CmdOutcome}
    (hu : usesAux = true → i = .arEnc) (h : 1 ≤ snap.inLen.toNat → snap.inLen.toNat ≤ p.nIn → GoodOutcome p i body) :
    GoodOutcome p i (afterEager p snap usesAux unit body) := by
  unfold afterEager eagerError
  by_cases h1 : snap.inLen.toNat = 0
  · simp only [h1, if_true]; exact ⟨.inl rfl, by simp [inError]⟩
  by_cases h2 : p.nIn < snap.inLen.toNat
  · simp only [h1, h2, if_true, if_false]; exact ⟨.inr (.inr (.inl rfl)), by simp [inError]⟩
  simp only [h1, h2, if_false]
  split
  · rename_i e he
    split at he
    · rename_i h3
      cases he
      simp only [Bool.and_eq_true] at h3
      exact ⟨.inl rfl, fun _ => ⟨hu h3.1, .inl rfl⟩⟩
    · split at he
      · rename_i h3
        cases he
        simp only [Bool.and_eq_true] at h3
        exact ⟨.inr (.inr (.inl rfl)), fun _ => ⟨hu h3.1, .inr (.inr rfl)⟩⟩
      · split at he
        · cases he
          exact ⟨.inr (.inl rfl), by simp [inError]⟩
        · cases he
  · exact h (by omega) (by omega)

theorem inError_good {i : Instr} {n : Nat} {k : ErrCode} (h : k = .format ∨ k = .capacity) :
    GoodError i (inError k n) :=
  ⟨by rcases h with rfl | rfl <;> simp [inError], by simp [inError]⟩

/-- Every command's outcome is good, on a legal instance and a snapshot of the length the length register says. -/
theorem exec_outcome (i : Instr) {s : State} (hp : s.cfg.Legal)
    (hl : s.snapshot.inLen.toNat ≤ s.cfg.nIn → s.snapshot.input.length = s.snapshot.inLen.toNat) :
    ∃ r, exec i s = .next (finish r s) ∧ GoodOutcome s.cfg i r := by
  have hcap : 256 ≤ cap s.cfg := by
    have : 2 ^ 8 ≤ 2 ^ s.cfg.dictBits := Nat.pow_le_pow_right (by omega) (by have := hp.dictBits_ge; omega)
    simpa [cap] using this
  have hout := hp.nOut_ge
  have hin := hp.nIn_ge
  cases i
  · refine ⟨_, rfl, afterEager_good (by simp) fun h1 h2 => GoodResult.plain ?_ rfl rfl rfl rfl rfl⟩
    have := rleRuns_length_le s.snapshot.input
    have := hl h2
    simp only [rleEncResult, flatten_runRecord_length]
    omega
  · refine ⟨_, rfl, afterEager_good (by simp) fun h1 h2 => ?_⟩
    rcases rleExpand_cases (nOut := s.cfg.nOut) (r := 0) (out := []) (by simp) (runRecords s.snapshot.input) with
      ⟨o, h, ho⟩ | ⟨n, h | h⟩
    · rw [h]; exact GoodResult.plain ho rfl rfl rfl rfl rfl
    · rw [h]; exact inError_good (.inl rfl)
    · rw [h]; exact inError_good (.inr rfl)
  · refine ⟨_, rfl, afterEager_good (by simp) fun h1 h2 => GoodResult.plain ?_ rfl rfl rfl rfl rfl⟩
    obtain ⟨ps, hf, hs, -, -⟩ := lzwCodes_phrases hcap s.snapshot.input
    have h3 := length_le_flatten (hs.phrases_ne_nil (by simp))
    rw [hf] at h3
    have h4 := hs.length_eq
    have := hl h2
    simp only [lzwEncResult, flatten_codeBytes_length]
    omega
  · refine ⟨_, rfl, afterEager_good (by simp) fun h1 h2 => ?_⟩
    rcases lzwDecode_cases (p := s.cfg) (by omega) (codeList s.snapshot.input) with ⟨o, h, ho⟩ | ⟨n, h | h⟩
    · rw [h]; exact GoodResult.plain ho rfl rfl rfl rfl rfl
    · rw [h]; exact inError_good (.inl rfl)
    · rw [h]; exact inError_good (.inr rfl)
  · refine ⟨_, rfl, afterEager_good (by simp) fun h1 h2 => ?_⟩
    have h3 := hl h2
    have hne : s.snapshot.input ≠ [] := fun h => by rw [h] at h3; simp at h3; omega
    have h4 := sfOut_length_le hne
    have h5 := sfWidth_spec (sfRanks_length_pos hne) (sfRanks_length_le s.snapshot.input)
    refine ⟨?_, .inr ⟨rfl, sfTab_length _, sfRanks_length_le _, h5.2.2.1, h5.2.2.2⟩, ⟨Nat.le_refl 0, Nat.le_refl 0,
      Nat.zero_le _⟩, fun _ => rfl⟩
    simp only [sfEncResult]
    omega
  · refine ⟨_, rfl, afterEager_good (by simp) fun h1 h2 => ?_⟩
    rcases arEncode_cases s.cfg s.snapshot.input s.snapshot.aux with ⟨t, iv, h, -, -, h3, h4⟩ | ⟨e, h, h3⟩
    · rw [h]
      refine ⟨Nat.zero_le _, .inl ⟨rfl, rfl⟩, ⟨?_, ?_, h4⟩, fun hc => by simpa [arEncResult] using hc⟩ <;>
        simp only [arEncResult] <;> omega
    · rw [h]
      rcases h3 with ⟨h3, h4 | h4⟩ | ⟨h3, h4⟩
      · exact ⟨.inr (.inl h4), fun _ => ⟨rfl, .inr (.inl h4)⟩⟩
      · exact ⟨.inr (.inr (.inl h4)), fun _ => ⟨rfl, .inr (.inr h4)⟩⟩
      · exact ⟨.inr (.inr (.inr ⟨rfl, h4⟩)), fun h => by simp [h3] at h⟩

/-- The length of the snapshot's input, from the invariant. -/
theorem snapshot_input_length {s : State} (h : s.SnapshotOk) (hb : s.snapshot.inLen.toNat ≤ s.cfg.nIn) :
    s.snapshot.input.length = s.snapshot.inLen.toNat := by
  cases hp : s.phase with
  | idle =>
    rw [snapshot_of_idle hp] at hb ⊢
    simp only [takeSnapshot] at hb ⊢
    rw [snapBytes_length]
    exact if_pos hb
  | busy snap =>
    rw [snapshot_of_phase hp] at hb ⊢
    obtain ⟨h1, -, h2, -⟩ := h snap hp
    rw [h1] at hb ⊢
    rw [h2.1]
    exact if_pos hb

theorem GoodResult.tab_le {p : Params} {i : Instr} {r : CmdResult} (h : GoodResult p i r) : r.tab.length ≤ 2048 := by
  rcases h.tab with ⟨h, -⟩ | ⟨-, h, h2, -⟩
  · simp [h]
  · omega

/-- On a state that meets the invariant every command ends in one of the two completions. -/
theorem exec_completes (i : Instr) {s : State} (hp : s.cfg.Legal) (hs : s.SnapshotOk) :
    (∃ r, exec i s = .next (succeed r s) ∧ GoodResult s.cfg i r ∧
      Succeeded s (succeed r s) r.regs r.collapsed r.out r.tab) ∨
    (∃ e, exec i s = .next (raiseError e s) ∧ GoodError i e ∧
      Failed s (raiseError e s) e.code e.pos e.auxBuf) := by
  obtain ⟨r, h1, h2⟩ := exec_outcome i hp fun h => snapshot_input_length hs h
  cases r with
  | ok r => exact .inl ⟨r, h1, h2, succeed_succeeded hp r h2.out_len h2.tab_le⟩
  | error e => exact .inr ⟨e, h1, h2, raiseError_failed hp e⟩

end Sys2Proof.Machine
end

