-- ==== Sys2Proof/Laws/End.lean ====
section
/-! SUPPORT. What stays from a launch to the end of its command: its snapshot while it runs, its results once it has completed
(20_memory.md R72, R75, R79; 70_reset_and_hazards.md R249, R257). -/

namespace Sys2Proof.Machine

/-! ### Results that stay -/

/-- `t` holds the results `s` holds: everything that is observed of a command but its snapshot. -/
structure SameResults (s t : State) : Prop where
  cfg : t.cfg = s.cfg
  res : t.res = s.res
  errCode : t.status.errCode = s.status.errCode
  errBuf : t.status.errBuf = s.status.errBuf
  collapsed : t.status.collapsed = s.status.collapsed
  mem : ∀ a, ¬ OutsideOutputs a → t.mem.get a = s.mem.get a

theorem SameResults.refl (s : State) : SameResults s s := ⟨rfl, rfl, rfl, rfl, rfl, fun _ _ => rfl⟩

theorem SameResults.trans {s t u : State} (h : SameResults s t) (k : SameResults t u) : SameResults s u :=
  ⟨k.cfg.trans h.cfg, k.res.trans h.res, k.errCode.trans h.errCode, k.errBuf.trans h.errBuf,
    k.collapsed.trans h.collapsed, fun a ha => (k.mem a ha).trans (h.mem a ha)⟩

/-- The same results give the same observation, where the reported outputs lie in OUT and TAB. -/
theorem SameResults.observation {s t : State} (h : SameResults s t) (hl : s.cfg.Legal)
    (hn : s.res.outLen.toNat ≤ s.cfg.nOut) (hk : s.res.resWidth ≠ 0 → s.res.resCount.toNat ≤ 256) (snap : Snapshot) :
    t.observation snap = s.observation snap := by
  have := hl.nOut_le
  simp only [State.observation, h.res, h.errCode, h.errBuf, h.collapsed, Observation.mk.injEq, true_and]
  constructor
  · apply List.map_congr_left
    intro j hj
    rw [List.mem_range] at hj
    exact h.mem _ (by simp only [OutsideOutputs, Buffer.base, outSpan]; omega)
  · apply List.map_congr_left
    intro j hj
    rw [List.mem_range] at hj
    split at hj
    · omega
    · rename_i hw
      have := hk hw
      exact h.mem _ (by simp only [OutsideOutputs, Buffer.base, outSpan]; omega)

/-- One outcome leaves the same results on every state of one instance. -/
theorem finish_sameResults {u w : State} (r : CmdOutcome) (hc : u.cfg = w.cfg) :
    SameResults (finish r u) (finish r w) := by
  cases r with
  | ok r =>
    refine ⟨hc.symm, rfl, rfl, rfl, rfl, fun a ha => ?_⟩
    simp only [finish, succeed, Memory.get_setBytes, Memory.forgetOutputs_inside _ ha]
  | error e =>
    refine ⟨hc.symm, rfl, rfl, rfl, rfl, fun a ha => ?_⟩
    simp only [finish, raiseError, Memory.forgetOutputs_inside _ ha]

/-! ### The engine's move -/

/-- The completion of a running command, an illegal word's included, is one of one outcome, which depends on the parameters,
the word in CMD and the snapshot alone (R78, R97, R216). -/
theorem engineMove_outcome {u u' : State} {snap : Snapshot} (hu : u.phase = .busy snap) (h : engineMove u = .next u') :
    ∃ r, u' = finish r u ∧ ∀ w w' : State, w.cfg = u.cfg → w.cmd = u.cmd → w.phase = .busy snap →
      engineMove w = .next w' → w' = finish r w := by
  unfold engineMove at h
  simp only [hu] at h
  cases hd : decodeWord u.cmd with
  | error e =>
    simp only [hd] at h
    injection h with h
    refine ⟨.error { code := .illegalCommand, pos := 0, auxBuf := false }, h.symm, ?_⟩
    intro w w' h1 h2 h3 h4
    unfold engineMove at h4
    simp only [h3, h2, hd] at h4
    injection h4 with h4
    exact h4.symm
  | ok i =>
    simp only [hd] at h
    obtain ⟨f, hf⟩ := exec_eq_finish i
    rw [hf] at h
    injection h with h
    refine ⟨f u.cfg u.snapshot, h.symm, ?_⟩
    intro w w' h1 h2 h3 h4
    unfold engineMove at h4
    simp only [h3, h2, hd] at h4
    rw [hf] at h4
    injection h4 with h4
    rw [← h4, h1, snapshot_of_phase h3, snapshot_of_phase hu]

theorem EngineEffect.engineMove {s t : State} (h : EngineEffect s t) : engineMove s = .next t := by
  unfold Machine.engineMove
  cases h with
  | idle hp => simp only [hp]
  | command snap i r hp hd he => simp only [hp, hd, he]
  | illegal snap e hp hd => simp only [hp, hd]

/-- The input bytes of a snapshot are as many as its length says, where that fits IN. -/
def Snapshot.InputTaken (p : Params) (snap : Snapshot) : Prop :=
  snap.inLen.toNat ≤ p.nIn → snap.input.length = snap.inLen.toNat

/-- What a completion reports lies in OUT and TAB (R46, R47). -/
theorem engineMove_bounds {u u' : State} {snap : Snapshot} (hl : u.cfg.Legal) (hu : u.phase = .busy snap)
    (ht : snap.InputTaken u.cfg) (h : engineMove u = .next u') :
    u'.res.outLen.toNat ≤ u.cfg.nOut ∧ (u'.res.resWidth ≠ 0 → u'.res.resCount.toNat ≤ 256) := by
  unfold engineMove at h
  simp only [hu] at h
  split at h
  · rename_i i hd
    obtain ⟨r, hr, hg⟩ := exec_outcome i (s := u) hl (by rw [snapshot_of_phase hu]; exact ht)
    rw [hr] at h
    injection h with h
    subst h
    cases r with
    | error e => exact ⟨Nat.zero_le _, fun h => absurd rfl h⟩
    | ok r =>
      have h1 := hg.out_len
      have h0 := hl.nOut_le
      refine ⟨?_, fun hw => ?_⟩
      · change (BitVec.ofNat 32 r.out.length).toNat ≤ _
        rw [BitVec.toNat_ofNat]
        omega
      · change (BitVec.ofNat 32 r.resCount).toNat ≤ _
        rw [BitVec.toNat_ofNat]
        rcases hg.tab with ⟨-, h⟩ | ⟨-, -, h, -⟩
        · exact absurd (show BitVec.ofNat 32 r.resWidth = 0 by rw [h]; rfl) hw
        · omega
  · injection h with h
    subst h
    exact ⟨Nat.zero_le _, fun h => absurd rfl h⟩

/-! ### Steps between a launch and the end -/

/-- A write to IN or AUX leaves OUT and TAB alone (R61, R64). -/
theorem setBytes_inputs_outputs {s : State} (hl : s.cfg.Legal) {b : Buffer} {o : Offset} {n : Size}
    (hb : b = .input ∨ b = .aux) (h1 : b.base ≤ o.toNat) (h2 : o.toNat + n.bytes ≤ b.base + b.size s.cfg)
    (bs : List Byte) (hn : bs.length = n.bytes) {a : Nat} (ha : ¬ OutsideOutputs a) :
    (s.mem.setBytes o.toNat bs).get a = s.mem.get a := by
  have := hl.nIn_le
  have := hl.nAux_le
  rw [Memory.get_setBytes, if_neg]
  rw [hn]
  rintro ⟨h3, h4⟩
  apply ha
  rcases hb with rfl | rfl <;> simp only [Buffer.base, Buffer.size, OutsideOutputs, outSpan] at * <;> omega

/-- A step that is no reset and no launch keeps the phase, CMD and the results, or is the completion of a running command. -/
theorem step_between {s t : State} (h : step s = .next t) (hl : s.cfg.Legal) (h1 : s.mover ≠ .hardReset)
    (h2 : ∀ w, HostStores s 0x004 w → w.getLsbD 1 = false) (h3 : ∀ w, HostStores s 0x008 w → s.busy = true) :
    (t.phase = s.phase ∧ t.cmd = s.cmd ∧ (s.status.done = false → t.status.done = false) ∧ SameResults s t) ∨
    (s.busy = true ∧ EngineEffect { s with turns := s.turns.tail } t) := by
  have keep : ∀ t : State, t.cfg = s.cfg → t.res = s.res → t.status.errCode = s.status.errCode →
      t.status.errBuf = s.status.errBuf → t.status.collapsed = s.status.collapsed → t.mem = s.mem → SameResults s t :=
    fun t a b c d e f => ⟨a, b, c, d, e, fun _ _ => by rw [f]⟩
  cases stepEffect_of_step h with
  | hardReset hm => exact absurd hm h1
  | engine t hm he =>
    cases hb : s.busy
    · left
      have hi := (idle_iff s).1 hb
      cases he with
      | idle => exact ⟨rfl, rfl, id, keep _ rfl rfl rfl rfl rfl rfl⟩
      | command snap i r hp => simp [hi] at hp
      | illegal snap e hp => simp [hi] at hp
    · exact .inr ⟨rfl, he⟩
  | host t hm he =>
    left
    cases he with
    | quiet => exact ⟨rfl, rfl, id, keep _ rfl rfl rfl rfl rfl rfl⟩
    | write o n w a u hp hop hw =>
      have hs : ∀ o', n = .word → o = o' → HostStores s o' (w.eval s.host) := by
        rintro o' rfl rfl
        exact ⟨hm, w, hop, by cases w <;> rfl⟩
      cases hw with
      | softReset ho hn hv => exact absurd hv (by rw [show w.eval _ = w.eval s.host from rfl, h2 _ (hs _ hn ho)]; simp)
      | launch ho hn hb => exact absurd (show s.busy = false from hb) (by simp [h3 _ (hs _ hn ho)])
      | bytes b hb hbusy h4 h5 =>
        exact ⟨rfl, rfl, id, rfl, rfl, rfl, rfl, rfl, fun a ha =>
          setBytes_inputs_outputs (s := { s with turns := s.turns.tail }) hl hb h4 h5 _ (leBytes_length _ _) ha⟩
      | status => exact ⟨rfl, rfl, fun h => by simp [Status.clearWritten, h], keep _ rfl rfl rfl rfl rfl rfl⟩
      | _ => exact ⟨rfl, rfl, id, keep _ rfl rfl rfl rfl rfl rfl⟩

/-- No step changes the parameters. -/
theorem step_cfg {s t : State} (h : step s = .next t) : t.cfg = s.cfg := by
  cases stepEffect_of_step h with
  | hardReset => rfl
  | engine t hm he =>
    cases he with
    | command snap i r => cases r <;> rfl
    | _ => rfl
  | host t hm he =>
    cases he with
    | quiet => rfl
    | write o n w a u hp hop hw => exact hw.cfg

/-- The step of an accepted CMD write (R95). -/
theorem step_launch {s t : State} {v : Word} (hs : HostStores s 0x008 v) (hb : s.busy = false)
    (h : step s = .next t) : t.cmd = v ∧ t.status.done = false ∧
    ∃ snap, t.phase = .busy snap ∧ snap.InputTaken t.cfg := by
  obtain ⟨h1, w, h2, h3⟩ := hs
  have hv : v = w.eval s.host := by rw [h3]; cases w <;> rfl
  rw [step_eq_move, h1] at h
  injection h with h
  subst h
  generalize hu : ({ s with turns := s.turns.tail } : State) = u at *
  have e1 : u.host = s.host := by rw [← hu]
  have e2 : u.busy = false := by rw [← hu]; exact hb
  have e3 : hostMove u = { launch v u with host := u.host.goto (u.host.pc + 1), answer := some .ok } := by
    have hp : u.host.prog[u.host.pc]? = some (.store .word 0x008 w) := by rw [e1]; exact h2
    unfold hostMove
    rw [hp]
    simp only [hostOp]
    rw [transact_write_register (o := 0x008) (r := .cmd) (by decide) (by decide)]
    have e4 : writeReg .cmd (w.eval u.host) u = launch v u := by
      simp only [writeReg, unlessBusy, e2, hv, e1]; rfl
    rw [e4]
    rfl
  rw [e3]
  refine ⟨rfl, rfl, takeSnapshot u, rfl, fun hle => ?_⟩
  change (snapBytes u .input u.inLen.toNat).length = _
  rw [snapBytes_length]
  exact if_pos hle

/-- Since a launch, with no reset and no further launch: the command runs on its snapshot with DONE clear, or it has completed
and its results still stand. -/
theorem sinceLaunch_cases {v : Word} {snap : Snapshot} {s : State} (h : SinceLaunch v snap s) (hl : s.cfg.Legal) :
    snap.InputTaken s.cfg ∧
    ((s.phase = .busy snap ∧ s.cmd = v ∧ s.status.done = false) ∨
    (s.phase = .idle ∧ ∃ u u', u.cfg = s.cfg ∧ u.phase = .busy snap ∧ u.cmd = v ∧ engineMove u = .next u' ∧
      SameResults u' s)) := by
  induction h with
  | launched s t hst hb hs hp =>
    obtain ⟨a1, a2, snap', a3, a4⟩ := step_launch hst hb hs
    rw [hp] at a3
    cases a3
    exact ⟨a4, .inl ⟨hp, a1, a2⟩⟩
  | later s t _ hs h1 h2 h3 ih =>
    rw [step_cfg hs] at hl ⊢
    obtain ⟨htook, ih⟩ := ih hl
    refine ⟨htook, ?_⟩
    rcases step_between hs hl h1 h2 h3 with ⟨a1, a2, a3, a4⟩ | ⟨hb, he⟩
    · rcases ih with ⟨b1, b2, b3⟩ | ⟨b1, u, u', c1, c2, c3, c4, c5⟩
      · exact .inl ⟨a1.trans b1, a2.trans b2, a3 b3⟩
      · exact .inr ⟨a1.trans b1, u, u', c1, c2, c3, c4, c5.trans a4⟩
    · rcases ih with ⟨b1, b2, b3⟩ | ⟨b1, _⟩
      · refine .inr ⟨?_, { s with turns := s.turns.tail }, t, rfl, b1, b2, he.engineMove, .refl t⟩
        obtain ⟨r, hr, -⟩ := engineMove_outcome (u := { s with turns := s.turns.tail }) b1 he.engineMove
        rw [hr]
        cases r <;> rfl
      · have := (idle_iff s).2 b1
        simp [this] at hb

end Sys2Proof.Machine
end

