-- ==== Sys2Proof/Laws/PerInstr.lean ====
section
/-! SUPPORT. One statement for each command, about its encoding (30_encoding.md R90, R91, R94). -/

namespace Sys2Proof.Laws.Encoding

/-- The command word has RSVD 0 and a legal OP, it decodes to the command, and it is stored in four bytes, of which the first
is the opcode and the others are 0. -/
def Statement (i : Instr) : Prop :=
  (cmdFields (encodeWord i)).wellFormed = true ∧ decodeWord (encodeWord i) = .ok i ∧
  encode i = [(opcode i).setWidth 8, 0, 0, 0]

theorem rleEnc : Statement .rleEnc := by unfold Statement; decide

theorem rleDec : Statement .rleDec := by unfold Statement; decide

theorem lzwEnc : Statement .lzwEnc := by unfold Statement; decide

theorem lzwDec : Statement .lzwDec := by unfold Statement; decide

theorem sfEnc : Statement .sfEnc := by unfold Statement; decide

theorem arEnc : Statement .arEnc := by unfold Statement; decide

end Sys2Proof.Laws.Encoding
end

