-- ==== Sys2Proof/Laws/Spec.lean ====
section
/-! SUPPORT. The parse of a frequency specification written as pairs, and the table it gives (30_encoding.md R106;
43_arithmetic.md R181, R183). -/

namespace Sys2Proof.Machine

/-- The table entries of some pairs. -/
def pairTable (es : List SpecPair) : FreqTable := es.map fun e => (e.1, decimal e.2)

@[simp] theorem pairTable_nil : pairTable [] = [] := rfl

@[simp] theorem pairTable_append (es fs : List SpecPair) : pairTable (es ++ fs) = pairTable es ++ pairTable fs := by
  simp [pairTable]

@[simp] theorem pairTable_length (es : List SpecPair) : (pairTable es).length = es.length := by simp [pairTable]

theorem freqTotal_pairTable (es : List SpecPair) : freqTotal (pairTable es) = pairTotal es := by
  simp [freqTotal, pairTable, pairTotal, Function.comp_def]

theorem pairTotal_append (es fs : List SpecPair) : pairTotal (es ++ fs) = pairTotal es + pairTotal fs := by
  simp [pairTotal]

theorem pairTotal_cons (e : SpecPair) (es : List SpecPair) : pairTotal (e :: es) = decimal e.2 + pairTotal es := by
  simp [pairTotal]

theorem map_fst_pairTable (es : List SpecPair) : ((pairTable es).map fun e => e.1) = es.map fun e => e.1 := by
  simp [pairTable]

theorem freqOf_pairTable_isSome (es : List SpecPair) (c : Byte) :
    (freqOf (pairTable es) c).isSome = true ↔ c ∈ es.map fun e => e.1 := by
  rw [← map_fst_pairTable]
  constructor
  · intro h
    obtain ⟨f, hf⟩ := Option.isSome_iff_exists.1 h
    exact List.mem_map_of_mem (freqOf_eq_some hf)
  · intro h
    obtain ⟨⟨b, f⟩, hm, rfl⟩ := List.mem_map.1 h
    by_contra hc
    exact freqOf_eq_none.1 (by simpa using hc) f hm

theorem isDigit_iff (c : Byte) : isDigit c = true ↔ IsDigit c := by simp [isDigit, IsDigit]

theorem decimal_snoc (ds : List Byte) (d : Byte) : decimal (ds ++ [d]) = 10 * decimal ds + (d.toNat - 0x30) := by
  simp [decimal]

/-- Digits inside a count (R181). -/
theorem specScan_digits {lim q p : Nat} {sym : Byte} {t : FreqTable} (done ds rest : List Byte)
    (h : ∀ d ∈ ds, IsDigit d) :
    specScan lim q (.inCount p sym (decimal done)) t (ds ++ rest) =
      specScan lim (q + ds.length) (.inCount p sym (decimal (done ++ ds))) t rest := by
  induction ds generalizing q done with
  | nil => simp
  | cons d ds ih =>
    rw [List.cons_append, specScan, if_pos ((isDigit_iff d).2 (h d (by simp))), ← decimal_snoc,
      ih (done ++ [d]) fun e he => h e (List.mem_cons_of_mem _ he)]
    simp only [List.append_assoc, List.cons_append, List.nil_append, List.length_cons]
    congr 1
    omega

/-- A pair up to its last digit (R181). -/
theorem specScan_pair {lim q : Nat} {t : FreqTable} {e : SpecPair} (h1 : e.2 ≠ []) (h2 : ∀ d ∈ e.2, IsDigit d)
    (rest : List Byte) :
    specScan lim q .atSym t (pairBytes e ++ rest) =
      specScan lim (q + (2 + e.2.length)) (.inCount q e.1 (decimal e.2)) t rest := by
  obtain ⟨d, ds, he⟩ := List.exists_cons_of_ne_nil h1
  rw [he] at h2
  have hd := (isDigit_iff d).2 (h2 d (by simp))
  have hdec : d.toNat - 0x30 = decimal [d] := by simp [decimal]
  simp only [pairBytes, he, List.cons_append, specScan, if_true, hd]
  rw [hdec, specScan_digits [d] ds rest fun e he => h2 e (List.mem_cons_of_mem _ he)]
  simp only [List.cons_append, List.nil_append, List.length_cons]
  congr 1
  omega

/-- What the end of a pair answers, on a table of good pairs (R181). -/
theorem specCommit_pairs {lim p v : Nat} {sym : Byte} (pre : List SpecPair) :
    specCommit lim p sym v (pairTable pre) =
      if v = 0 then .error (auxError .format p)
      else if sym ∈ pre.map fun e => e.1 then .error (auxError .format p)
      else if lim < v ∨ lim < pairTotal pre + v then .error (auxError .capacity p)
      else .ok (pairTable pre ++ [(sym, v)]) := by
  unfold specCommit
  simp only [freqOf_pairTable_isSome, freqTotal_pairTable]

theorem GoodPairs.commit {lim p : Nat} {pre : List SpecPair} {e : SpecPair} (h : GoodPairs lim (pre ++ [e])) :
    specCommit lim p e.1 (decimal e.2) (pairTable pre) = .ok (pairTable (pre ++ [e])) := by
  have h1 := h.pos e (by simp)
  have h2 := h.nodup
  have h3 := h.total
  rw [pairTotal_append, pairTotal_cons] at h3
  simp only [pairTotal, List.map_nil, List.sum_nil] at h3
  rw [List.map_append, List.nodup_append] at h2
  have hn : e.1 ∉ pre.map fun e => e.1 := fun hm => h2.2.2 _ hm _ (by simp) rfl
  rw [specCommit_pairs, if_neg (by omega), if_neg hn, if_neg (by simp only [pairTotal]; omega)]
  simp [pairTable]

theorem GoodPairs.left {lim : Nat} {es fs : List SpecPair} (h : GoodPairs lim (es ++ fs)) : GoodPairs lim es := by
  refine ⟨fun e he => h.digits e (by simp [he]), ?_, fun e he => h.pos e (by simp [he]), ?_⟩
  · have := h.nodup
    rw [List.map_append, List.nodup_append] at this
    exact this.1
  · have := h.total
    rw [pairTotal_append] at this
    omega

/-- Good pairs, each with its ',' (R181). -/
theorem specScan_pairs {lim q : Nat} (pre es : List SpecPair) (h : GoodPairs lim (pre ++ es)) (tail : List Byte) :
    specScan lim q .atSym (pairTable pre) (pairsThenComma es ++ tail) =
      specScan lim (q + (pairsThenComma es).length) .atSym (pairTable (pre ++ es)) tail := by
  induction es generalizing q pre with
  | nil => simp [pairsThenComma]
  | cons e es ih =>
    have hg : GoodPairs lim (pre ++ [e]) := by
      have e2 : pre ++ e :: es = (pre ++ [e]) ++ es := by simp
      rw [e2] at h
      exact h.left
    obtain ⟨d1, d2⟩ := hg.digits e (by simp)
    have e1 : pairsThenComma (e :: es) ++ tail = pairBytes e ++ (0x2C#8 :: (pairsThenComma es ++ tail)) := by
      simp [pairsThenComma]
    have e3 : (pairsThenComma (e :: es)).length = 2 + e.2.length + 1 + (pairsThenComma es).length := by
      simp [pairsThenComma, pairBytes]; omega
    have hc : isDigit 0x2C#8 = false := by decide
    rw [e1, specScan_pair d1 d2, specScan, hc]
    simp only [Bool.false_eq_true, if_false, if_true, hg.commit]
    rw [ih (pre ++ [e]) (by simpa using h), e3]
    simp only [List.append_assoc, List.cons_append, List.nil_append]
    congr 1
    omega

/-- The table of a specification of good pairs (R181). -/
theorem parseSpec_good {p : Params} {es : List SpecPair} {e : SpecPair} (h : GoodPairs (lim p) (es ++ [e])) :
    parseSpec p (specBytes es e) = .ok (pairTable (es ++ [e])) := by
  obtain ⟨d1, d2⟩ := h.digits e (by simp)
  have h1 := specScan_pairs (q := 0) [] es (by simpa using h.left) (pairBytes e)
  simp only [pairTable_nil, List.nil_append] at h1
  have h2 := specScan_pair (lim := lim p) (q := 0 + (pairsThenComma es).length) (t := pairTable es) d1 d2 []
  rw [List.append_nil] at h2
  rw [parseSpec, specBytes, h1, h2, specScan]
  exact h.commit

/-! ### The probability model -/

theorem cumOf_pairTable (es : List SpecPair) (c : Byte) : cumOf (pairTable es) c = countBelow es c := by
  unfold cumOf countBelow
  rw [← freqTotal_pairTable]
  congr 1
  induction es with
  | nil => rfl
  | cons e es ih =>
    simp only [pairTable, List.map_cons, List.filter_cons] at ih ⊢
    split <;> simp [ih]

/-- A symbol's interval in `T`-ths ends at the total of the symbols up to it (R183). -/
theorem countUpTo_eq {es : List SpecPair} (hn : (es.map fun e => e.1).Nodup) {c : Byte} {f : Nat}
    (h : freqOf (pairTable es) c = some f) : countUpTo es c = countBelow es c + f := by
  induction es with
  | nil => simp [pairTable, freqOf] at h
  | cons e es ih =>
    rw [List.map_cons, List.nodup_cons] at hn
    simp only [pairTable, List.map_cons, freqOf] at h
    simp only [countUpTo, countBelow, List.filter_cons] at ih ⊢
    split at h
    · rename_i hc
      cases h
      have hnot : ∀ g ∈ es, g.1 ≠ c := fun g hg hgc => hn.1 (by rw [hc, ← hgc]; exact List.mem_map_of_mem hg)
      have hfil : (es.filter fun g => decide (g.1.toNat ≤ c.toNat)) = es.filter fun g => decide (g.1.toNat < c.toNat) := by
        apply List.filter_congr
        intro g hg
        have : g.1.toNat ≠ c.toNat := fun h => hnot g hg (BitVec.eq_of_toNat_eq h)
        simp; omega
      rw [hc, hfil]
      simp [pairTotal_cons]
      omega
    · rename_i hc
      have hne : e.1.toNat ≠ c.toNat := fun h => hc (BitVec.eq_of_toNat_eq h)
      have := ih hn.2 h
      by_cases hlt : e.1.toNat < c.toNat
      · have hle : e.1.toNat ≤ c.toNat := by omega
        simp only [hlt, hle, decide_true, if_true, pairTotal_cons]
        omega
      · have hle : ¬ e.1.toNat ≤ c.toNat := by omega
        simp only [hlt, hle, decide_false, Bool.false_eq_true, if_false]
        omega

/-- The message loop over symbols that are all in the model (R185). -/
theorem arLoop_known {es : List SpecPair} (hn : (es.map fun e => e.1).Nodup) (known rest : List Byte)
    (h : ∀ c ∈ known, c ∈ es.map fun e => e.1) (i : Nat) (iv : Nat × Nat) :
    arLoop (pairTable es) i iv (known ++ rest) =
      arLoop (pairTable es) (i + known.length)
        (known.foldl (fun iv c => (iv.1 + (iv.2 - iv.1) * countBelow es c / pairTotal es,
          iv.1 + (iv.2 - iv.1) * countUpTo es c / pairTotal es)) iv) rest := by
  induction known generalizing i iv with
  | nil => simp
  | cons c cs ih =>
    obtain ⟨f, hf⟩ := Option.isSome_iff_exists.1 ((freqOf_pairTable_isSome es c).2 (h c (by simp)))
    rw [List.cons_append, arLoop, hf]
    simp only [arNarrow, freqTotal_pairTable, cumOf_pairTable, ← countUpTo_eq hn hf]
    rw [ih fun d hd => h d (List.mem_cons_of_mem _ hd)]
    simp only [List.foldl_cons, List.length_cons]
    congr 1
    omega

end Sys2Proof.Machine
end

