-- ==== Sys2Proof/Tests/Slice0.lean ====
section
/-! SUPPORT. The model's own tests, one step each, with the expected values of 95_test_vectors.md, and for every obligation
with hypotheses a concrete state that meets them. -/

set_option Elab.async false

namespace Sys2Proof.Machine.Tests

/-! ### Helpers -/

/-- The reset state with an input written and IN_LEN set. -/
def tIn (x : List Byte) : State :=
  { State.reset with inLen := BitVec.ofNat 32 x.length, mem := Memory.setBytes [] 0x1000000 x }

/-- The reset state with a message and a specification written and both lengths set. -/
def tAr (msg spec : List Byte) : State :=
  { tIn msg with
    auxLen := BitVec.ofNat 32 spec.length
    mem := (Memory.setBytes [] 0x1000000 msg).setBytes 0x2000000 spec }

/-- The state after a command. -/
def after (i : Instr) (s : State) : State :=
  match exec i s with
  | .next t => t
  | .fault _ => s
  | .refused _ => s

/-- The state after one step. -/
def stepped (s : State) : State :=
  match step s with
  | .next t => t
  | .fault _ => s
  | .refused _ => s

/-- The first `n` bytes of OUT, and of TAB. -/
def outBytes (n : Nat) (s : State) : List (Option Byte) := (List.range n).map fun j => s.mem.get (0x3000000 + j)
def tabBytes (n : Nat) (s : State) : List (Option Byte) := (List.range n).map fun j => s.mem.get (0x1000 + j)

/-- STATUS and ERR_POS, as the error vectors list them. -/
def errorOf (s : State) : Word × Word := (s.statusWord, s.res.errPos)

/-- A host program of one line. -/
def tHost (op : HostOp) (s : State) : State := { s with host := { s.host with prog := [op] } }

def abra : List Byte := [0x41, 0x42, 0x52, 0x41, 0x43, 0x41, 0x44, 0x41, 0x42, 0x52, 0x41]
def runs13 : List Byte := [0x41, 0x41, 0x41, 0x41, 0x41, 0x42, 0x42, 0x42, 0x43, 0x43, 0x44, 0x41, 0x41]
def spec3 : List Byte := [0x61, 0x3A, 0x32, 0x2C, 0x62, 0x3A, 0x37, 0x2C, 0x63, 0x3A, 0x31]

/-! ### Well-formedness: each check refuses an ill-formed term (R9, R90, R91) -/

theorem test_op_zero_refused : (CmdFields.mk 0 0).opLegal = false := by decide
theorem test_op_seven_refused : (CmdFields.mk 7 0).opLegal = false := by decide
theorem test_rsvd_refused : (CmdFields.mk 1 1).rsvdZero = false := by decide
theorem test_fields_refused : (CmdFields.mk 1 1).wellFormed = false ∧ (CmdFields.mk 0 0).wellFormed = false := by decide
theorem test_six_fields_accepted : ∀ o : Fin 6, (CmdFields.mk (BitVec.ofNat 4 (o + 1)) 0).wellFormed = true := by decide
theorem test_nIn_small_refused : { Params.default with nIn := 3 }.legal = false := by decide
theorem test_nIn_large_refused : { Params.default with nIn := 2 ^ 22 + 1, nOut := 2 ^ 24 }.legal = false := by decide
theorem test_nAux_small_refused : { Params.default with nAux := 0 }.legal = false := by decide
theorem test_nAux_large_refused : { Params.default with nAux := 2 ^ 24 + 1 }.legal = false := by decide
theorem test_nOut_small_refused : { Params.default with nOut := 16383 }.legal = false := by decide
theorem test_nOut_large_refused : { Params.default with nOut := 2 ^ 24 + 1 }.legal = false := by decide
theorem test_dictBits_small_refused : { Params.default with dictBits := 8 }.legal = false := by decide
theorem test_dictBits_large_refused : { Params.default with dictBits := 17 }.legal = false := by decide
theorem test_arP_small_refused : { Params.default with arP := 7 }.legal = false := by decide
theorem test_arP_large_refused : { Params.default with arP := 63 }.legal = false := by decide
theorem test_default_accepted : Params.default.legal = true := by decide

/-! ### Decoding: the words of R91, bit by bit (RSVD in bits 31:4, OP in bits 3:0), and as bytes -/

theorem test_decode_rleEnc : decodeWord 0b00000000000000000000000000000001#32 = .ok .rleEnc := by decide
theorem test_decode_rleDec : decodeWord 0b00000000000000000000000000000010#32 = .ok .rleDec := by decide
theorem test_decode_lzwEnc : decodeWord 0b00000000000000000000000000000011#32 = .ok .lzwEnc := by decide
theorem test_decode_lzwDec : decodeWord 0b00000000000000000000000000000100#32 = .ok .lzwDec := by decide
theorem test_decode_sfEnc : decodeWord 0b00000000000000000000000000000101#32 = .ok .sfEnc := by decide
theorem test_decode_arEnc : decodeWord 0b00000000000000000000000000000110#32 = .ok .arEnc := by decide
theorem test_decode_bytes : decode [0x03, 0x00, 0x00, 0x00, 0x55] = .ok (.lzwEnc, [0x55]) := by decide
theorem test_decode_too_short : decode [0x03, 0x00, 0x00] = .error .tooShort := by decide
theorem test_decode_reserved_op :
    decodeWord 0#32 = .error .reservedOp ∧ decodeWord 7#32 = .error .reservedOp ∧
    decodeWord 15#32 = .error .reservedOp := by decide
theorem test_decode_reserved_bits :
    decodeWord 0x11#32 = .error .reservedBits ∧ decodeWord 0x80000006#32 = .error .reservedBits := by decide
theorem test_table_word : decodeTableWord 32 5 = some .sfEnc ∧ decodeTableWord 32 0x11 = none := by decide

/-! ### The commands -/

/-- E1. -/
theorem test_rleEnc :
    outBytes 21 (after .rleEnc (tIn runs13)) =
      ([0x41, 5, 0, 0, 0x42, 3, 0, 0, 0x43, 2, 0, 0, 0x44, 1, 0, 0, 0x41, 2, 0, 0].map some ++ [none]) ∧
    (after .rleEnc (tIn runs13)).res =
      { ResultRegs.zero with outLen := 20, resOrig := 13, resComp := 10, resRatio := 0x00014CCC, resCount := 5 } := by
  decide +kernel

/-- 2.1: a count of ten costs two digits. -/
theorem test_rleEnc_ten :
    (after .rleEnc (tIn (List.replicate 10 0x41 ++ [0x42]))).res =
      { ResultRegs.zero with outLen := 8, resOrig := 11, resComp := 5, resRatio := 0x00023333, resCount := 2 } := by
  decide +kernel

/-- 2.2: adjacent records of one symbol. -/
theorem test_rleDec :
    outBytes 6 (after .rleDec (tIn [0x41, 2, 0, 0, 0x41, 3, 0, 0])) = List.replicate 5 (some 0x41) ++ [none] ∧
    (after .rleDec (tIn [0x41, 2, 0, 0, 0x41, 3, 0, 0])).res =
      { ResultRegs.zero with outLen := 5, resOrig := 5, resCount := 2 } := by decide +kernel

/-- 2.2: COUNT 0 at the second record, a length that is no multiple of 4, and an output over N_OUT. -/
theorem test_rleDec_errors :
    errorOf (after .rleDec (tIn [0x41, 2, 0, 0, 0x42, 0, 0, 0])) = (0x206, 4) ∧
    errorOf (after .rleDec (tIn [0x41, 2, 0, 0, 0x42, 3])) = (0x206, 0) ∧
    errorOf (after .rleDec (tIn [0x41, 0xFF, 0xFF, 0xFF])) = (0x506, 0) := by decide +kernel

/-- E3. -/
theorem test_lzwEnc :
    outBytes 19 (after .lzwEnc (tIn [0x41, 0x42, 0x41, 0x42, 0x42, 0x41, 0x42, 0x43, 0x41, 0x42, 0x41, 0x42, 0x42, 0x41])) =
      ([0x41, 0, 0x42, 0, 0, 1, 1, 1, 0x42, 0, 0x43, 0, 0, 1, 2, 1, 0x41, 0].map some ++ [none]) ∧
    (after .lzwEnc (tIn [0x41, 0x42, 0x41, 0x42, 0x42, 0x41, 0x42, 0x43, 0x41, 0x42, 0x41, 0x42, 0x42, 0x41])).res =
      { ResultRegs.zero with outLen := 18, resOrig := 14, resCount := 9, resDict := 264 } := by decide +kernel

/-- 2.3: `AAAAAAA`. -/
theorem test_lzwEnc_self :
    outBytes 8 (after .lzwEnc (tIn (List.replicate 7 0x41))) = [0x41, 0, 0, 1, 1, 1, 0x41, 0].map some ∧
    (after .lzwEnc (tIn (List.replicate 7 0x41))).res.resDict = 259 := by decide +kernel

/-- E4. -/
theorem test_lzwDec_self :
    outBytes 4 (after .lzwDec (tIn [0x41, 0, 0, 1])) = [some 0x41, some 0x41, some 0x41, none] ∧
    (after .lzwDec (tIn [0x41, 0, 0, 1])).res =
      { ResultRegs.zero with outLen := 3, resOrig := 3, resCount := 2, resDict := 257 } := by decide +kernel

/-- 2.4: a first code that is no seed, a code over `nextCode`, a code at the cap, an odd length. -/
theorem test_lzwDec_errors :
    errorOf (after .lzwDec (tIn [0, 1])) = (0x206, 0) ∧
    errorOf (after .lzwDec (tIn [0x41, 0, 0x42, 0, 2, 1, 0x41, 0, 0, 1])) = (0x206, 4) ∧
    errorOf (after .lzwDec (tIn [0x41, 0, 0, 0x10])) = (0x206, 2) ∧
    errorOf (after .lzwDec (tIn [0x41, 0, 0])) = (0x206, 0) := by decide +kernel

/-- 2.5: `ABRACADABRA`. -/
theorem test_sfEnc :
    outBytes 6 (after .sfEnc (tIn abra)) = [some 0x89, some 0xC1, some 0x0C, some 0x4E, some 0x00, none] ∧
    tabBytes 9 (after .sfEnc (tIn abra)) = ([0x43, 0, 3, 0, 1, 0, 0, 0, 0x44] : List Byte).map some ∧
    (after .sfEnc (tIn abra)).res =
      { ResultRegs.zero with
        outLen := 5, resOrig := 88, resComp := 33, resRatio := 0x0002AAAA, resCount := 5, resWidth := 3 } := by
  decide +kernel

/-- 2.5: one symbol has the codeword 1; a tie goes by byte value. -/
theorem test_sfEnc_small :
    outBytes 2 (after .sfEnc (tIn [0x41, 0x41, 0x41])) = [some 0xE0, none] ∧
    tabBytes 9 (after .sfEnc (tIn [0x41, 0x41, 0x41])) = ([0x41, 1, 1, 0, 3, 0, 0, 0] : List Byte).map some ++ [none] ∧
    outBytes 1 (after .sfEnc (tIn [0x42, 0x41])) = [some 0x80] := by decide +kernel

/-- 2.6: `abc` under `a:2,b:7,c:1`. -/
theorem test_arEnc :
    (after .arEnc (tAr [0x61, 0x62, 0x63] spec3)).res =
      { ResultRegs.zero with
        resOrig := 3, resComp := 10, resCount := 3, arLow := 0x2A7EF9DA, arHigh := 0x2E147AE1, arVal := 0x2C49BA5D } ∧
    (after .arEnc (tAr [0x63] spec3)).res.arHigh = 0x100000000 ∧
    (after .arEnc (tAr [0x63] spec3)).statusWord = 0x2 := by decide +kernel

/-- 2.6: a trailing comma, junk, an unknown symbol, an empty specification, a total over LIM at the second pair. -/
theorem test_arEnc_errors :
    errorOf (after .arEnc (tAr [0x61] [0x61, 0x3A, 0x32, 0x2C])) = (0x1206, 4) ∧
    errorOf (after .arEnc (tAr [0x61] [0x61, 0x3A, 0x31, 0x3B, 0x62, 0x3A, 0x32])) = (0x1206, 3) ∧
    errorOf (after .arEnc (tAr [0x61, 0x62, 0x64] spec3)) = (0x306, 2) ∧
    errorOf (after .arEnc (tAr [0x61] [])) = (0x1106, 0) ∧
    errorOf (after .arEnc (tAr [0x61] [0x61, 0x3A, 0x31, 0x30, 0x37, 0x33, 0x37, 0x34, 0x31, 0x38, 0x32, 0x34, 0x2C, 0x62,
      0x3A, 0x31])) = (0x1506, 13) := by decide +kernel

/-! ### Launch, completion, port and reset -/

/-- 2.7: an illegal word completes, even with IN_LEN = 0, and CMD keeps it. -/
theorem test_illegal_word :
    errorOf (stepped (State.reset.withFetchWord 32 0x80000006)) = (0x406, 0) ∧
    (stepped (State.reset.withFetchWord 32 0x80000006)).cmd = 0x80000006#32 := by decide +kernel

/-- The step after a launch runs the command; from reset it reports the empty input. -/
theorem test_fetch_word : errorOf (stepped (State.reset.withFetchWord 32 1)) = (0x106, 0) := by decide +kernel

/-- 2.7: a STATUS write of all ones clears DONE and DROPPED only. -/
theorem test_status_w1c :
    (transact (.write 0x00C .word 0xFFFFFFFF)
      { State.reset with status := { Status.zero with done := true, dropped := true } }).statusWord = 0 ∧
    (transact (.write 0x00C .word 2) (stepped (State.reset.withFetchWord 32 7))).statusWord = 0x404 := by decide +kernel

/-- 2.8. -/
theorem test_port_reads :
    portRead 0x000 .word State.reset = some 0xC0DEC001 ∧ portRead 0x050 .word State.reset = some 0x0000200C ∧
    portRead 0x054 .word State.reset = some 0x1000 ∧ portRead 0x05C .word State.reset = some 0x4000 ∧
    portRead 0x060 .word State.reset = none ∧ portRead 0xFFC .word State.reset = none ∧
    portRead 0x000 .byte State.reset = none ∧ portRead 0x002 .word State.reset = none ∧
    portRead 0x1001800 .word State.reset = none ∧ portRead 0x1001000 .byte State.reset = none := by decide +kernel

/-- E1 and P3: OUT and TAB through the host port, of each size. -/
theorem test_port_reads_outputs :
    portRead 0x3000000 .word (after .rleEnc (tIn runs13)) = some 0x00000541 ∧
    portRead 0x3000008 .half (after .rleEnc (tIn runs13)) = some 0x0243 ∧
    portRead 0x3000010 .byte (after .rleEnc (tIn runs13)) = some 0x41 ∧
    portRead 0x1020 .word (after .sfEnc (tIn abra)) = some 0x00030441 ∧
    portRead 0x1024 .word (after .sfEnc (tIn abra)) = some 5 := by decide +kernel

/-- 2.8. -/
theorem test_port_writes :
    (transact (.write 0x1000001 .half 0x4242) State.reset).answer = some .busError ∧
    (transact (.write 0x1000FFC .word 1) State.reset).answer = some .ok ∧
    (transact (.write 0x3000000 .byte 0) State.reset).answer = some .busError ∧
    (transact (.write 0x1000 .word 0) State.reset).answer = some .busError ∧
    portRead 0x1000001 .byte (transact (.write 0x1000000 .word 0x44434241) State.reset) = some 0x42 := by decide +kernel

/-- 2.8: a write to IN while BUSY is dropped. -/
theorem test_dropped_write :
    (transact (.write 0x1000000 .byte 0x41) (launch 1 (tIn [0x42]))).mem.get 0x1000000 = some 0x42 ∧
    (transact (.write 0x1000000 .byte 0x41) (launch 1 (tIn [0x42]))).status.dropped = true := by decide +kernel

/-- 2.7, 2.9: a soft reset while BUSY, with IRQ_EN set in the same write. -/
theorem test_soft_reset :
    (transact (.write 0x004 .word 3) (launch 1 (tIn [0x42]))).ctrlWord = 1 ∧
    (transact (.write 0x004 .word 3) (launch 1 (tIn [0x42]))).statusWord = 0 ∧
    (transact (.write 0x004 .word 3) (launch 1 (tIn [0x42]))).mem.get 0x1000000 = some 0x42 := by decide +kernel

/-- A hardware reset abandons a command and forgets every byte. -/
theorem test_hard_reset :
    (hardReset (launch 1 (tIn [0x42]))).busy = false ∧ (hardReset (launch 1 (tIn [0x42]))).mem = [] := by decide +kernel

/-- R110: a load writes its variable and goes on; a branch on a mask. -/
theorem test_host_ops :
    (stepped (tHost (.load .word 3 0x000) State.reset)).host.get 3 = 0xC0DEC001#32 ∧
    (stepped (tHost (.bnz 0 0x2 5) State.reset)).host.pc = 1 ∧
    (stepped (tHost (.bz 0 0x2 5) State.reset)).host.pc = 5 := by decide +kernel

/-- P5: a load answered by a bus error leaves its variable. -/
theorem test_host_bus_error :
    (stepped (tHost (.load .word 3 0x060) State.reset)).answer = some .busError ∧
    (stepped (tHost (.load .word 3 0x060) State.reset)).host.get 3 = 0#32 := by decide +kernel

/-! ## Witnesses: for every obligation with hypotheses, a concrete state and operands that meet them -/

theorem legal_default : Params.default.Legal := by constructor <;> decide

/-- The smallest instance there is. -/
def small : Params := { nIn := 4, nAux := 1, nOut := 16, dictBits := 9, arP := 8 }

theorem legal_small : small.Legal := by constructor <;> decide

/-- An instance whose IN is no whole number of words. -/
def odd : Params := { Params.default with nIn := 5 }

theorem legal_odd : odd.Legal := by constructor <;> decide

/-- RLE_ENC launched on one byte. -/
def tBusy : State := launch 1 (tIn [0x41])

theorem next_stepped (s : State) (h : ∃ t, step s = .next t) : step s = .next (stepped s) := by
  obtain ⟨t, h⟩ := h
  rw [stepped, h]

theorem witness_LegalWordsAreTheSixOpcodes : decodeWord 6#32 = .ok .arEnc := by decide

theorem witness_DecodeAndEncodeAreInverse : decode [0x06, 0, 0, 0, 0xFF] = .ok (.arEnc, [0xFF]) := by decide

theorem witness_StepRunsTheDecodedCommand :
    tBusy.phase = .busy (takeSnapshot (tIn [0x41])) ∧ decodeWord tBusy.cmd = .ok .rleEnc ∧ tBusy.turns = [] ∧
    { tBusy with turns := [.engine, .host] }.turns = [.engine, .host] := ⟨rfl, by decide, rfl, rfl⟩

theorem witness_StepIsOneAgentsMove :
    { State.reset with turns := [.host] }.turns = [.host] ∧ { tBusy with turns := [.hardReset] }.turns = [.hardReset] ∧
    { State.reset with turns := [.engine] }.turns = [.engine] ∧ State.reset.turns = [] ∧
    State.reset.phase = .idle := ⟨rfl, rfl, rfl, rfl, rfl⟩

theorem witness_LaunchedWordRunsNext : decodeTableWord 32 6 = some .arEnc := by decide

theorem witness_IllegalWordCompletesWithError :
    (launch 0 State.reset).cfg.Legal ∧ (launch 0 State.reset).phase = .busy (takeSnapshot State.reset) ∧
    ∀ v ∈ [0#32, 7#32, 15#32, 0x10#32, 0x11#32, 0x80000006#32], ¬ ((launch v State.reset).cmd.toNat / 16 = 0 ∧
      1 ≤ (launch v State.reset).cmd.toNat % 16 ∧ (launch v State.reset).cmd.toNat % 16 ≤ 6) :=
  ⟨legal_default, rfl, by
    have h : ∀ v ∈ [0#32, 7#32, 15#32, 0x10#32, 0x11#32, 0x80000006#32],
        ¬ (v.toNat / 16 = 0 ∧ 1 ≤ v.toNat % 16 ∧ v.toNat % 16 ≤ 6) := by simp
    exact h⟩

theorem witness_LaunchEffects : State.reset.busy = false ∧ tBusy.busy = true := by decide

theorem witness_LockedWritesAreDropped :
    tBusy.busy = true ∧ tBusy.cfg.Legal ∧ (0x1000FFC#26).toNat % Size.word.bytes = 0 ∧
    Buffer.input.base ≤ (0x1000FFC#26).toNat ∧
    (0x1000FFC#26).toNat + Size.word.bytes ≤ Buffer.input.base + Buffer.input.size tBusy.cfg ∧
    Buffer.aux.base ≤ (0x2000000#26).toNat ∧
    (0x2000FFF#26).toNat + Size.byte.bytes ≤ Buffer.aux.base + Buffer.aux.size tBusy.cfg :=
  ⟨rfl, legal_default, by decide, by decide, by decide, by decide, by decide⟩

theorem witness_LengthWritesStoreAnyValue : State.reset.busy = false := rfl

theorem witness_SoftResetEffects : (0x2#32).getLsbD 1 = true ∧ (0xFFFFFFFF#32).getLsbD 1 = true := by decide

theorem witness_CtrlWriteStoresIrqEnable : (0x1#32).getLsbD 1 = false ∧ (0xFFFFFFFD#32).getLsbD 1 = false := by decide

theorem witness_ReadOnlyRegistersIgnoreWrites :
    (0x000#26).toNat % 4 = 0 ∧ (0x000#26).toNat = 0 ∧ (0x018#26).toNat % 4 = 0 ∧ 0x018 ≤ (0x018#26).toNat ∧
    (0x05C#26).toNat % 4 = 0 ∧ (0x05C#26).toNat < 0x060 := by decide

/-- Each of the cases (a) to (e), and an access in none of them. -/
theorem witness_BusErrorsExactlyAndWithoutEffect :
    Params.default.Legal ∧ BusErrorCase Params.default (.read 0x060 .word) ∧
    BusErrorCase Params.default (.read 0x002 .word) ∧ BusErrorCase Params.default (.write 0x008 .half 1) ∧
    (odd.Legal ∧ BusErrorCase odd (.read 0x1000004 .half)) ∧ BusErrorCase Params.default (.write 0x3000000 .byte 0) ∧
    (transact (.read 0x000 .word) State.reset).answer = some (.data 0xC0DEC001) := by
  refine ⟨legal_default, .reserved (by decide) ?_, .misaligned (by decide), .narrow (by decide) (by decide),
    ⟨legal_odd, .pastEnd .input (by decide) (by decide) (by decide)⟩,
    .readOnly .out rfl (.inr rfl) (by decide) (by decide), by decide +kernel⟩
  rintro ⟨b, h, -⟩
  revert h
  cases b <;> decide

theorem witness_BufferWriteIsLittleEndian :
    State.reset.busy = false ∧ State.reset.cfg.Legal ∧ (0x2000FFC#26).toNat % Size.word.bytes = 0 ∧
    Buffer.aux.base ≤ (0x2000FFC#26).toNat ∧
    (0x2000FFC#26).toNat + Size.word.bytes ≤ Buffer.aux.base + Buffer.aux.size State.reset.cfg :=
  ⟨rfl, legal_default, by decide, by decide, by decide⟩

theorem witness_ReadsHaveNoSideEffects :
    (after .rleEnc (tIn [0x41])).cfg.Legal ∧ (after .rleEnc (tIn [0x41])).busy = false ∧
    ∀ k, k < Size.word.bytes → ¬ OutsideOutputs ((0x3000000#26).toNat + k) →
      ((after .rleEnc (tIn [0x41])).mem.get ((0x3000000#26).toNat + k)).isSome = true := by
  refine ⟨legal_default, rfl, fun k hk _ => ?_⟩
  simp only [Size.bytes] at hk
  interval_cases k <;> decide +kernel

/-- A state that a run reaches, busy, with a written byte, meets the invariant. -/
theorem inv_tBusy : tBusy.Inv := by
  have hm : tBusy.mem = [(0x1000000, 0x41#8)] := by decide
  have hg : ∀ a, (tBusy.mem.get a).isSome = true → a = 0x1000000 := by
    intro a ha
    rw [hm, Memory.get_cons] at ha
    split at ha
    · rename_i h; exact h.symm
    · simp at ha
  refine ⟨legal_default, ⟨by decide, fun a ha => ?_, by decide, fun j _ => ?_, fun j _ => ?_⟩, ?_, fun snap hs => ?_⟩
  · rw [hg a ha]; exact ⟨.input, by decide, by decide⟩
  · constructor
    · intro h
      have h2 := hg _ h
      have h3 : Buffer.out.base = 0x3000000 := rfl
      omega
    · intro h
      have h2 : tBusy.res.outLen.toNat = 0 := rfl
      omega
  · constructor
    · intro h
      have h2 := hg _ h
      have h3 : Buffer.tab.base = 0x1000 := rfl
      omega
    · intro h; exact absurd rfl h.1
  · constructor <;> decide
  · cases hs
    have s1 : ∀ b len, SnapMatches (tIn [0x41]) b len (snapBytes (tIn [0x41]) b len) := snapBytes_matches _
    have h2 : ∀ a v, tBusy.mem.get a = some v → (tIn [0x41]).mem.get a = some v := by
      intro a v h
      have h3 : (tIn [0x41]).mem = tBusy.mem := by decide
      rw [h3]; exact h
    have lift : ∀ b len, SnapMatches tBusy b len (snapBytes (tIn [0x41]) b len) := fun b len =>
      ⟨(s1 b len).1, fun j v hj hv => (s1 b len).2 j v hj (h2 _ _ hv)⟩
    exact ⟨rfl, rfl, lift .input (tIn [0x41]).inLen.toNat, lift .aux (tIn [0x41]).auxLen.toNat⟩

theorem witness_StatusWriteClearsDoneAndDropped : tBusy.Inv ∧ tBusy.busy = true := ⟨inv_tBusy, rfl⟩

theorem witness_BusyReadsOfStatusAndInputs :
    tBusy.Inv ∧ tBusy.busy = true ∧ Buffer.input.base ≤ (0x1000000#26).toNat ∧
    (0x1000000#26).toNat < Buffer.input.base + Buffer.input.size tBusy.cfg ∧
    tBusy.mem.get (0x1000000#26).toNat = some 0x41#8 := ⟨inv_tBusy, rfl, by decide, by decide, by decide⟩

theorem witness_BusyReadsOfResultsAreDraws :
    tBusy.busy = true ∧ tBusy.cfg.Legal ∧ 0x018 ≤ (0x018#26).toNat ∧ (0x04C#26).toNat < 0x050 ∧
    (0x04C#26).toNat % 4 = 0 ∧ Buffer.tab.base ≤ (0x1000#26).toNat ∧
    (0x17FF#26).toNat < Buffer.tab.base + Buffer.tab.size tBusy.cfg ∧ Buffer.out.base ≤ (0x3000000#26).toNat ∧
    (0x3003FFF#26).toNat < Buffer.out.base + Buffer.out.size tBusy.cfg ∧
    (0x3003FFC#26).toNat % Size.word.bytes = 0 ∧
    (0x3003FFC#26).toNat + Size.word.bytes ≤ Buffer.out.base + Buffer.out.size tBusy.cfg ∧
    (0x17FE#26).toNat % Size.half.bytes = 0 ∧
    (0x17FE#26).toNat + Size.half.bytes ≤ Buffer.tab.base + Buffer.tab.size tBusy.cfg :=
  ⟨rfl, legal_default, by decide, by decide, by decide, by decide, by decide, by decide, by decide, by decide, by decide,
    by decide, by decide⟩

/-- The registers; and a buffer read in each window: the record in OUT, the last TAB word of the first entry, an IN byte, and
the last aligned half of a specification. -/
theorem witness_IdleRegisterReads :
    (after .arEnc (tAr [0x63] spec3)).busy = false ∧ (after .sfEnc (tIn [0x41, 0x41, 0x41])).cfg.Legal ∧
    (after .sfEnc (tIn [0x41, 0x41, 0x41])).busy = false ∧
    (∀ k, k < Size.word.bytes → (after .sfEnc (tIn [0x41, 0x41, 0x41])).mem.get (Buffer.tab.base + 4 + k) =
      ([3, 0, 0, 0] : List Byte)[k]?) ∧
    (∀ k, k < Size.byte.bytes → (after .sfEnc (tIn [0x41, 0x41, 0x41])).mem.get (Buffer.out.base + 0 + k) =
      ([0xE0] : List Byte)[k]?) ∧
    (∀ k, k < Size.byte.bytes → (after .sfEnc (tIn [0x41, 0x41, 0x41])).mem.get (Buffer.input.base + 2 + k) =
      ([0x41] : List Byte)[k]?) ∧
    (∀ k, k < Size.half.bytes → (tAr [0x63] spec3).mem.get (Buffer.aux.base + 8 + k) =
      ([0x63, 0x3A] : List Byte)[k]?) := by
  refine ⟨rfl, legal_default, rfl, ?_, ?_, ?_, ?_⟩ <;> decide +kernel

theorem witness_ConfigurationRegisterReads :
    Params.default.Legal ∧ small.Legal ∧ step tBusy = .next (stepped tBusy) := ⟨legal_default, legal_small, rfl⟩

/-- One line of each kind. -/
theorem witness_HostOperations :
    ∀ op ∈ [HostOp.load .half 3 0x1000000, .store .byte 0x1000000 (.const 0x41), .store .word 0x010 (.var 2),
        .bnz 7 0x2 0, .bz 7 0x0 5],
      (tHost op State.reset).host.prog[(tHost op State.reset).host.pc]? = some op := fun _ _ => rfl

theorem witness_HardwareResetState : ∃ s, hardReset tBusy = hardReset s := ⟨tBusy, rfl⟩

/-- The host's write of a word, as the next step. -/
def tStore (o : Offset) (v : Word) (s : State) : State := tHost (.store .word o (.const v)) { s with turns := [.host] }

theorem hostStores_tStore (o : Offset) (v : Word) (s : State) (h : s.host.pc = 0) : HostStores (tStore o v s) o v := by
  refine ⟨rfl, .const v, ?_, rfl⟩
  simp [tStore, tHost, h]

theorem witness_PhaseTransitions :
    (step (tStore 0x008 1 State.reset) = .next (stepped (tStore 0x008 1 State.reset)) ∧
      (tStore 0x008 1 State.reset).busy = false ∧ (stepped (tStore 0x008 1 State.reset)).busy = true ∧
      HostStores (tStore 0x008 1 State.reset) 0x008 1) ∧
    (step tBusy = .next (stepped tBusy) ∧ tBusy.busy = true ∧ (stepped tBusy).busy = false ∧ tBusy.mover = .engine) ∧
    (step (tStore 0x004 2 tBusy) = .next (stepped (tStore 0x004 2 tBusy)) ∧
      HostStores (tStore 0x004 2 tBusy) 0x004 2 ∧ (2#32).getLsbD 1 = true ∧
      (stepped (tStore 0x004 2 tBusy)).busy = false) ∧
    (step { tBusy with turns := [.hardReset] } = .next (stepped { tBusy with turns := [.hardReset] }) ∧
      { tBusy with turns := [.hardReset] }.mover = .hardReset) :=
  ⟨⟨rfl, rfl, rfl, hostStores_tStore _ _ _ rfl⟩, ⟨rfl, rfl, rfl, rfl⟩, ⟨rfl, hostStores_tStore _ _ _ rfl, by decide, rfl⟩,
    ⟨rfl, rfl⟩⟩

/-- A state in which a command has ended, with DROPPED and the interrupt enabled. -/
def tDone : State :=
  { State.reset with irqEn := true, status := { Status.zero with done := true, dropped := true } }

theorem witness_DroppedIsSticky :
    step (tStore 0x00C 0x10 tDone) = .next (stepped (tStore 0x00C 0x10 tDone)) ∧
    (tStore 0x00C 0x10 tDone).status.dropped = true ∧ (stepped (tStore 0x00C 0x10 tDone)).status.dropped = false := by
  refine ⟨rfl, rfl, ?_⟩
  decide +kernel

theorem witness_ResultsStayUntilLaunchOrReset :
    step (tStore 0x010 5 tDone) = .next (stepped (tStore 0x010 5 tDone)) ∧ (tStore 0x010 5 tDone).cfg.Legal ∧
    (tStore 0x010 5 tDone).busy = false := ⟨rfl, legal_default, rfl⟩

theorem witness_IrqRisesAndFallsAsStated :
    (step { tBusy with irqEn := true } = .next (stepped { tBusy with irqEn := true }) ∧
      { tBusy with irqEn := true }.mover = .engine ∧ { tBusy with irqEn := true }.irq = false ∧
      (stepped { tBusy with irqEn := true }).irq = true) ∧
    (step (tStore 0x004 1 { tDone with irqEn := false }) =
        .next (stepped (tStore 0x004 1 { tDone with irqEn := false })) ∧
      HostStores (tStore 0x004 1 { tDone with irqEn := false }) 0x004 1 ∧
      (tStore 0x004 1 { tDone with irqEn := false }).irq = false ∧
      (stepped (tStore 0x004 1 { tDone with irqEn := false })).irq = true) ∧
    (step (tStore 0x00C 2 tDone) = .next (stepped (tStore 0x00C 2 tDone)) ∧
      HostStores (tStore 0x00C 2 tDone) 0x00C 2 ∧ (2#32).getLsbD 1 = true ∧ (tStore 0x00C 2 tDone).irq = true ∧
      (stepped (tStore 0x00C 2 tDone)).irq = false) ∧
    (HostStores (tStore 0x008 1 tDone) 0x008 1 ∧ (tStore 0x008 1 tDone).busy = false ∧
      (stepped (tStore 0x008 1 tDone)).irq = false) ∧
    ({ tDone with turns := [.hardReset] }.mover = .hardReset ∧
      (stepped { tDone with turns := [.hardReset] }).irq = false) := by
  refine ⟨⟨rfl, rfl, rfl, ?_⟩, ⟨rfl, hostStores_tStore _ _ _ rfl, rfl, ?_⟩,
    ⟨rfl, hostStores_tStore _ _ _ rfl, by decide, rfl, ?_⟩, ⟨hostStores_tStore _ _ _ rfl, rfl, ?_⟩, ⟨rfl, ?_⟩⟩ <;>
    decide +kernel

theorem witness_InputsChangeOnlyByHostWhileIdle :
    step (tStore 0x1000000 1 State.reset) = .next (stepped (tStore 0x1000000 1 State.reset)) ∧
    0x1000000 ≤ 0x1000000 ∧ 0x1000000 < 0x3000000 ∧
    (stepped (tStore 0x1000000 1 State.reset)).mem.get 0x1000000 ≠
      (tStore 0x1000000 1 State.reset).mem.get 0x1000000 := by
  refine ⟨rfl, by decide, by decide, ?_⟩
  decide +kernel

theorem witness_StepKeepsTheInvariant : tBusy.Inv ∧ step tBusy = .next (stepped tBusy) := ⟨inv_tBusy, rfl⟩

theorem witness_StepKeepsMemoryCanonical : tBusy.mem.wf = true ∧ step tBusy = .next (stepped tBusy) :=
  ⟨by decide, rfl⟩

theorem witness_OutcomeDependsOnTheSnapshotAlone :
    (tIn [0x41]).cfg = tBusy.cfg ∧ (tIn [0x41]).cfg.Legal ∧ (tIn [0x41]).snapshot = tBusy.snapshot ∧
    exec .rleEnc (tIn [0x41]) = .next (after .rleEnc (tIn [0x41])) ∧
    exec .rleEnc tBusy = .next (after .rleEnc tBusy) := ⟨rfl, legal_default, rfl, rfl, rfl⟩

/-- A host that launches RLE_ENC on one byte and then reads STATUS; the engine moves between the two. -/
def tRun : State :=
  { tIn [0x41] with host := { HostAgent.idle with prog := [.store .word 0x008 (.const 1), .load .word 7 0x00C] } }

/-- The word of an answer. -/
def dataOf : Option Answer → Word
  | some (.data w) => w
  | some .ok | some .busError | none => 0

/-- An ended command, and a state whose completion it agrees with. -/
theorem witness_OutcomeDependsOnTheSnapshotAlone_end :
    CommandEnds 1 (takeSnapshot (tIn [0x41])) (stepped (stepped tRun)) (stepped (stepped (stepped tRun))) ∧
    (stepped (stepped (stepped tRun))).cfg.Legal ∧ tBusy.cfg = (stepped (stepped (stepped tRun))).cfg ∧
    tBusy.cmd = 1 ∧ tBusy.phase = .busy (takeSnapshot (tIn [0x41])) ∧
    engineMove tBusy = .next (after .rleEnc tBusy) := by
  have h1 : SinceLaunch 1 (takeSnapshot (tIn [0x41])) (stepped tRun) :=
    .launched tRun _ ⟨rfl, .const 1, rfl, rfl⟩ rfl rfl rfl
  have hm : (stepped tRun).mover = .engine := rfl
  have h2 : SinceLaunch 1 (takeSnapshot (tIn [0x41])) (stepped (stepped tRun)) :=
    .later _ _ h1 rfl (by rw [hm]; decide) (fun w h => by have := h.1; rw [hm] at this; cases this)
      (fun w h => by have := h.1; rw [hm] at this; cases this)
  refine ⟨⟨h2, rfl, ⟨7, rfl⟩, rfl, dataOf (stepped (stepped (stepped tRun))).answer, rfl, ?_⟩, legal_default, rfl, rfl, rfl, rfl⟩
  decide +kernel

theorem witness_OnlyArEncReadsAux :
    Instr.sfEnc ≠ .arEnc ∧ (tIn [0x41]).cfg = (tAr [0x41] spec3).cfg ∧
    (tIn [0x41]).snapshot.inLen = (tAr [0x41] spec3).snapshot.inLen ∧
    (tIn [0x41]).snapshot.input = (tAr [0x41] spec3).snapshot.input ∧
    exec .sfEnc (tIn [0x41]) = .next (after .sfEnc (tIn [0x41])) ∧
    exec .sfEnc (tAr [0x41] spec3) = .next (after .sfEnc (tAr [0x41] spec3)) :=
  ⟨by decide, rfl, rfl, by decide +kernel, rfl, rfl⟩

theorem witness_EveryCommandCompletesWithItsFrame : tBusy.cfg.Legal ∧ tBusy.SnapshotOk :=
  ⟨legal_default, inv_tBusy.snapshot⟩

/-- The input byte, which RLE_ENC does not store to, and the byte after its four OUT bytes. -/
theorem witness_CommandsStoreOnlyTheirOutputBytes :
    tBusy.Inv ∧ tBusy.busy = true ∧ exec .rleEnc tBusy = .next (after .rleEnc tBusy) ∧
    (∀ a ∈ [0x1000000, 0x3000004], ¬ (Buffer.out.base ≤ a ∧
      a < Buffer.out.base + (after .rleEnc tBusy).res.outLen.toNat)) ∧
    ∀ a ∈ [0x1000000, 0x3000004], ¬ (Instr.rleEnc = .sfEnc ∧ Buffer.tab.base ≤ a ∧
      a < Buffer.tab.base + 8 * (after .rleEnc tBusy).res.resCount.toNat) := by
  refine ⟨inv_tBusy, rfl, rfl, ?_, ?_⟩ <;> decide +kernel

theorem witness_ErrorsLeaveNoPartialResult :
    (tIn []).cfg.Legal ∧ exec .lzwDec (tIn []) = .next (after .lzwDec (tIn [])) ∧
    (after .lzwDec (tIn [])).status.err = true := by
  refine ⟨legal_default, rfl, ?_⟩
  decide +kernel

theorem witness_ErrorsOfEachCommand :
    exec .arEnc (tAr [0x64] spec3) = .next (after .arEnc (tAr [0x64] spec3)) ∧
    (after .arEnc (tAr [0x64] spec3)).status.errCode = .unknownSymbol ∧
    (after .lzwDec (tIn [0, 1])).status.errCode = .format ∧ (after .sfEnc (tIn [])).status.errCode = .emptyInput ∧
    (after .sfEnc { tIn [] with inLen := 4097 }).status.errCode = .capacity := by
  refine ⟨rfl, ?_, ?_, ?_, ?_⟩ <;> decide +kernel

/-- One state for each eager check, at its boundary. -/
theorem witness_EagerChecksInOrder :
    State.reset.cfg.Legal ∧ (tIn []).snapshot.inLen.toNat = 0 ∧
    { State.reset with inLen := 4097 }.snapshot.inLen.toNat = State.reset.cfg.nIn + 1 ∧
    { State.reset with inLen := 4096, auxLen := 0 }.snapshot.inLen.toNat ≤ State.reset.cfg.nIn ∧
    { State.reset with inLen := 4096, auxLen := 0 }.snapshot.auxLen.toNat = 0 ∧
    { State.reset with inLen := 4096, auxLen := 4097 }.snapshot.auxLen.toNat = State.reset.cfg.nAux + 1 ∧
    (tIn [0x41, 0, 0]).snapshot.inLen.toNat % 4 ≠ 0 ∧ (tIn [0x41, 0, 0]).snapshot.inLen.toNat % 2 ≠ 0 :=
  ⟨legal_default, rfl, rfl, by decide, rfl, rfl, by decide, by decide⟩

theorem witness_UnnamedResultsAreZero : exec .arEnc (tAr [0x61] spec3) = .next (after .arEnc (tAr [0x61] spec3)) := rfl

theorem witness_LengthWriteRacesWithCompletion :
    (tStore 0x010 5 tBusy).busy = true ∧
    (tStore 0x010 5 tBusy).host.prog[(tStore 0x010 5 tBusy).host.pc]? = some (.store .word 0x010 (.const 5)) :=
  ⟨rfl, rfl⟩

/-! ### RLE -/

theorem inputIs_runs13 : InputIs (tIn runs13) runs13 :=
  ⟨legal_default, by decide +kernel, by decide, by decide, by decide⟩

theorem witness_RleEncCompletes : InputIs (tIn runs13) runs13 := inputIs_runs13

/-- RLE_ENC running on 458752 equal bytes, on an instance whose IN holds them. -/
def tLong : State :=
  { State.reset with
    cfg := { Params.default with nIn := 2 ^ 19, nOut := 2 ^ 21 }
    inLen := 458752
    cmd := 1
    phase := .busy { inLen := 458752, auxLen := 0, input := List.replicate 458752 0x41#8, aux := [] } }

theorem witness_RleRatioSaturatesFrom458752 :
    InputIs tLong (List.replicate 458752 0x41#8) ∧ exec .rleEnc tLong = .next (after .rleEnc tLong) ∧
    (after .rleEnc tLong).res.resRatio = 0xFFFFFFFF#32 := by
  have hl : (List.replicate 458752 0x41#8).length = 458752 := List.length_replicate
  have hi : InputIs tLong (List.replicate 458752 0x41#8) := by
    refine ⟨by constructor <;> decide, rfl, by rw [hl]; rfl, by rw [hl]; decide, by rw [hl]; decide⟩
  refine ⟨hi, rfl, ?_⟩
  have hr : rleRuns (List.replicate 458752 0x41#8) = [(0x41#8, 458752)] := by
    have e : 458752 = 458751 + 1 := rfl
    rw [e, List.replicate_succ, rleRuns, rleScan_replicate]
  have he : runRleEnc tLong.cfg tLong.snapshot = .ok (rleEncResult (List.replicate 458752 0x41#8)) := by
    rw [runRleEnc, afterEager_pass hi (Nat.mod_one _), hi.bytes]
  have ha : after .rleEnc tLong = finish (runRleEnc tLong.cfg tLong.snapshot) tLong := rfl
  rw [ha, he]
  simp only [finish, succeed_res, CmdResult.regs, rleEncResult, hr, hl]
  decide +kernel

theorem witness_RleDecCompletes :
    (∀ r ∈ [(0x41#8, 2), (0x42#8, 1)], 1 ≤ r.2 ∧ r.2 < 2 ^ 24) ∧
    InputIs (tIn [0x41, 2, 0, 0, 0x42, 1, 0, 0]) ([(0x41#8, 2), (0x42#8, 1)].map recordBytes).flatten ∧
    (expandedRuns [(0x41#8, 2), (0x42#8, 1)]).length ≤ (tIn [0x41, 2, 0, 0, 0x42, 1, 0, 0]).cfg.nOut :=
  ⟨by decide, ⟨legal_default, by decide +kernel, by decide, by decide, by decide⟩, by decide⟩

/-- RLE_DEC on two records on a small instance: the first fills OUT, the second is one byte too many. -/
def tFull : State :=
  { tIn [0x41, 32, 0, 0, 0x42, 1, 0, 0] with cfg := { Params.default with nIn := 8, nOut := 32 } }

/-- The three eager errors, COUNT 0 in the second record, and the first byte over N_OUT. -/
theorem witness_RleDecErrors :
    State.reset.cfg.Legal ∧ State.reset.snapshot.inLen.toNat = 0 ∧
    { State.reset with inLen := 4097 }.snapshot.inLen.toNat = State.reset.cfg.nIn + 1 ∧
    (tIn [0x41, 2, 0, 0, 0x42, 3]).snapshot.inLen.toNat % 4 ≠ 0 ∧
    (InputIs (tIn [0x41, 2, 0, 0, 0x42, 0, 0, 0]) (([(0x41#8, 2)] ++ (0x42#8, 0) :: []).map recordBytes).flatten ∧
      (∀ q ∈ [(0x41#8, 2)], 1 ≤ q.2) ∧ (expandedRuns [(0x41#8, 2)]).length ≤ State.reset.cfg.nOut) ∧
    (tFull.cfg.Legal ∧ InputIs tFull (([(0x41#8, 32)] ++ (0x42#8, 1) :: []).map recordBytes).flatten ∧
      (expandedRuns [(0x41#8, 32)]).length ≤ tFull.cfg.nOut ∧
      tFull.cfg.nOut < (expandedRuns [(0x41#8, 32)]).length + 1) :=
  ⟨legal_default, rfl, rfl, by decide,
    ⟨⟨legal_default, by decide +kernel, by decide, by decide, by decide⟩, by decide, by decide⟩,
    ⟨by constructor <;> decide, ⟨by constructor <;> decide, by decide +kernel, by decide, by decide, by decide⟩,
      by decide +kernel, by decide +kernel⟩⟩

/-- A copy that fits IN, and one that does not. -/
theorem witness_RleRoundTrip :
    (InputIs (tIn [0x41, 0x41]) [0x41, 0x41] ∧
      exec .rleEnc (tIn [0x41, 0x41]) = .next (after .rleEnc (tIn [0x41, 0x41])) ∧
      CopiesOutput (after .rleEnc (tIn [0x41, 0x41])) (tIn [0x41, 2, 0, 0])) ∧
    (InputIs { tIn [1, 2] with cfg := small } [1, 2] ∧
      CopiesOutput (after .rleEnc { tIn [1, 2] with cfg := small }) { State.reset with cfg := small, inLen := 8 } ∧
      small.nIn < (after .rleEnc { tIn [1, 2] with cfg := small }).res.outLen.toNat) := by
  refine ⟨⟨⟨legal_default, by decide +kernel, by decide, by decide, by decide⟩, rfl, ⟨rfl, by decide +kernel, fun _ => ?_⟩⟩,
    ⟨legal_small, by decide +kernel, by decide, by decide, by decide⟩, ⟨rfl, by decide +kernel, fun h => ?_⟩, ?_⟩
  · decide +kernel
  · exact absurd h (by decide +kernel)
  · decide +kernel

/-! ### LZW -/

theorem witness_LzwEncCompletes : InputIs (tIn runs13) runs13 := inputIs_runs13

/-- The codes 65, 256 stand for `A`, `AA`. -/
theorem stands_self : CodesStand (2 ^ 12) [] [0x41, 256] [[0x41], [0x41, 0x41]] :=
  ⟨.inl ⟨by decide, rfl⟩, .inr ⟨by decide, by decide, rfl⟩, trivial⟩

theorem witness_LzwDecCompletes :
    CodesStand (2 ^ (tIn [0x41, 0, 0, 1]).cfg.dictBits) [] [0x41, 256] [[0x41], [0x41, 0x41]] ∧
    InputIs (tIn [0x41, 0, 0, 1]) ([0x41, 256].map halfwordBytes).flatten ∧
    [[0x41#8], [0x41#8, 0x41#8]].flatten.length ≤ (tIn [0x41, 0, 0, 1]).cfg.nOut :=
  ⟨stands_self, ⟨legal_default, by decide +kernel, by decide, by decide, by decide⟩, by decide⟩

theorem witness_LzwSelfReference :
    CodesStand (2 ^ (tIn [0x41, 0, 0, 1, 0, 1]).cfg.dictBits) [] [0x41] ([] ++ [[0x41]]) ∧
    256 + ([] : List (List Byte)).length < 2 ^ (tIn [0x41, 0, 0, 1, 0, 1]).cfg.dictBits ∧
    InputIs (tIn [0x41, 0, 0, 1, 0, 1])
      (([0x41] ++ List.replicate (1 + 1) (256 + ([] : List (List Byte)).length)).map halfwordBytes).flatten ∧
    (([] ++ [[0x41#8]]).flatten ++
      (List.replicate (1 + 1) ([0x41#8] ++ [0x41#8].take 1)).flatten).length ≤ (tIn [0x41, 0, 0, 1, 0, 1]).cfg.nOut :=
  ⟨⟨.inl ⟨by decide, rfl⟩, trivial⟩, by decide, ⟨legal_default, by decide +kernel, by decide, by decide, by decide⟩,
    by decide⟩

/-- Sixteen codes whose output, `A` 136 times, is longer than the OUT of a small instance. -/
def growing : List Nat := 0x41 :: (List.range 14).map fun i => 256 + i
def growingPhrases : List (List Byte) := (List.range 15).map fun i => List.replicate (i + 1) 0x41#8
def tGrow : State :=
  { tIn ((growing ++ [270]).map halfwordBytes).flatten with cfg := { Params.default with nIn := 32, nOut := 128 } }

theorem growing_stands : CodesStand (2 ^ 12) [] growing growingPhrases := by
  refine ⟨.inl ⟨by decide, rfl⟩, ?_⟩
  iterate 14 refine ⟨.inr ⟨by decide, by decide, rfl⟩, ?_⟩
  trivial

/-- The three eager errors, a first code that is no seed, a code over `nextCode`, a code at the cap, and an output over
N_OUT. -/
theorem witness_LzwDecErrors :
    State.reset.cfg.Legal ∧ State.reset.snapshot.inLen.toNat = 0 ∧
    { State.reset with inLen := 4097 }.snapshot.inLen.toNat = State.reset.cfg.nIn + 1 ∧
    (tIn [0x41, 0, 0]).snapshot.inLen.toNat % 2 ≠ 0 ∧
    (InputIs (tIn [0, 1]) (([] ++ 256 :: []).map halfwordBytes).flatten ∧ CodesStand (2 ^ 12) [] [] [] ∧ 256 ≤ 256) ∧
    (InputIs (tIn [0x41, 0, 1, 1]) (([0x41] ++ 257 :: []).map halfwordBytes).flatten ∧
      CodesStand (2 ^ 12) [] [0x41] [[0x41]] ∧ 256 + ([0x41].length - 1) < 257) ∧
    (InputIs (tIn [0x41, 0, 0, 0x10]) (([0x41] ++ 4096 :: []).map halfwordBytes).flatten ∧ 2 ^ 12 ≤ 4096) ∧
    (tGrow.cfg.Legal ∧ InputIs tGrow ((growing ++ 270 :: []).map halfwordBytes).flatten ∧
      CodesStand (2 ^ tGrow.cfg.dictBits) [] growing growingPhrases ∧
      growingPhrases.flatten.length ≤ tGrow.cfg.nOut ∧
      CodeStands (2 ^ tGrow.cfg.dictBits) growingPhrases 270 (List.replicate 16 0x41#8) ∧
      tGrow.cfg.nOut < growingPhrases.flatten.length + (List.replicate 16 0x41#8).length) :=
  ⟨legal_default, rfl, rfl, by decide,
    ⟨⟨legal_default, by decide +kernel, by decide, by decide, by decide⟩, trivial, by decide⟩,
    ⟨⟨legal_default, by decide +kernel, by decide, by decide, by decide⟩, ⟨.inl ⟨by decide, rfl⟩, trivial⟩, by decide⟩,
    ⟨⟨legal_default, by decide +kernel, by decide, by decide, by decide⟩, by decide⟩,
    ⟨by constructor <;> decide, ⟨by constructor <;> decide, by decide +kernel, by decide +kernel, by decide, by decide⟩,
      growing_stands, by decide +kernel, .inr ⟨by decide, by decide, rfl⟩, by decide +kernel⟩⟩

theorem witness_LzwRoundTrip :
    (InputIs (tIn [0x41, 0x41, 0x41]) [0x41, 0x41, 0x41] ∧
      exec .lzwEnc (tIn [0x41, 0x41, 0x41]) = .next (after .lzwEnc (tIn [0x41, 0x41, 0x41])) ∧
      CopiesOutput (after .lzwEnc (tIn [0x41, 0x41, 0x41])) (tIn [0x41, 0, 0, 1])) ∧
    (InputIs { tIn [1, 2, 3] with cfg := small } [1, 2, 3] ∧
      CopiesOutput (after .lzwEnc { tIn [1, 2, 3] with cfg := small }) { State.reset with cfg := small, inLen := 6 } ∧
      small.nIn < (after .lzwEnc { tIn [1, 2, 3] with cfg := small }).res.outLen.toNat) := by
  refine ⟨⟨⟨legal_default, by decide +kernel, by decide, by decide, by decide⟩, rfl, ⟨rfl, by decide +kernel, fun _ => ?_⟩⟩,
    ⟨legal_small, by decide +kernel, by decide, by decide, by decide⟩, ⟨rfl, by decide +kernel, fun h => ?_⟩, ?_⟩
  · decide +kernel
  · exact absurd h (by decide +kernel)
  · decide +kernel

/-! ### SF -/

theorem witness_SfWidthAndCodewords :
    (1 ≤ 1 ∧ 1 ≤ 256 ∧ 1 ≤ 2) ∧ (1 ≤ 2 ∧ 2 ≤ 2) ∧ (3 ≤ 3 ∧ 3 ≤ 256) ∧ (129 ≤ 129 ∧ 129 ≤ 256) ∧ 256 ≤ 256 := by decide

theorem witness_SfEncCompletes : InputIs (tIn abra) abra :=
  ⟨legal_default, by decide +kernel, by decide, by decide, by decide⟩

/-! ### AR -/

/-- `a:2,b:7` and `c:1`. -/
def pairsAB : List SpecPair := [(0x61, [0x32]), (0x62, [0x37])]
def pairC : SpecPair := (0x63, [0x31])

theorem good_abc (p : Params) (h : 10 ≤ largestTotal p) : GoodPairs (largestTotal p) (pairsAB ++ [pairC]) := by
  refine ⟨?_, by decide, by decide, by simpa [pairTotal, pairsAB, pairC, decimal] using h⟩
  simp [pairsAB, pairC, IsDigit]

theorem arInputs (msg : List Byte) (h1 : 1 ≤ msg.length) (h2 : msg.length ≤ 4096)
    (h3 : (tAr msg spec3).snapshot.input = msg) (h4 : (tAr msg spec3).snapshot.aux = spec3)
    (h5 : (tAr msg spec3).snapshot.inLen.toNat = msg.length) :
    InputIs (tAr msg spec3) msg ∧ AuxIs (tAr msg spec3) (specBytes pairsAB pairC) := by
  have e : specBytes pairsAB pairC = spec3 := rfl
  rw [e]
  exact ⟨⟨legal_default, h3, h5, h1, h2⟩, ⟨h4, rfl, by decide, by change 11 ≤ 4096; decide⟩⟩

theorem witness_ArEncCompletes :
    InputIs (tAr [0x61, 0x62, 0x63] spec3) [0x61, 0x62, 0x63] ∧
    AuxIs (tAr [0x61, 0x62, 0x63] spec3) (specBytes pairsAB pairC) ∧
    GoodPairs (largestTotal (tAr [0x61, 0x62, 0x63] spec3).cfg) (pairsAB ++ [pairC]) ∧
    ∀ c ∈ ([0x61, 0x62, 0x63] : List Byte), c ∈ (pairsAB ++ [pairC]).map fun a => a.1 := by
  obtain ⟨h1, h2⟩ := arInputs [0x61, 0x62, 0x63] (by decide) (by decide) (by decide +kernel) (by decide +kernel) (by decide)
  exact ⟨h1, h2, good_abc _ (by decide), by decide⟩

/-- The hypotheses of a violation, but for the violation itself. -/
def ViolationInputs (pre : List SpecPair) (tail : List Byte) : Prop :=
  InputIs (tAr [0x61] (pairsThenComma pre ++ tail)) [0x61] ∧
  AuxIs (tAr [0x61] (pairsThenComma pre ++ tail)) (pairsThenComma pre ++ tail) ∧
  GoodPairs (largestTotal (tAr [0x61] (pairsThenComma pre ++ tail)).cfg) pre

/-- `a:2`. -/
def pairA : SpecPair := (0x61, [0x32])

theorem good_a : GoodPairs (largestTotal Params.default) [pairA] := by
  refine ⟨by simp [pairA, IsDigit], by decide, by decide, by decide⟩

/-- Each of the nine violations, after `a:2,`. -/
theorem witness_ArSpecificationErrors :
    (ViolationInputs [pairA] [] ∧ SpecViolation (largestTotal Params.default) [pairA] [] .format 0) ∧
    (ViolationInputs [pairA] [0x62] ∧ SpecViolation (largestTotal Params.default) [pairA] [0x62] .format 1) ∧
    (ViolationInputs [pairA] [0x62, 0x32] ∧
      SpecViolation (largestTotal Params.default) [pairA] [0x62, 0x32] .format 1) ∧
    (ViolationInputs [pairA] [0x62, 0x3A] ∧
      SpecViolation (largestTotal Params.default) [pairA] [0x62, 0x3A] .format 2) ∧
    (ViolationInputs [pairA] [0x62, 0x3A, 0x2F] ∧
      SpecViolation (largestTotal Params.default) [pairA] [0x62, 0x3A, 0x2F] .format 2) ∧
    (ViolationInputs [pairA] [0x62, 0x3A, 0x39, 0x3A] ∧
      SpecViolation (largestTotal Params.default) [pairA] [0x62, 0x3A, 0x39, 0x3A] .format 3) ∧
    (ViolationInputs [pairA] [0x62, 0x3A, 0x30] ∧
      SpecViolation (largestTotal Params.default) [pairA] [0x62, 0x3A, 0x30] .format 0) ∧
    (ViolationInputs [pairA] [0x61, 0x3A, 0x31, 0x2C] ∧
      SpecViolation (largestTotal Params.default) [pairA] [0x61, 0x3A, 0x31, 0x2C] .format 0) ∧
    (ViolationInputs [pairA] (0x62 :: 0x3A :: [0x31, 0x30, 0x37, 0x33, 0x37, 0x34, 0x31, 0x38, 0x32, 0x33]) ∧
      SpecViolation (largestTotal Params.default) [pairA]
        (0x62 :: 0x3A :: [0x31, 0x30, 0x37, 0x33, 0x37, 0x34, 0x31, 0x38, 0x32, 0x33]) .capacity 0) := by
  have vi : ∀ tail : List Byte, (tAr [0x61] (pairsThenComma [pairA] ++ tail)).snapshot.input = [0x61] →
      (tAr [0x61] (pairsThenComma [pairA] ++ tail)).snapshot.aux = pairsThenComma [pairA] ++ tail →
      tail.length < 100 → ViolationInputs [pairA] tail := by
    intro tail h1 h2 h3
    have hl : (pairsThenComma [pairA] ++ tail).length = 4 + tail.length := by simp [pairsThenComma, pairBytes, pairA]; omega
    refine ⟨⟨legal_default, h1, rfl, by decide, by change 1 ≤ 4096; decide⟩, ⟨h2, ?_, by omega, ?_⟩, good_a⟩
    · have : (tAr [0x61] (pairsThenComma [pairA] ++ tail)).snapshot.auxLen =
          BitVec.ofNat 32 (pairsThenComma [pairA] ++ tail).length := rfl
      rw [this, BitVec.toNat_ofNat]; omega
    · have : (tAr [0x61] (pairsThenComma [pairA] ++ tail)).cfg.nAux = 4096 := rfl
      omega
  refine ⟨⟨vi _ ?_ ?_ ?_, .noPair⟩, ⟨vi _ ?_ ?_ ?_, .endsAfterSym _⟩, ⟨vi _ ?_ ?_ ?_, .noColon _ _ _ (by decide)⟩,
    ⟨vi _ ?_ ?_ ?_, .endsAfterColon _⟩, ⟨vi _ ?_ ?_ ?_, .noDigit _ _ _ (by simp [IsDigit])⟩,
    ⟨vi _ ?_ ?_ ?_, .junk (0x62, [0x39]) 0x3A [] (by decide) (by simp [IsDigit]) (by simp [IsDigit]) (by decide)⟩,
    ⟨vi _ ?_ ?_ ?_, .zeroCount (0x62, [0x30]) [] (by decide) (by simp [IsDigit]) (.inl rfl) (by decide)⟩,
    ⟨vi _ ?_ ?_ ?_, .duplicate (0x61, [0x31]) [0x2C] (by decide) (by simp [IsDigit]) (.inr rfl) (by decide) (by decide)⟩,
    ⟨vi _ ?_ ?_ ?_, .tooLarge (0x62, [0x31, 0x30, 0x37, 0x33, 0x37, 0x34, 0x31, 0x38, 0x32, 0x33]) [] (by decide)
      (by simp [IsDigit]) (.inl rfl) (by decide) (by decide) (.inr (by decide))⟩⟩ <;> decide +kernel

theorem witness_ArUnknownSymbol :
    InputIs (tAr ([0x61, 0x62] ++ 0x64 :: []) spec3) ([0x61, 0x62] ++ 0x64 :: []) ∧
    AuxIs (tAr ([0x61, 0x62] ++ 0x64 :: []) spec3) (specBytes pairsAB pairC) ∧
    GoodPairs (largestTotal Params.default) (pairsAB ++ [pairC]) ∧
    (∀ b ∈ ([0x61, 0x62] : List Byte), b ∈ (pairsAB ++ [pairC]).map fun a => a.1) ∧
    (0x64#8 ∉ (pairsAB ++ [pairC]).map fun a => a.1) := by
  obtain ⟨h1, h2⟩ := arInputs ([0x61, 0x62] ++ 0x64 :: []) (by decide) (by decide) (by decide +kernel) (by decide +kernel)
    (by decide)
  exact ⟨h1, h2, good_abc _ (by decide), by decide, by decide⟩

/-- A last symbol that is the greatest, one that is the least, and the two as one-symbol messages. -/
theorem witness_ArIntervalsNest :
    (InputIs (tAr [0x62] spec3) [0x62] ∧ AuxIs (tAr [0x62] spec3) (specBytes pairsAB pairC)) ∧
    (InputIs (tAr ([0x62] ++ [0x63]) spec3) ([0x62] ++ [0x63]) ∧
      AuxIs (tAr ([0x62] ++ [0x63]) spec3) (specBytes pairsAB pairC)) ∧
    (InputIs (tAr ([0x62] ++ [0x61]) spec3) ([0x62] ++ [0x61]) ∧
      AuxIs (tAr ([0x62] ++ [0x61]) spec3) (specBytes pairsAB pairC)) ∧
    GoodPairs (largestTotal Params.default) (pairsAB ++ [pairC]) ∧
    countUpTo (pairsAB ++ [pairC]) 0x63 = pairTotal (pairsAB ++ [pairC]) ∧ countBelow (pairsAB ++ [pairC]) 0x61 = 0 ∧
    exec .arEnc (tAr [0x62] spec3) = .next (after .arEnc (tAr [0x62] spec3)) ∧
    (InputIs (tAr [0x63] spec3) [0x63] ∧ AuxIs (tAr [0x63] spec3) (specBytes pairsAB pairC)) ∧
    (InputIs (tAr [0x61] spec3) [0x61] ∧ AuxIs (tAr [0x61] spec3) (specBytes pairsAB pairC)) := by
  refine ⟨arInputs _ ?_ ?_ ?_ ?_ ?_, arInputs _ ?_ ?_ ?_ ?_ ?_, arInputs _ ?_ ?_ ?_ ?_ ?_, good_abc _ ?_, ?_, ?_, rfl,
    arInputs _ ?_ ?_ ?_ ?_ ?_, arInputs _ ?_ ?_ ?_ ?_ ?_⟩ <;> decide +kernel

theorem witness_ArRangeContainment :
    InputIs (tAr [0x61] spec3) [0x61] ∧ AuxIs (tAr [0x61] spec3) (specBytes pairsAB pairC) ∧
    GoodPairs (largestTotal (tAr [0x61] spec3).cfg) (pairsAB ++ [pairC]) ∧
    (0x61#8 ∈ (pairsAB ++ [pairC]).map fun a => a.1) ∧
    exec .arEnc (tAr [0x61] spec3) = .next (after .arEnc (tAr [0x61] spec3)) := by
  obtain ⟨h1, h2⟩ := arInputs [0x61] (by decide) (by decide) (by decide +kernel) (by decide +kernel) (by decide)
  exact ⟨h1, h2, good_abc _ (by decide), by decide, rfl⟩

/-- 2.6: `aaaa` under `a:1,b:63` with `AR_P` = 8, which collapses. -/
def tFold : State :=
  { tAr [0x61, 0x61, 0x61, 0x61] [0x61, 0x3A, 0x31, 0x2C, 0x62, 0x3A, 0x36, 0x33] with
    cfg := { Params.default with arP := 8 } }

theorem test_arEnc_collapse :
    (after .arEnc tFold).statusWord = 0xA ∧ (after .arEnc tFold).res.arLow = (after .arEnc tFold).res.arHigh := by
  decide +kernel

theorem witness_ArCollapse :
    InputIs tFold [0x61, 0x61, 0x61, 0x61] ∧ AuxIs tFold (specBytes [(0x61, [0x31])] (0x62, [0x36, 0x33])) ∧
    GoodPairs (largestTotal tFold.cfg) ([(0x61, [0x31])] ++ [(0x62, [0x36, 0x33])]) ∧
    (∀ c ∈ ([0x61, 0x61, 0x61, 0x61] : List Byte),
      c ∈ ([(0x61#8, [0x31#8])] ++ [(0x62#8, [0x36#8, 0x33#8])]).map fun a => a.1) ∧
    exec .arEnc tFold = .next (after .arEnc tFold) ∧ (after .arEnc tFold).status.collapsed = true ∧
    exec .rleEnc tFold = .next (after .rleEnc tFold) := by
  refine ⟨⟨by constructor <;> decide, by decide +kernel, by decide, by decide, by decide⟩,
    ⟨by decide +kernel, by decide, by decide, by decide⟩, ⟨by simp [IsDigit], by decide, by decide, by decide⟩,
    by decide, rfl, by decide +kernel, rfl⟩

end Sys2Proof.Machine.Tests
end

/-! Whose move a step is (00_scope.md R18; 60_exceptions.md R218). -/

namespace Sys2Proof.Machine

/-! ### The agent that moves -/

theorem step_of_turns_cons {s : State} {t : Turn} {ts : List Turn} (h : s.turns = t :: ts) :
    step s = move t { s with turns := ts } := by
  rw [step, h]

theorem step_of_turns_nil {s : State} (h : s.turns = []) : step s = move (defaultTurn s) s := by
  rw [step, h]

theorem defaultTurn_of_idle {s : State} (h : s.phase = .idle) : defaultTurn s = .host := by
  simp [defaultTurn, (idle_iff s).mpr h]

theorem engineMove_of_idle {s : State} (h : s.phase = .idle) : engineMove s = .next s := by
  rw [engineMove, h]

/-! ### The agents' moves -/

@[simp] theorem move_host (s : State) : move .host s = .next (hostMove s) := rfl
@[simp] theorem move_engine (s : State) : move .engine s = engineMove s := rfl
@[simp] theorem move_hardReset (s : State) : move .hardReset s = .next (hardReset s) := rfl

/-- Settles O5: the next turn decides who moves, and with the engine IDLE the default turn is the host's. -/
theorem stepIsOneAgentsMove : Obligations.StepIsOneAgentsMove := by
  intro s ts
  refine ⟨fun hturn => ?host, fun hturn => ?hardReset, fun hturn hidle => ?idleEngine, fun hnone hidle => ?default⟩
  case host => rw [step_of_turns_cons hturn, move_host]
  case hardReset => rw [step_of_turns_cons hturn, move_hardReset]
  case idleEngine =>
    rw [step_of_turns_cons hturn, move_engine]
    exact engineMove_of_idle hidle
  case default => rw [step_of_turns_nil hnone, defaultTurn_of_idle hidle, move_host]

end Sys2Proof.Machine

/-! The invariant of the machine and the operations that keep it (10_state.md R28, R33, R46, R47; 20_memory.md R73, R78;
60_exceptions.md R210, R213). -/

namespace Sys2Proof.Machine

/-! ### What the clauses of the invariant depend on -/

theorem State.MemoryOk.congr {s t : State} (h : s.MemoryOk) (hcfg : t.cfg = s.cfg) (hres : t.res = s.res)
    (hmem : t.mem = s.mem) : t.MemoryOk where
  wf := by rw [hmem]; exact h.wf
  placed := by rw [hmem, hcfg]; exact h.placed
  out_len := by rw [hres, hcfg]; exact h.out_len
  out_defined := by rw [hres, hcfg, hmem]; exact h.out_defined
  tab_defined := by rw [hres, hmem]; exact h.tab_defined

/-- Of STATUS, DONE and DROPPED matter only while BUSY. -/
theorem State.ResultsOk.congr {s t : State} (h : s.ResultsOk) (hcfg : t.cfg = s.cfg) (hres : t.res = s.res)
    (hphase : t.phase = s.phase) (herr : t.status.err = s.status.err) (hcode : t.status.errCode = s.status.errCode)
    (hbuf : t.status.errBuf = s.status.errBuf) (hcol : t.status.collapsed = s.status.collapsed)
    (hlaunched : s.busy = true → t.status = t.status.launched) : t.ResultsOk where
  err_iff := by rw [herr, hcode]; exact h.err_iff
  aux_code := by rw [hbuf, hcode]; exact h.aux_code
  busy_status := by rw [State.busy, hphase]; exact hlaunched
  busy_res := by rw [State.busy, hphase, hres]; exact h.busy_res
  err_res := by rw [herr, hres]; exact h.err_res
  ok_pos := by rw [herr, hres]; exact h.ok_pos
  collapsed_interval := by rw [hcol, hres]; exact h.collapsed_interval
  interval := by rw [hres, hcfg]; exact h.interval

theorem State.SnapshotOk.of_idle {s : State} (h : s.phase = .idle) : s.SnapshotOk := by
  intro snap hsnap
  simp [h] at hsnap

theorem State.SnapshotOk.congr {s t : State} (h : s.SnapshotOk) (hcfg : t.cfg = s.cfg) (hinLen : t.inLen = s.inLen)
    (hauxLen : t.auxLen = s.auxLen) (hphase : t.phase = s.phase) (hmem : t.mem = s.mem) : t.SnapshotOk := by
  simpa only [State.SnapshotOk, SnapMatches, hcfg, hinLen, hauxLen, hphase, hmem] using h

/-- The invariant does not speak of CMD, IRQ_EN, or anything outside the block. -/
theorem State.Inv.congr {s t : State} (h : s.Inv) (hcfg : t.cfg = s.cfg) (hstatus : t.status = s.status)
    (hinLen : t.inLen = s.inLen) (hauxLen : t.auxLen = s.auxLen) (hres : t.res = s.res) (hphase : t.phase = s.phase)
    (hmem : t.mem = s.mem) : t.Inv where
  legal := by rw [hcfg]; exact h.legal
  memory := h.memory.congr hcfg hres hmem
  results := h.results.congr hcfg hres hphase (by rw [hstatus]) (by rw [hstatus]) (by rw [hstatus]) (by rw [hstatus])
    (by rw [hstatus]; exact h.results.busy_status)
  snapshot := h.snapshot.congr hcfg hinLen hauxLen hphase hmem

/-! ### Memory -/

/-- With OUT and TAB forgotten and OUT_LEN and RES_WIDTH 0, no output byte is reported and none is defined (R46, R47). -/
theorem State.MemoryOk.forgetOutputs {s t : State} (h : s.MemoryOk) (hp : s.cfg.Legal) (hcfg : t.cfg = s.cfg)
    (hmem : t.mem = s.mem.forgetOutputs) (hout : t.res.outLen = 0) (hwidth : t.res.resWidth = 0) : t.MemoryOk where
  wf := by rw [hmem]; exact Memory.wf_forgetOutputs h.wf
  placed a ha := by
    rw [hmem] at ha
    rw [hcfg]
    by_cases ho : OutsideOutputs a
    · exact h.placed a (by rwa [Memory.forgetOutputs_outside _ ho] at ha)
    · simp [Memory.forgetOutputs_inside _ ho] at ha
  out_len := by simp [hout]
  out_defined j hj := by
    have := hp.nOut_le
    rw [hcfg] at hj
    rw [hmem, Memory.forgetOutputs_out _ (by omega), hout]
    simp
  tab_defined j hj := by
    rw [hmem, Memory.forgetOutputs_tab _ hj, hwidth]
    simp

/-- A success defines the OUT bytes and the TAB entries it reports, and lists no byte outside the buffers (R210). -/
theorem succeed_memoryOk {s : State} (h : s.MemoryOk) (hp : s.cfg.Legal) {i : Instr} {r : CmdResult}
    (hr : GoodResult s.cfg i r) : (succeed r s).MemoryOk := by
  have hlen := hr.out_len
  have hcap := hp.nOut_le
  have htab := hr.tab_le
  have hsucc := succeed_succeeded hp r hlen htab
  have houtLen : r.regs.outLen.toNat = r.out.length := by
    rw [CmdResult.regs, BitVec.toNat_ofNat]; omega
  refine ⟨wf_succeed h.wf r, fun a ha => ?placed, ?out_len, fun j hj => ?out, fun j hj => ?tab⟩
  case placed =>
    rw [succeed_mem, Memory.get_setBytes, Memory.get_setBytes] at ha
    rw [succeed_cfg]
    split at ha
    · exact ⟨.out, by omega, by simp only [Buffer.size]; omega⟩
    split at ha
    · exact ⟨.tab, by omega, by simp only [Buffer.size]; omega⟩
    by_cases ho : OutsideOutputs a
    · exact h.placed a (by rwa [Memory.forgetOutputs_outside _ ho] at ha)
    · simp [Memory.forgetOutputs_inside _ ho] at ha
  case out_len => rw [succeed_res, houtLen]; exact hlen
  case out =>
    rw [hsucc.outBytes j hj, succeed_res, houtLen]
    simp
  case tab =>
    rw [hsucc.tabBytes j hj, succeed_res]
    simp only [CmdResult.regs, isSome_getElem?]
    rcases hr.tab with ⟨hnil, hw⟩ | ⟨-, hcount, hcount_le, hw1, hw8⟩
    · simp [hnil, hw]
    · have hw : BitVec.ofNat 32 r.resWidth ≠ 0#32 := by
        intro he
        have := congrArg BitVec.toNat he
        simp only [BitVec.toNat_ofNat] at this
        omega
      rw [BitVec.toNat_ofNat, Nat.mod_eq_of_lt (by omega : r.resCount < 2 ^ 32), hcount]
      simp [hw]

/-- A store into IN or AUX stays inside its buffer and touches no byte of OUT or TAB (R72). -/
theorem storeInput_memoryOk {s : State} (h : s.MemoryOk) (hp : s.cfg.Legal) {b : Buffer} {o : Offset} {n : Size}
    (hb : b = .input ∨ b = .aux) (hlo : b.base ≤ o.toNat) (hhi : o.toNat + n.bytes ≤ b.base + b.size s.cfg)
    (v : Word) : ({ s with mem := s.mem.setBytes o.toNat (leBytes n.bytes v.toNat) } : State).MemoryOk := by
  have keep : ∀ a, ¬ OutsideOutputs a →
      (s.mem.setBytes o.toNat (leBytes n.bytes v.toNat)).get a = s.mem.get a := fun a ha =>
    setBytes_inputs_outputs hp hb hlo hhi _ (leBytes_length _ _) ha
  refine ⟨Memory.wf_setBytes h.wf _ _, fun a ha => ?placed, h.out_len, fun j hj => ?out, fun j hj => ?tab⟩
  case placed =>
    simp only [Memory.get_setBytes, leBytes_length] at ha
    split at ha
    · exact ⟨b, by omega, show a < b.base + b.size s.cfg by omega⟩
    · exact h.placed a ha
  case out =>
    have hcap := hp.nOut_le
    have hj : j < s.cfg.nOut := hj
    have hin : ¬ OutsideOutputs (Buffer.out.base + j) := by simp only [OutsideOutputs, Buffer.base, outSpan]; omega
    simpa only [keep _ hin] using h.out_defined j hj
  case tab =>
    have hin : ¬ OutsideOutputs (Buffer.tab.base + j) := by simp only [OutsideOutputs, Buffer.base, outSpan]; omega
    simpa only [keep _ hin] using h.tab_defined j hj

/-! ### STATUS and the results -/

/-- A launch and the two resets: every STATUS field but DROPPED is clear and every result is 0 (R95, R241, R243). -/
theorem State.ResultsOk.of_cleared {t : State} (hstatus : t.status = t.status.launched) (hres : t.res = .zero) :
    t.ResultsOk where
  err_iff := by rw [hstatus]; simp
  aux_code h := by rw [hstatus] at h; simp at h
  busy_status _ := hstatus
  busy_res _ := hres
  err_res _ := by rw [hres]
  ok_pos _ := by rw [hres]; rfl
  collapsed_interval _ := by rw [hres]; exact ⟨rfl, rfl⟩
  interval := by rw [hres]; exact ⟨Nat.le_refl _, Nat.le_refl _, Nat.zero_le _⟩

theorem succeed_resultsOk {s : State} (hp : s.cfg.Legal) {i : Instr} {r : CmdResult} (hr : GoodResult s.cfg i r) :
    (succeed r s).ResultsOk := by
  obtain ⟨hlow, hval, hhigh⟩ := hr.interval
  have hwidth : 2 ^ s.cfg.arP < 2 ^ 64 := Nat.pow_lt_pow_right (by omega) (by have := hp.arP_le; omega)
  constructor <;> simp only [succeed_status, succeed_res, succeed_busy, succeed_cfg, Status.succeeded_err,
    Status.succeeded_errCode, Status.succeeded_errBuf, Status.succeeded_collapsed, CmdResult.regs]
  case collapsed_interval =>
    intro hc
    have heq := hr.collapsed hc
    exact ⟨by rw [heq], congrArg _ (by omega)⟩
  case interval =>
    simp only [BitVec.toNat_ofNat]
    rw [Nat.mod_eq_of_lt (by omega), Nat.mod_eq_of_lt (by omega), Nat.mod_eq_of_lt (by omega)]
    exact ⟨hlow, hval, hhigh⟩
  all_goals simp

/-- An error completion with a code of R212 other than NONE, in AUX with one of the three codes of AUX (R213, R214). -/
theorem raiseError_resultsOk (s : State) {e : CmdError} (hcode : e.code ≠ .none)
    (haux : e.auxBuf = true → e.code = .emptyInput ∨ e.code = .format ∨ e.code = .capacity) :
    (raiseError e s).ResultsOk := by
  constructor <;> simp only [raiseError_status, raiseError_res, raiseError_busy, Status.failed_err,
    Status.failed_errCode, Status.failed_errBuf, Status.failed_collapsed]
  case err_iff => simp [hcode]
  case aux_code => exact haux
  all_goals simp [ResultRegs.zero]

/-! ### The operations keep the invariant -/

theorem hardReset_inv {s : State} (h : s.Inv) : (hardReset s).Inv where
  legal := h.legal
  memory := ⟨rfl, fun a ha => by simp at ha, Nat.zero_le _, fun j _ => by simp [ResultRegs.zero],
    fun j _ => by simp [ResultRegs.zero]⟩
  results := .of_cleared rfl rfl
  snapshot := .of_idle rfl

theorem softReset_inv {s : State} (h : s.Inv) (v : Word) : (softReset v s).Inv where
  legal := h.legal
  memory := h.memory.forgetOutputs h.legal rfl rfl rfl rfl
  results := .of_cleared rfl rfl
  snapshot := .of_idle rfl

/-- Forgetting the outputs leaves what a snapshot of IN or AUX is compared with. -/
theorem launch_snapMatches {s : State} (hp : s.cfg.Legal) {b : Buffer} (hb : b = .input ∨ b = .aux) (v : Word)
    (len : Nat) : SnapMatches (launch v s) b len (snapBytes s b len) := by
  obtain ⟨hlen, hbytes⟩ := snapBytes_matches s b len
  refine ⟨hlen, fun j x hj hx => hbytes j x hj ?_⟩
  have hin := hp.nIn_le
  have haux := hp.nAux_le
  have hsize : j < b.size s.cfg := by rw [hlen] at hj; split at hj <;> omega
  have hout : OutsideOutputs (b.base + j) := by
    rcases hb with rfl | rfl <;> simp only [Buffer.size] at hsize <;>
      simp only [OutsideOutputs, Buffer.base, outSpan] <;> omega
  rwa [launch_mem, Memory.forgetOutputs_outside _ hout] at hx

theorem launch_inv {s : State} (h : s.Inv) (v : Word) : (launch v s).Inv where
  legal := h.legal
  memory := h.memory.forgetOutputs h.legal rfl rfl rfl rfl
  results := .of_cleared rfl rfl
  snapshot snap hsnap := by
    cases hsnap
    exact ⟨rfl, rfl, launch_snapMatches h.legal (.inl rfl) v _, launch_snapMatches h.legal (.inr rfl) v _⟩

theorem raiseError_inv {s : State} (h : s.Inv) {e : CmdError} (hcode : e.code ≠ .none)
    (haux : e.auxBuf = true → e.code = .emptyInput ∨ e.code = .format ∨ e.code = .capacity) :
    (raiseError e s).Inv where
  legal := h.legal
  memory := h.memory.forgetOutputs h.legal rfl rfl rfl rfl
  results := raiseError_resultsOk s hcode haux
  snapshot := .of_idle rfl

theorem succeed_inv {s : State} (h : s.Inv) {i : Instr} {r : CmdResult} (hr : GoodResult s.cfg i r) :
    (succeed r s).Inv where
  legal := h.legal
  memory := succeed_memoryOk h.memory h.legal hr
  results := succeed_resultsOk h.legal hr
  snapshot := .of_idle rfl

theorem exec_keeps_inv {s t : State} (h : s.Inv) {i : Instr} (ht : exec i s = .next t) : t.Inv := by
  obtain ⟨r, hr, hgood, -⟩ | ⟨e, he, hgood, -⟩ := exec_completes i h.legal h.snapshot
  · rw [hr] at ht
    cases ht
    exact succeed_inv h hgood
  · rw [he] at ht
    cases ht
    refine raiseError_inv h ?_ fun hb => (hgood.aux hb).2
    rcases hgood.code with hc | hc | hc | ⟨-, hc⟩ <;> simp [hc]

/-- The host may change DONE, while IDLE, and DROPPED (R28, R29). -/
theorem State.Inv.setDoneDropped {s : State} (h : s.Inv) (done dropped : Bool)
    (hdone : s.busy = true → done = false) :
    ({ s with status := { s.status with done := done, dropped := dropped } } : State).Inv where
  legal := h.legal
  memory := h.memory.congr rfl rfl rfl
  results := h.results.congr rfl rfl rfl rfl rfl rfl rfl fun hb => by
    have hst := h.results.busy_status hb
    rw [hst, hdone hb]
    rfl
  snapshot := h.snapshot

/-- While BUSY, DONE is 0 (R28, R73). -/
theorem State.Inv.done_of_busy {s : State} (h : s.Inv) (hb : s.busy = true) : s.status.done = false := by
  rw [h.results.busy_status hb, Status.launched_done]

/-- An IDLE block does not look at the lengths or the input bytes (R22, R30, R31). -/
theorem State.Inv.setInputs {s : State} (h : s.Inv) (hidle : s.busy = false) (inLen auxLen : Word) {mem : Memory}
    (hmem : ({ s with mem := mem } : State).MemoryOk) :
    ({ s with inLen := inLen, auxLen := auxLen, mem := mem } : State).Inv where
  legal := h.legal
  memory := hmem.congr rfl rfl rfl
  results := h.results.congr rfl rfl rfl rfl rfl rfl rfl h.results.busy_status
  snapshot := .of_idle ((idle_iff s).1 hidle)

theorem WriteEffect.keeps_inv {o : Offset} {n : Size} {v : Word} {s u : State} (h : WriteEffect o n v s u)
    (hs : s.Inv) : u.Inv := by
  cases h with
  | ignored => exact hs
  | dropped => exact hs.setDoneDropped s.status.done true fun hb => hs.done_of_busy hb
  | softReset => exact softReset_inv hs v
  | irqEnable => exact hs.congr rfl rfl rfl rfl rfl rfl rfl
  | launch => exact launch_inv hs v
  | status => exact hs.setDoneDropped _ _ fun hb => by simp [hs.done_of_busy hb]
  | inLen _ _ hidle => exact hs.setInputs hidle v s.auxLen hs.memory
  | auxLen _ _ hidle => exact hs.setInputs hidle s.inLen v hs.memory
  | bytes b hb hidle hlo hhi =>
    exact hs.setInputs hidle s.inLen s.auxLen (storeInput_memoryOk hs.memory hs.legal hb hlo hhi v)

theorem HostEffect.keeps_inv {s t : State} (h : HostEffect s t) (hs : s.Inv) : t.Inv := by
  cases h with
  | quiet => exact hs.congr rfl rfl rfl rfl rfl rfl rfl
  | write o n w a u _ _ hw => exact (hw.keeps_inv hs).congr rfl rfl rfl rfl rfl rfl rfl

theorem EngineEffect.keeps_inv {s t : State} (h : EngineEffect s t) (hs : s.Inv) : t.Inv := by
  cases h with
  | idle => exact hs
  | command snap i r _ _ hexec => exact exec_keeps_inv hs hexec
  | illegal => exact raiseError_inv hs (by simp) (by simp)

/-- Settles O32: each agent's move keeps the invariant, and using up a turn does not touch it. -/
theorem stepKeepsTheInvariant : Obligations.StepKeepsTheInvariant := by
  intro s t hs hstep
  have hturns : ({ s with turns := s.turns.tail } : State).Inv := hs.congr rfl rfl rfl rfl rfl rfl rfl
  cases stepEffect_of_step hstep with
  | host t _ hmove => exact hmove.keeps_inv hturns
  | engine t _ hmove => exact hmove.keeps_inv hturns
  | hardReset => exact hardReset_inv hturns

end Sys2Proof.Machine

/-! Register writes and the configuration registers at the port (10_state.md R24 to R31, R41). -/

namespace Sys2Proof.Machine

/-! ### What a register write stores -/

theorem unlessBusy_of_idle {s : State} (h : s.busy = false) (done : State) : unlessBusy done s = done := by
  simp [unlessBusy, h]

theorem unlessBusy_of_busy {s : State} (h : s.busy = true) (done : State) : unlessBusy done s = s.drop := by
  simp [unlessBusy, h]

theorem writeReg_ctrl_reset {v : Word} (h : v.getLsbD 1 = true) (s : State) :
    writeReg .ctrl v s = softReset v s := by
  simp only [writeReg, h, if_true]

theorem writeReg_ctrl_irqEn {v : Word} (h : v.getLsbD 1 = false) (s : State) :
    writeReg .ctrl v s = { s with irqEn := v.getLsbD 0 } := by
  simp only [writeReg, h, Bool.false_eq_true, if_false]

theorem writeReg_cmd_idle {s : State} (h : s.busy = false) (v : Word) : writeReg .cmd v s = launch v s :=
  unlessBusy_of_idle h _

theorem writeReg_cmd_busy {s : State} (h : s.busy = true) (v : Word) : writeReg .cmd v s = s.drop :=
  unlessBusy_of_busy h _

theorem writeReg_status (v : Word) (s : State) :
    writeReg .status v s = { s with status := s.status.clearWritten v } := rfl

/-- The registers a host write can change (R24). -/
def RegName.writable : RegName → Bool
  | .ctrl | .cmd | .status | .inLen | .auxLen => true
  | _ => false

/-- A write to a read-only register is ignored (R24). -/
theorem writeReg_of_not_writable {r : RegName} (h : r.writable = false) (v : Word) (s : State) :
    writeReg r v s = s := by
  cases r with
  | ctrl | cmd | status | inLen | auxLen => simp [RegName.writable] at h
  | _ => rfl

/-- The writable registers are the five words from 0x004 on (R23). -/
theorem regAt_writable {o : Offset} {r : RegName} (hm : o.toNat % 4 = 0) (h : regAt o.toNat = some r)
    (hw : r.writable = true) : 0x004 ≤ o.toNat ∧ o.toNat < 0x018 := by
  cases r <;> simp only [RegName.writable, Bool.false_eq_true] at hw
  · rw [regAt_ctrl hm h]; decide
  · rw [regAt_cmd hm h]; decide
  · rw [regAt_status hm h]; decide
  · rw [regAt_inLen hm h]; decide
  · rw [regAt_auxLen hm h]; decide

/-- Settles O11: while IDLE the two length registers are not locked. -/
theorem lengthWritesStoreAnyValue : Obligations.LengthWritesStoreAnyValue := by
  intro s v hidle
  have inLen : writeReg .inLen v s = { s with inLen := v } := unlessBusy_of_idle hidle _
  have auxLen : writeReg .auxLen v s = { s with auxLen := v } := unlessBusy_of_idle hidle _
  exact ⟨by rw [transact_write_register (r := .inLen) (by decide) (by decide), inLen],
    by rw [transact_write_register (r := .auxLen) (by decide) (by decide), auxLen]⟩

/-- Settles O12: the write is `Status.clearWritten`, and the invariant holds DONE clear while BUSY. -/
theorem statusWriteClearsDoneAndDropped : Obligations.StatusWriteClearsDoneAndDropped := by
  intro s v
  refine ⟨_, transact_write_register (r := .status) (by decide) (by decide) v s, ?_⟩
  rw [writeReg_status]
  refine ⟨?done, ?dropped, rfl, fun hinv hbusy => ?busy⟩
  case done => simp only [Status.clearWritten]; cases v.getLsbD 1 <;> simp
  case dropped => simp only [Status.clearWritten]; cases v.getLsbD 4 <;> simp
  case busy =>
    have hdone := hinv.done_of_busy hbusy
    exact ⟨hdone, by simp [Status.clearWritten, hdone]⟩

theorem ctrlWord_toNat (s : State) : s.ctrlWord.toNat = if s.irqEn then 1 else 0 := by
  cases h : s.irqEn <;> simp [State.ctrlWord, h]

/-- Settles O14: with SRST clear the write is that of IRQ_EN, the one bit CTRL reads back. -/
theorem ctrlWriteStoresIrqEnable : Obligations.CtrlWriteStoresIrqEnable := by
  intro s v hreset
  refine ⟨?_, ctrlWord_toNat s⟩
  rw [transact_write_register (r := .ctrl) (by decide) (by decide), writeReg_ctrl_irqEn hreset]

/-- Settles O15: no offset named is that of a writable register. -/
theorem readOnlyRegistersIgnoreWrites : Obligations.ReadOnlyRegistersIgnoreWrites := by
  intro s o v hm ho
  obtain ⟨r, hr⟩ := Option.isSome_iff_exists.1 ((regAt_isSome o.toNat).2 (by omega))
  have hro : r.writable = false := by
    by_contra hw
    have := regAt_writable hm hr (by simpa using hw)
    omega
  rw [transact_write_register hm hr, writeReg_of_not_writable hro]

/-! ### The configuration registers -/

theorem cfg0Value_toNat {p : Params} (hp : p.Legal) : (cfg0Value p).toNat = p.dictBits + p.arP * 256 := by
  have := hp.dictBits_le
  have := hp.arP_le
  rw [cfg0Value, BitVec.toNat_ofNat]
  omega

/-- A field of CFG0, as the number its bits stand for. -/
theorem cfg0Value_field {p : Params} (hp : p.Legal) (start len : Nat) :
    ((cfg0Value p).extractLsb' start len).toNat = (p.dictBits + p.arP * 256) / 2 ^ start % 2 ^ len := by
  rw [BitVec.extractLsb'_toNat, Nat.shiftRight_eq_div_pow, cfg0Value_toNat hp]

/-- Settles O22: legal parameters fit the fields of R41, and no step changes them. -/
theorem configurationRegisterReads : Obligations.ConfigurationRegisterReads := by
  intro s hp
  have hdict := hp.dictBits_le
  have har := hp.arP_le
  have hin := hp.nIn_le
  have haux := hp.nAux_le
  have hout := hp.nOut_le
  refine ⟨⟨_, portRead_register (r := .cfg0) (by decide) (by decide) s, ?_⟩,
    ⟨_, portRead_register (r := .cfgNIn) (by decide) (by decide) s, ?_⟩,
    ⟨_, portRead_register (r := .cfgNAux) (by decide) (by decide) s, ?_⟩,
    ⟨_, portRead_register (r := .cfgNOut) (by decide) (by decide) s, ?_⟩, fun t ht => step_cfg ht⟩
  · refine ⟨?_, ?_, BitVec.eq_of_toNat_eq ?_, BitVec.eq_of_toNat_eq ?_⟩ <;>
      simp only [readReg, cfg0Value_field hp, BitVec.toNat_ofNat, BitVec.ofNat_eq_ofNat] <;> omega
  all_goals
    rw [readReg, BitVec.toNat_ofNat]
    omega

end Sys2Proof.Machine

/-! What a step does to the phase, to DROPPED and to IN and AUX (10_state.md R22, R28, R44, R45; 20_memory.md R72, R85). -/

namespace Sys2Proof.Machine

/-! ### The host's stores -/

/-- A line that stores four bytes is the next step, when the host moves. -/
theorem HostStores.of_store {s : State} {o : Offset} {w : HostVal} (hm : s.mover = .host)
    (hop : s.host.prog[s.host.pc]? = some (.store .word o w)) : HostStores s o (w.eval s.host) :=
  ⟨hm, w, hop, by cases w <;> rfl⟩

/-- The host's store into a register is the write of that register (R67, R110). -/
theorem step_of_hostStores {s t : State} {o : Offset} {v : Word} {r : RegName} (hs : HostStores s o v)
    (hm : o.toNat % 4 = 0) (hr : regAt o.toNat = some r) (h : step s = .next t) :
    t = { writeReg r v { s with turns := s.turns.tail } with
      host := s.host.goto (s.host.pc + 1), answer := some .ok } := by
  obtain ⟨hmover, w, hop, hv⟩ := hs
  have hval : w.eval s.host = v := by rw [hv]; cases w <;> rfl
  have hhost : (writeReg r v { s with turns := s.turns.tail }).host = s.host :=
    (portWrite_cases (portWrite_register hm hr v { s with turns := s.turns.tail })).host
  rw [step_eq_move, hmover, move_host, hostMove, hop] at h
  simp only [hostOp, transact_write_register hm hr, hval, hhost, Host.Outcome.next.injEq] at h
  exact h.symm

/-- Only a launch makes an IDLE block BUSY (R22). -/
theorem WriteEffect.launches {o : Offset} {n : Size} {v : Word} {s u : State} (h : WriteEffect o n v s u)
    (hs : s.busy = false) (hu : u.busy = true) : o = 0x008 ∧ n = .word ∧ u.cmd = v := by
  cases h with
  | launch ho hn => exact ⟨ho, hn, rfl⟩
  | dropped hbusy => simp [hs] at hbusy
  | softReset => simp at hu
  | _ => exact absurd (hs.symm.trans hu) (by simp)

/-- Only a soft reset makes a BUSY block IDLE (R22, R243). -/
theorem WriteEffect.abandons {o : Offset} {n : Size} {v : Word} {s u : State} (h : WriteEffect o n v s u)
    (hs : s.busy = true) (hu : u.busy = false) : o = 0x004 ∧ n = .word ∧ v.getLsbD 1 = true := by
  cases h with
  | softReset ho hn hv => exact ⟨ho, hn, hv⟩
  | launch => simp at hu
  | _ => exact absurd (hs.symm.trans hu) (by simp)

/-- DROPPED is cleared by a write of 1 to it or by a soft reset (R28, R29, R243). -/
theorem WriteEffect.clears_dropped {o : Offset} {n : Size} {v : Word} {s u : State} (h : WriteEffect o n v s u)
    (hs : s.status.dropped = true) (hu : u.status.dropped = false) :
    n = .word ∧ ((o = 0x00C ∧ v.getLsbD 4 = true) ∨ (o = 0x004 ∧ v.getLsbD 1 = true)) := by
  cases h with
  | softReset ho hn hv => exact ⟨hn, .inr ⟨ho, hv⟩⟩
  | status ho hn => exact ⟨hn, .inl ⟨ho, by simpa [Status.clearWritten, hs] using hu⟩⟩
  | launch => simp [hs] at hu
  | dropped => simp at hu
  | _ => exact absurd (hs.symm.trans hu) (by simp)

/-- A byte outside OUT and TAB is changed only by a store that covers it, while IDLE (R72). -/
theorem WriteEffect.changes_input {o : Offset} {n : Size} {v : Word} {s u : State} (h : WriteEffect o n v s u)
    {a : Nat} (ha : OutsideOutputs a) (hne : u.mem.get a ≠ s.mem.get a) :
    s.busy = false ∧ o.toNat ≤ a ∧ a < o.toNat + n.bytes := by
  cases h with
  | softReset | launch => exact absurd (Memory.forgetOutputs_outside _ ha) hne
  | bytes b hb hidle hlo hhi =>
    refine ⟨hidle, ?_⟩
    by_contra hout
    rw [Memory.get_setBytes, leBytes_length, if_neg hout] at hne
    exact hne rfl
  | _ => exact absurd rfl hne

/-! ### The engine's move -/

theorem EngineEffect.not_busy {s t : State} (h : EngineEffect s t) : t.busy = false := by
  cases h with
  | idle hidle => exact (idle_iff _).2 hidle
  | command => exact finish_busy _ _
  | illegal => rfl

@[simp] theorem finish_done (r : CmdOutcome) (s : State) : (finish r s).status.done = true := by
  cases r <;> rfl

@[simp] theorem finish_dropped (r : CmdOutcome) (s : State) : (finish r s).status.dropped = s.status.dropped := by
  cases r <;> rfl

/-- A running command's move is its completion (R210). -/
theorem EngineEffect.done {s t : State} (h : EngineEffect s t) (hb : s.busy = true) : t.status.done = true := by
  cases h with
  | idle hidle => simp [(idle_iff s).2 hidle] at hb
  | command => exact finish_done _ _
  | illegal => rfl

theorem EngineEffect.dropped {s t : State} (h : EngineEffect s t) : t.status.dropped = s.status.dropped := by
  cases h with
  | idle => rfl
  | command => exact finish_dropped _ _
  | illegal => rfl

/-! ### Steps -/

/-- Bit 0 of STATUS is BUSY: every other field stands at an even place (R22, R28). -/
theorem statusWord_busy (s : State) : s.statusWord.getLsbD 0 = s.busy := by
  rw [State.statusWord, BitVec.getLsbD_ofNat, Nat.testBit_zero]
  cases s.busy <;> simp <;> omega

/-- A step that makes an IDLE block BUSY is the host's launch (R22, R95). -/
theorem step_launches {s t : State} (h : step s = .next t) (hs : s.busy = false) (ht : t.busy = true) :
    ∃ v, HostStores s 0x008 v ∧ t.cmd = v := by
  cases stepEffect_of_step h with
  | hardReset => simp at ht
  | engine t _ he => simp [he.not_busy] at ht
  | host t hm he =>
    cases he with
    | quiet => exact absurd (hs.symm.trans ht) (by simp)
    | write o n w a u _ hop hw =>
      obtain ⟨rfl, rfl, hcmd⟩ := hw.launches hs ht
      exact ⟨_, .of_store hm hop, hcmd⟩

/-- A step that makes a BUSY block IDLE is a completion or a reset (R22, R210, R241, R243). -/
theorem step_ends {s t : State} (h : step s = .next t) (hs : s.busy = true) (ht : t.busy = false) :
    (s.mover = .engine ∧ t.status.done = true) ∨ s.mover = .hardReset ∨
      ∃ v, HostStores s 0x004 v ∧ v.getLsbD 1 = true := by
  cases stepEffect_of_step h with
  | hardReset hm => exact .inr (.inl hm)
  | engine t hm he => exact .inl ⟨hm, he.done hs⟩
  | host t hm he =>
    cases he with
    | quiet => exact absurd (hs.symm.trans ht) (by simp)
    | write o n w a u _ hop hw =>
      obtain ⟨rfl, rfl, hv⟩ := hw.abandons hs ht
      exact .inr (.inr ⟨_, .of_store hm hop, hv⟩)

theorem step_engine {s t : State} (h : step s = .next t) (hm : s.mover = .engine) :
    EngineEffect { s with turns := s.turns.tail } t := by
  cases stepEffect_of_step h with
  | engine t _ he => exact he
  | host t hm' => simp [hm] at hm'
  | hardReset hm' => simp [hm] at hm'

/-- After the host's write to CMD the block is BUSY: it was, and the write is dropped, or the write launches (R72, R95). -/
theorem step_cmd_busy {s t : State} {v : Word} (h : step s = .next t) (hs : HostStores s 0x008 v) :
    t.busy = true := by
  rw [step_of_hostStores (r := .cmd) hs (by decide) (by decide) h]
  cases hb : s.busy with
  | true => rw [writeReg_cmd_busy (s := { s with turns := s.turns.tail }) hb]; exact hb
  | false => rw [writeReg_cmd_idle (s := { s with turns := s.turns.tail }) hb]; rfl

/-- Settles O25: each event has its effect on the phase, and a step that changes the phase is one of them. -/
theorem phaseTransitions : Obligations.PhaseTransitions := by
  intro s t h
  refine ⟨step_launches h, step_ends h, fun v hs => step_cmd_busy h hs,
    fun hm => ⟨(step_engine h hm).not_busy, (step_engine h hm).done⟩, fun v hs hv => ?softReset, fun hm => ?hardReset,
    _, portRead_register (r := .status) (by decide) (by decide) s, statusWord_busy s⟩
  case softReset =>
    rw [step_of_hostStores (r := .ctrl) hs (by decide) (by decide) h, writeReg_ctrl_reset hv]
    rfl
  case hardReset =>
    rw [step_eq_move, hm, move_hardReset] at h
    cases h
    rfl

/-- Settles O26: of all moves only a reset and the host's write of 1 clear DROPPED. -/
theorem droppedIsSticky : Obligations.DroppedIsSticky := by
  intro s t h hs ht
  cases stepEffect_of_step h with
  | hardReset hm => exact .inl hm
  | engine t _ he => exact absurd (hs.symm.trans (he.dropped.symm.trans ht)) (by simp)
  | host t hm he =>
    cases he with
    | quiet => exact absurd (hs.symm.trans ht) (by simp)
    | write o n w a u _ hop hw =>
      obtain ⟨rfl, ⟨rfl, hv⟩ | ⟨rfl, hv⟩⟩ := hw.clears_dropped hs ht
      · exact .inr (.inl ⟨_, .of_store hm hop, hv⟩)
      · exact .inr (.inr ⟨_, .of_store hm hop, hv⟩)

end Sys2Proof.Machine

/-! The outcome of a command as a function of the parameters and the snapshot, and what it leaves at 0
(10_state.md R31 to R40; 20_memory.md R78; 30_encoding.md R97). -/

namespace Sys2Proof.Machine

/-! ### The outcome of a command -/

/-- What the command `i` answers on the snapshot `snap` (R78, R97). -/
def commandOutcome (i : Instr) (p : Params) (snap : Snapshot) : CmdOutcome :=
  match i with
  | .rleEnc => runRleEnc p snap
  | .rleDec => runRleDec p snap
  | .lzwEnc => runLzwEnc p snap
  | .lzwDec => runLzwDec p snap
  | .sfEnc => runSfEnc p snap
  | .arEnc => runArEnc p snap

theorem exec_eq_finish_commandOutcome (i : Instr) (s : State) :
    exec i s = .next (finish (commandOutcome i s.cfg s.snapshot) s) := by
  cases i <;> rfl

/-- A command that succeeds has passed its eager checks (R215). -/
theorem body_of_afterEager_ok {p : Params} {snap : Snapshot} {usesAux : Bool} {unit : Nat} {body : CmdOutcome}
    {r : CmdResult} (h : afterEager p snap usesAux unit body = .ok r) : body = .ok r := by
  rw [afterEager] at h
  split at h
  · cases h
  · exact h

/-- A command without a use for AUX checks the input's length alone (R215). -/
theorem afterEager_congr (p : Params) {snap snap' : Snapshot} (h : snap.inLen = snap'.inLen) (unit : Nat)
    (body : CmdOutcome) : afterEager p snap false unit body = afterEager p snap' false unit body := by
  simp only [afterEager, eagerError, h, Bool.false_and]

/-- AR_ENC alone reads AUX_LEN and AUX (R31, R93). -/
theorem commandOutcome_congr {i : Instr} (hi : i ≠ .arEnc) (p : Params) {snap snap' : Snapshot}
    (hlen : snap.inLen = snap'.inLen) (hin : snap.input = snap'.input) :
    commandOutcome i p snap = commandOutcome i p snap' := by
  cases i with
  | rleEnc => simp only [commandOutcome, runRleEnc, hin, afterEager_congr p hlen]
  | rleDec => simp only [commandOutcome, runRleDec, hin, afterEager_congr p hlen]
  | lzwEnc => simp only [commandOutcome, runLzwEnc, hin, afterEager_congr p hlen]
  | lzwDec => simp only [commandOutcome, runLzwDec, hin, afterEager_congr p hlen]
  | sfEnc => simp only [commandOutcome, runSfEnc, hin, afterEager_congr p hlen]
  | arEnc => exact absurd rfl hi

/-! ### What a command's results name -/

/-- The results that the rule of `i` does not name are 0, and it defines the TAB entries it counts, or none
(R32 to R40, R47). -/
structure NamesOnly (i : Instr) (r : CmdResult) : Prop where
  ratio : i ≠ .rleEnc → i ≠ .sfEnc → r.resRatio = 0
  dict : i ≠ .lzwEnc → i ≠ .lzwDec → r.resDict = 0
  width : i ≠ .sfEnc → r.resWidth = 0
  comp : i ≠ .rleEnc → i ≠ .sfEnc → i ≠ .arEnc → r.resComp = 0
  interval : i ≠ .arEnc → r.arLow = 0 ∧ r.arHigh = 0 ∧ r.arVal = 0 ∧ r.collapsed = false
  out : i = .arEnc → r.out = []
  noTab : i ≠ .sfEnc → r.tab = []
  tab : i = .sfEnc → r.tab.length = 8 * r.resCount ∧ r.resCount ≤ 256

theorem arEncode_ok {p : Params} {msg spec : List Byte} {r : CmdResult} (h : arEncode p msg spec = .ok r) :
    ∃ t iv, r = arEncResult msg.length t iv := by
  obtain ⟨t, iv, ht, -⟩ | ⟨e, he, -⟩ := arEncode_cases p msg spec
  · rw [ht] at h
    cases h
    exact ⟨t, iv, rfl⟩
  · rw [he] at h
    cases h

/-- Every success names what its command's rule names, whatever the parameters and the snapshot. -/
theorem commandOutcome_namesOnly {i : Instr} {p : Params} {snap : Snapshot} {r : CmdResult}
    (h : commandOutcome i p snap = .ok r) : NamesOnly i r := by
  cases i with
  | rleEnc =>
    cases body_of_afterEager_ok h
    constructor <;> simp [rleEncResult]
  | rleDec =>
    have hbody := body_of_afterEager_ok h
    split at hbody <;> cases hbody
    constructor <;> simp [rleDecResult]
  | lzwEnc =>
    cases body_of_afterEager_ok h
    constructor <;> simp [lzwEncResult]
  | lzwDec =>
    have hbody := body_of_afterEager_ok h
    split at hbody <;> cases hbody
    constructor <;> simp [lzwDecResult]
  | sfEnc =>
    cases body_of_afterEager_ok h
    constructor <;> simp [sfEncResult, sfTab_length, sfRanks_length_le]
  | arEnc =>
    obtain ⟨t, iv, rfl⟩ := arEncode_ok (body_of_afterEager_ok h)
    constructor <;> simp [arEncResult]

theorem NamesOnly.tab_length_le {i : Instr} {r : CmdResult} (h : NamesOnly i r) : r.tab.length ≤ 2048 := by
  by_cases hi : i = .sfEnc
  · obtain ⟨hlen, hcount⟩ := h.tab hi
    omega
  · simp [h.noTab hi]

/-- A command's next state is an error completion or a success that names only what its rule names (R97). -/
theorem exec_cases {i : Instr} {s t : State} (h : exec i s = .next t) :
    (∃ r, NamesOnly i r ∧ t = succeed r s) ∨ ∃ e, t = raiseError e s := by
  rw [exec_eq_finish_commandOutcome] at h
  cases h
  cases hr : commandOutcome i s.cfg s.snapshot with
  | ok r => exact .inl ⟨r, commandOutcome_namesOnly hr, rfl⟩
  | error e => exact .inr ⟨e, rfl⟩

/-- Settles O41: an error clears every result but ERR_POS, and a success names only what its rule names. -/
theorem unnamedResultsAreZero : Obligations.UnnamedResultsAreZero := by
  intro i s t h
  obtain ⟨r, hr, rfl⟩ | ⟨e, rfl⟩ := exec_cases h
  · simp only [succeed_res, succeed_status, Status.succeeded_collapsed, CmdResult.regs]
    refine ⟨fun h1 h2 => ?ratio, fun h1 h2 => ?dict, fun h1 => ?width, fun h1 h2 h3 => ?comp, fun h1 => ?interval,
      fun h1 => ?out⟩
    case ratio => rw [hr.ratio h1 h2]; rfl
    case dict => rw [hr.dict h1 h2]; rfl
    case width => rw [hr.width h1]; rfl
    case comp => rw [hr.comp h1 h2 h3]; rfl
    case interval =>
      obtain ⟨hlow, hhigh, hval, hcol⟩ := hr.interval h1
      rw [hlow, hhigh, hval]
      exact ⟨rfl, rfl, rfl, hcol⟩
    case out => rw [hr.out h1]; rfl
  · simp [ResultRegs.zero]

/-! ### What is observed after a command -/

theorem succeed_get_out (r : CmdResult) (s : State) {j : Nat} (hj : j < r.out.length) :
    (succeed r s).mem.get (Buffer.out.base + j) = r.out[j]? := by
  rw [succeed_mem, Memory.get_setBytes, if_pos (by omega), Nat.add_sub_cancel_left]

theorem NamesOnly.succeed_get_tab {i : Instr} {r : CmdResult} (h : NamesOnly i r) (s : State) {j : Nat}
    (hj : j < r.tab.length) : (succeed r s).mem.get (Buffer.tab.base + j) = r.tab[j]? := by
  have := h.tab_length_le
  rw [succeed_mem, Memory.get_setBytes, if_neg (by simp only [Buffer.base]; omega), Memory.get_setBytes,
    if_pos (by omega), Nat.add_sub_cancel_left]

/-- The bytes observed after a success are those it stored, whatever stood in memory before. -/
theorem NamesOnly.observation {i : Instr} {r : CmdResult} (h : NamesOnly i r) (s u : State) (snap : Snapshot) :
    (succeed r s).observation snap = (succeed r u).observation snap := by
  simp only [State.observation, Observation.mk.injEq, true_and, succeed_status, succeed_res,
    Status.succeeded_errCode, Status.succeeded_errBuf, Status.succeeded_collapsed]
  constructor <;> refine List.map_congr_left fun j hj => ?_ <;> rw [List.mem_range] at hj
  · have hout : j < r.out.length := Nat.lt_of_lt_of_le hj (by simpa [CmdResult.regs] using Nat.mod_le _ _)
    rw [succeed_get_out r s hout, succeed_get_out r u hout]
  · have htab : j < r.tab.length := by
      by_cases hi : i = .sfEnc
      · obtain ⟨hlen, hcount⟩ := h.tab hi
        simp only [CmdResult.regs, BitVec.toNat_ofNat] at hj
        split at hj <;> omega
      · simp [CmdResult.regs, h.width hi] at hj
    rw [h.succeed_get_tab s htab, h.succeed_get_tab u htab]

/-- After an error no byte is observed. -/
theorem raiseError_observation (e : CmdError) (s u : State) (snap : Snapshot) :
    (raiseError e s).observation snap = (raiseError e u).observation snap := rfl

/-- Settles O35: the two commands have one outcome, and what is observed is read off the outcome. -/
theorem onlyArEncReadsAux : Obligations.OnlyArEncReadsAux := by
  intro i s u s' u' hi hcfg hlen hin hs hu snap
  rw [exec_eq_finish_commandOutcome] at hs hu
  rw [← hcfg, ← commandOutcome_congr hi s.cfg hlen hin] at hu
  cases hs
  cases hu
  cases hr : commandOutcome i s.cfg s.snapshot with
  | ok r => exact (commandOutcome_namesOnly hr).observation s u snap
  | error e => exact raiseError_observation e s u snap

/-! ### IN and AUX -/

theorem outsideOutputs_of_inputs {a : Nat} (hlo : 0x1000000 ≤ a) (hhi : a < 0x3000000) : OutsideOutputs a := by
  simp only [OutsideOutputs, Buffer.base, outSpan]
  omega

/-- A command stores nothing between TAB and OUT, whatever the parameters (R79). -/
theorem exec_mem_inputs {i : Instr} {s t : State} (h : exec i s = .next t) {a : Nat}
    (hlo : 0x1000000 ≤ a) (hhi : a < 0x3000000) : t.mem.get a = s.mem.get a := by
  obtain ⟨r, hr, rfl⟩ | ⟨e, rfl⟩ := exec_cases h
  · have := hr.tab_length_le
    rw [succeed_mem, Memory.get_setBytes, if_neg (by simp only [Buffer.base]; omega), Memory.get_setBytes,
      if_neg (by simp only [Buffer.base]; omega), Memory.forgetOutputs_outside _ (outsideOutputs_of_inputs hlo hhi)]
  · exact Memory.forgetOutputs_outside _ (outsideOutputs_of_inputs hlo hhi)

theorem EngineEffect.mem_inputs {s t : State} (h : EngineEffect s t) {a : Nat}
    (hlo : 0x1000000 ≤ a) (hhi : a < 0x3000000) : t.mem.get a = s.mem.get a := by
  cases h with
  | idle => rfl
  | command snap i r _ _ hexec => exact exec_mem_inputs hexec hlo hhi
  | illegal => exact Memory.forgetOutputs_outside _ (outsideOutputs_of_inputs hlo hhi)

/-- Settles O29: no command and no soft reset touches the windows of IN and AUX, and a store touches the bytes it covers. -/
theorem inputsChangeOnlyByHostWhileIdle : Obligations.InputsChangeOnlyByHostWhileIdle := by
  intro s t a h hlo hhi hne
  have hout := outsideOutputs_of_inputs hlo hhi
  cases stepEffect_of_step h with
  | hardReset hm => exact .inl hm
  | engine t _ he => exact absurd (he.mem_inputs hlo hhi) hne
  | host t hm he =>
    cases he with
    | quiet => exact absurd rfl hne
    | write o n w c u _ hop hw =>
      obtain ⟨hidle, hcover⟩ := hw.changes_input hout hne
      exact .inr ⟨hm, hidle, n, o, w, hop, hcover⟩

end Sys2Proof.Machine

/-! STATUS as the host reads it, and the end of a command as it is observed (10_state.md R28, R49; 20_memory.md R78;
70_reset_and_hazards.md R257). -/

namespace Sys2Proof.Machine

/-! ### STATUS as a word -/

theorem ErrCode.toNat_le (c : ErrCode) : c.toNat ≤ 5 := by cases c <;> decide

/-- Every field of STATUS fits its bits (R28). -/
theorem status_fields_le (s : State) : s.busy.toNat ≤ 1 ∧ s.status.done.toNat ≤ 1 ∧ s.status.err.toNat ≤ 1 ∧
    s.status.collapsed.toNat ≤ 1 ∧ s.status.dropped.toNat ≤ 1 ∧ s.status.errCode.toNat ≤ 5 ∧
    s.status.errBuf.toNat ≤ 1 :=
  ⟨Bool.toNat_le _, Bool.toNat_le _, Bool.toNat_le _, Bool.toNat_le _, Bool.toNat_le _, ErrCode.toNat_le _,
    Bool.toNat_le _⟩

/-- No field of STATUS is lost in the register (R28). -/
theorem statusWord_toNat (s : State) : s.statusWord.toNat =
    s.busy.toNat + 2 * s.status.done.toNat + 4 * s.status.err.toNat + 8 * s.status.collapsed.toNat
      + 16 * s.status.dropped.toNat + 256 * s.status.errCode.toNat + 4096 * s.status.errBuf.toNat := by
  have := status_fields_le s
  rw [State.statusWord, BitVec.toNat_ofNat]
  omega

theorem getLsbD_eq_of_toNat {w : Word} {i : Nat} {b : Bool} (h : w.toNat / 2 ^ i % 2 = b.toNat) : w.getLsbD i = b := by
  rw [BitVec.getLsbD, Nat.testBit_eq_decide_div_mod_eq, h]
  cases b <;> rfl

/-- The flags of STATUS, each at its bit (R28). -/
theorem statusWord_flags (s : State) : s.statusWord.getLsbD 1 = s.status.done ∧
    s.statusWord.getLsbD 2 = s.status.err ∧ s.statusWord.getLsbD 3 = s.status.collapsed ∧
    s.statusWord.getLsbD 4 = s.status.dropped ∧ s.statusWord.getLsbD 12 = s.status.errBuf := by
  have := status_fields_le s
  refine ⟨?_, ?_, ?_, ?_, ?_⟩ <;> exact getLsbD_eq_of_toNat (by rw [statusWord_toNat]; omega)

/-- ERR_CODE stands in bits 11:8 of STATUS, and the reserved bits are 0 (R28). -/
theorem statusWord_code (s : State) : s.statusWord.extractLsb' 5 3 = 0 ∧
    (s.statusWord.extractLsb' 8 4).toNat = s.status.errCode.toNat ∧ s.statusWord.extractLsb' 13 19 = 0 := by
  have := status_fields_le s
  refine ⟨BitVec.eq_of_toNat_eq ?_, ?_, BitVec.eq_of_toNat_eq ?_⟩ <;>
    simp only [BitVec.extractLsb'_toNat, Nat.shiftRight_eq_div_pow, statusWord_toNat, BitVec.ofNat_eq_ofNat,
      BitVec.toNat_ofNat] <;> omega

/-! ### The read that ends a command -/

/-- A load leaves the results as they are, and its answer is what the port reads (R76, R110). -/
theorem step_load {s t : State} {n : Size} {h : Fin 8} {o : Offset} (hm : s.mover = .host)
    (hop : s.host.prog[s.host.pc]? = some (.load n h o)) (hstep : step s = .next t) :
    SameResults s t ∧ ∀ w, t.answer = some (.data w) → portRead o n { s with turns := s.turns.tail } = some w := by
  rw [step_eq_move, hm, move_host, hostMove, hop] at hstep
  cases hstep
  simp only [hostOp, transact]
  split <;> rename_i hread
  · exact ⟨⟨rfl, rfl, rfl, rfl, rfl, fun _ _ => rfl⟩, fun w hw => by cases hw; exact hread⟩
  · exact ⟨⟨rfl, rfl, rfl, rfl, rfl, fun _ _ => rfl⟩, fun w hw => by cases hw⟩

/-- A host read of STATUS that returns DONE = 1 finds DONE set and changes no result (R28, R257). -/
theorem ReadsDone.spec {s t : State} (h : ReadsDone s t) : s.status.done = true ∧ SameResults s t := by
  obtain ⟨hm, ⟨x, hop⟩, hstep, w, hanswer, hbit⟩ := h
  obtain ⟨hsame, hdata⟩ := step_load hm hop hstep
  have hread := hdata w hanswer
  rw [portRead_register (r := .status) (by decide) (by decide)] at hread
  cases hread
  rw [readReg, (statusWord_flags _).1] at hbit
  exact ⟨hbit, hsame⟩

/-- A command that has ended has completed on the snapshot of its launch, and its results still stand (R79, R257). -/
theorem CommandEnds.completed {v : Word} {snap : Snapshot} {s t : State} (h : CommandEnds v snap s t)
    (hl : t.cfg.Legal) : snap.InputTaken t.cfg ∧ ∃ w w', w.cfg = t.cfg ∧ w.phase = .busy snap ∧ w.cmd = v ∧
      engineMove w = .next w' ∧ SameResults w' t := by
  obtain ⟨hdone, hsame⟩ := h.reads.spec
  rw [hsame.cfg] at hl ⊢
  obtain ⟨htaken, ⟨-, -, hclear⟩ | ⟨-, w, w', hcfg, hphase, hcmd, hmove, hstand⟩⟩ := sinceLaunch_cases h.since hl
  · simp [hdone] at hclear
  · exact ⟨htaken, w, w', hcfg, hphase, hcmd, hmove, hstand.trans hsame⟩

/-! ### The outcome and the snapshot -/

/-- A command's outcome is observed alike on all states of the same parameters (R78). -/
theorem commandOutcome_observation (i : Instr) (p : Params) (snap : Snapshot) (s u : State) (k : Snapshot) :
    (finish (commandOutcome i p snap) s).observation k = (finish (commandOutcome i p snap) u).observation k := by
  cases hr : commandOutcome i p snap with
  | ok r => exact (commandOutcome_namesOnly hr).observation s u k
  | error e => exact raiseError_observation e s u k

/-- A completion writes every field of STATUS but DROPPED (R210, R213). -/
theorem finish_status (r : CmdOutcome) (s u : State) :
    { (finish r s).status with dropped := false } = { (finish r u).status with dropped := false } := by
  cases r <;> rfl

/-- Settles O34: an outcome is a function of the parameters and the snapshot, a completion leaves one outcome alike on
every state, and what it leaves stands until the read that ends the command. -/
theorem outcomeDependsOnTheSnapshotAlone : Obligations.OutcomeDependsOnTheSnapshotAlone := by
  refine ⟨fun i s u s' u' hcfg _ hsnap hs hu => ?outcome, fun v snap s t u u' hend hl hcfg hcmd hphase hu => ?ended⟩
  case outcome =>
    rw [exec_eq_finish_commandOutcome] at hs hu
    rw [← hcfg, ← hsnap] at hu
    cases hs
    cases hu
    rw [← hsnap]
    have hsame := finish_sameResults (commandOutcome i s.cfg s.snapshot) hcfg.symm
    exact ⟨commandOutcome_observation i _ _ s u _, hsame.res, finish_status _ s u, hsame.mem⟩
  case ended =>
    obtain ⟨htaken, w, w', hwcfg, hwphase, hwcmd, hwmove, hstand⟩ := hend.completed hl
    obtain ⟨r, rfl, hunique⟩ := engineMove_outcome hphase hu
    cases hunique w w' (hwcfg.trans hcfg.symm) (hwcmd.trans hcmd.symm) hwphase hwmove
    rw [← hcfg] at hl htaken
    obtain ⟨hout, hcount⟩ := engineMove_bounds hl hphase htaken hu
    have hsame : SameResults (finish r u) t := (finish_sameResults r (hcfg.trans hwcfg.symm)).trans hstand
    have hkeep : (finish r u).cfg = u.cfg := by cases r <;> rfl
    rw [← hkeep] at hl hout
    exact hsame.observation hl hout hcount snap

end Sys2Proof.Machine

/-! The host port: bus errors, reads and writes of the buffers (20_memory.md R61 to R76). -/

namespace Sys2Proof.Machine

/-! ### Bus errors -/

/-- With legal parameters the windows do not overlap (R61). -/
theorem buffer_unique {p : Params} (hp : p.Legal) {o : Nat} {b c : Buffer} (hb : b.base ≤ o)
    (hb' : o < b.base + b.size p) (hc : c.base ≤ o) (hc' : o < c.base + c.size p) : b = c := by
  have heq := (regionOf_buffer hp hb hb').symm.trans (regionOf_buffer hp hc hc')
  injection heq

theorem Buffer.base_ge (b : Buffer) : 0x1000 ≤ b.base := by cases b <;> decide

theorem Buffer.hostWritable_eq_false (b : Buffer) : b.hostWritable = false ↔ b = .tab ∨ b = .out := by
  cases b <;> simp [Buffer.hostWritable]

theorem Buffer.hostWritable_eq_true (b : Buffer) : b.hostWritable = true ↔ b = .input ∨ b = .aux := by
  cases b <;> simp [Buffer.hostWritable]

/-- An offset the map reserves is in no buffer (R61, R64). -/
theorem not_inBuffer_of_reserved {p : Params} (hp : p.Legal) {o : Nat} (h : regionOf p o = .reserved) :
    ¬ InBuffer p o := by
  rintro ⟨b, hlo, hhi⟩
  rw [regionOf_buffer hp hlo hhi] at h
  cases h

@[simp] theorem Txn.offset_read (o : Offset) (n : Size) : (Txn.read o n).offset = o.toNat := rfl
@[simp] theorem Txn.offset_write (o : Offset) (n : Size) (v : Word) : (Txn.write o n v).offset = o.toNat := rfl
@[simp] theorem Txn.bytes_read (o : Offset) (n : Size) : (Txn.read o n).bytes = n.bytes := by cases n <;> rfl
@[simp] theorem Txn.bytes_write (o : Offset) (n : Size) (v : Word) : (Txn.write o n v).bytes = n.bytes := by
  cases n <;> rfl
@[simp] theorem Txn.isWrite_read (o : Offset) (n : Size) : (Txn.read o n).isWrite = false := rfl
@[simp] theorem Txn.isWrite_write (o : Offset) (n : Size) (v : Word) : (Txn.write o n v).isWrite = true := rfl

theorem Size.bytes_eq_four (n : Size) : n.bytes = 4 ↔ n = .word := by cases n <;> simp [Size.bytes]

/-- The region refuses an aligned transaction (R67 to R71). -/
def Region.Refuses (p : Params) (t : Txn) : Region → Prop
  | .register _ => t.bytes ≠ 4
  | .buffer b j => b.size p < j + t.bytes ∨ (t.isWrite = true ∧ b.hostWritable = false)
  | .reserved => True

/-- The cases of R70 in terms of the address map: a misaligned access, or one that its region refuses. -/
theorem busErrorCase_iff {p : Params} (hp : p.Legal) (t : Txn) :
    BusErrorCase p t ↔ t.offset % t.bytes ≠ 0 ∨ (regionOf p t.offset).Refuses p t := by
  obtain ⟨r, hr, -, ho⟩ | ⟨b, hb, hlo, hhi, ho⟩ | ⟨hr, ho⟩ := regionOf_cases p t.offset
  · rw [hr, Region.Refuses]
    refine ⟨fun hcase => ?_, fun h => h.elim .misaligned (.narrow ho)⟩
    cases hcase with
    | reserved h => exact absurd ho h
    | misaligned h => exact .inl h
    | narrow _ h => exact .inr h
    | pastEnd b h | readOnly b _ _ h =>
      have := b.base_ge
      omega
  · rw [hb, Region.Refuses]
    refine ⟨fun hcase => ?_, ?_⟩
    · cases hcase with
      | reserved _ h => exact absurd ⟨b, hlo, hhi⟩ h
      | misaligned h => exact .inl h
      | narrow h => omega
      | pastEnd c hc hc' h =>
        cases buffer_unique hp hc hc' hlo hhi
        exact .inr (.inl (by omega))
      | readOnly c hw h hc hc' =>
        cases buffer_unique hp hc hc' hlo hhi
        exact .inr (.inr ⟨hw, b.hostWritable_eq_false.2 h⟩)
    · rintro (h | h | ⟨hw, h⟩)
      · exact .misaligned h
      · exact .pastEnd b hlo hhi (by omega)
      · exact .readOnly b hw (b.hostWritable_eq_false.1 h) hlo hhi
  · rw [hr, Region.Refuses]
    simp only [or_true, iff_true]
    exact .reserved (by omega) (not_inBuffer_of_reserved hp hr)

/-- The port has no data for a read exactly in the cases of R70. -/
theorem portRead_eq_none {s : State} (hp : s.cfg.Legal) (o : Offset) (n : Size) :
    portRead o n s = none ↔ BusErrorCase s.cfg (.read o n) := by
  rw [busErrorCase_iff hp, portRead, Txn.offset_read, Txn.bytes_read]
  by_cases hm : o.toNat % n.bytes = 0
  · cases regionOf s.cfg o.toNat <;> simp [hm, Region.Refuses, Size.bytes_eq_four]
  · simp [hm]

/-- The port refuses a write exactly in the cases of R70. -/
theorem portWrite_eq_none {s : State} (hp : s.cfg.Legal) (o : Offset) (n : Size) (v : Word) :
    portWrite o n v s = none ↔ BusErrorCase s.cfg (.write o n v) := by
  rw [busErrorCase_iff hp, portWrite, Txn.offset_write, Txn.bytes_write]
  by_cases hm : o.toNat % n.bytes = 0
  · cases regionOf s.cfg o.toNat with
    | register r => simp [hm, Region.Refuses, Size.bytes_eq_four]
    | buffer b j => cases hw : b.hostWritable <;> simp [hm, hw, Region.Refuses]
    | reserved => simp [hm, Region.Refuses]
  · simp [hm]

/-- A transaction is a bus error that changes nothing, in the cases of R70, or is answered OK (R63). -/
theorem transact_cases {s : State} (hp : s.cfg.Legal) (t : Txn) :
    (BusErrorCase s.cfg t ∧ transact t s = { s with answer := some .busError }) ∨
    (¬ BusErrorCase s.cfg t ∧
      ((transact t s).answer = some .ok ∨ ∃ v, (transact t s).answer = some (.data v))) := by
  cases t with
  | read o n =>
    rw [← portRead_eq_none hp, transact]
    cases hread : portRead o n s with
    | none => exact .inl ⟨rfl, rfl⟩
    | some v => exact .inr ⟨by simp, .inr ⟨v, rfl⟩⟩
  | write o n v =>
    rw [← portWrite_eq_none hp, transact]
    cases hwrite : portWrite o n v s with
    | none => exact .inl ⟨rfl, rfl⟩
    | some u => exact .inr ⟨by simp, .inl rfl⟩

/-- Settles O16: the port answers none exactly in the cases of R70. -/
theorem busErrorsExactlyAndWithoutEffect : Obligations.BusErrorsExactlyAndWithoutEffect := by
  intro s t hp
  obtain ⟨hcase, heq⟩ | ⟨hcase, hanswer⟩ := transact_cases hp t
  · exact ⟨by simp [hcase, heq], fun _ => heq, fun h => absurd hcase h⟩
  · refine ⟨?_, fun h => absurd h hcase, fun _ => hanswer⟩
    obtain hok | ⟨v, hdata⟩ := hanswer
    · simp [hok, hcase]
    · simp [hdata, hcase]

/-! ### Writes -/

/-- A legal write to IN or AUX, as a transaction (R63, R71). -/
theorem transact_write_buffer {s : State} (hp : s.cfg.Legal) {o : Offset} {n : Size} {b : Buffer}
    (hb : b = .input ∨ b = .aux) (hm : o.toNat % n.bytes = 0) (hlo : b.base ≤ o.toNat)
    (hhi : o.toNat + n.bytes ≤ b.base + b.size s.cfg) (v : Word) :
    transact (.write o n v) s = { unlessBusy { s with mem := s.mem.setBytes o.toNat (leBytes n.bytes v.toNat) } s with
      answer := some .ok } := by
  simp only [transact, portWrite_buffer hp hm hlo hhi, b.hostWritable_eq_true.2 hb, if_true, writeBytes,
    Nat.add_sub_cancel' hlo]

/-- Settles O10: each of the four writes is one of `unlessBusy`. -/
theorem lockedWritesAreDropped : Obligations.LockedWritesAreDropped := by
  intro s v n b o hbusy hp hb hm hlo hhi
  refine ⟨_, rfl, ?buffer, ?cmd, ?inLen, ?auxLen⟩
  case buffer => rw [transact_write_buffer hp hb hm hlo hhi, unlessBusy_of_busy hbusy]; rfl
  case cmd => rw [transact_write_register (r := .cmd) (by decide) (by decide), writeReg_cmd_busy hbusy]; rfl
  case inLen =>
    rw [transact_write_register (r := .inLen) (by decide) (by decide), writeReg, unlessBusy_of_busy hbusy]; rfl
  case auxLen =>
    rw [transact_write_register (r := .auxLen) (by decide) (by decide), writeReg, unlessBusy_of_busy hbusy]; rfl

/-! ### Reads of bytes -/

/-- A byte of IN or AUX that has been written reads as written, in either phase (R73, R85). -/
theorem readByte_of_written {s : State} {b : Buffer} (hb : b = .input ∨ b = .aux) {j : Nat} {v : Byte}
    (h : s.mem.get (b.base + j) = some v) : readByte b j s = v := by
  rcases hb with rfl | rfl <;> simp [readByte, h]

/-- While IDLE every defined byte of a buffer reads as it is (R46, R47, R79). -/
theorem readByte_of_defined {s : State} (hidle : s.busy = false) {b : Buffer} {j : Nat} {v : Byte}
    (h : s.mem.get (b.base + j) = some v) : readByte b j s = v := by
  cases b <;> simp [readByte, h, hidle]

/-- While BUSY a byte of OUT or TAB reads as a free value (R74). -/
theorem readByte_of_busy {s : State} (hbusy : s.busy = true) {b : Buffer} (hb : b = .tab ∨ b = .out) (j : Nat) :
    readByte b j s = Config.freeByte s.draws (b.base + j) := by
  rcases hb with rfl | rfl <;> simp [readByte, hbusy]

/-- A read of a buffer is the little-endian value of the bytes it covers (R65). -/
theorem readBytes_eq_leNat {s : State} {b : Buffer} {j n : Nat} {bs : List Byte} (hlen : bs.length = n)
    (h : ∀ k, k < n → bs[k]? = some (readByte b (j + k) s)) : readBytes b j n s = BitVec.ofNat 32 (leNat bs) := by
  have hbytes : ((List.range n).map fun t => readByte b (j + t) s) = bs := by
    apply List.ext_getElem?
    intro k
    by_cases hk : k < n
    · simp [hk, h k hk]
    · simp [hk, hlen]
  rw [readBytes, hbytes]

theorem readBytes_one (b : Buffer) (j : Nat) (s : State) : readBytes b j 1 s = (readByte b j s).setWidth 32 := by
  apply BitVec.eq_of_toNat_eq
  simp [readBytes, leNat]

/-- A 1-byte read inside a buffer gives its byte (R65). -/
theorem portRead_byte {s : State} (hp : s.cfg.Legal) {o : Offset} {b : Buffer} (hlo : b.base ≤ o.toNat)
    (hhi : o.toNat < b.base + b.size s.cfg) :
    portRead o .byte s = some ((readByte b (o.toNat - b.base) s).setWidth 32) := by
  rw [portRead_buffer hp (n := .byte) (Nat.mod_one _) hlo hhi]
  exact congrArg some (readBytes_one _ _ _)

/-- Byte `k` of a stored value is its bits `8k+7 : 8k` (R65). -/
theorem leBytes_getElem?_extract {n k : Nat} (v : Word) (hk : k < n) :
    (leBytes n v.toNat)[k]? = some (v.extractLsb' (8 * k) 8) := by
  rw [leBytes_getElem? n v.toNat k hk]
  congr 1
  apply BitVec.eq_of_toNat_eq
  rw [BitVec.toNat_ofNat, BitVec.extractLsb'_toNat, Nat.shiftRight_eq_div_pow, Nat.pow_mul]

/-- Where the bytes of a value stand in IN or AUX, the port reads each of them, and the value (R65). -/
theorem portRead_of_stored {s : State} (hp : s.cfg.Legal) {b : Buffer} (hb : b = .input ∨ b = .aux) {o : Offset}
    {n : Size} (hm : o.toNat % n.bytes = 0) (hlo : b.base ≤ o.toNat)
    (hhi : o.toNat + n.bytes ≤ b.base + b.size s.cfg) {v : Word}
    (hstored : ∀ k, k < n.bytes → s.mem.get (o.toNat + k) = some (v.extractLsb' (8 * k) 8)) :
    (∀ k, k < n.bytes → portRead (o + BitVec.ofNat 26 k) .byte s = some ((v.extractLsb' (8 * k) 8).setWidth 32)) ∧
    ∃ w, portRead o n s = some w ∧ w.toNat = v.toNat % 2 ^ (8 * n.bytes) := by
  have hread : ∀ k, k < n.bytes → readByte b (o.toNat - b.base + k) s = v.extractLsb' (8 * k) 8 := fun k hk =>
    readByte_of_written hb (by rw [← hstored k hk]; congr 1; omega)
  refine ⟨fun k hk => ?byte, _, portRead_buffer hp hm hlo hhi, ?value⟩
  case byte =>
    have hin := hp.nIn_le
    have haux := hp.nAux_le
    have haddr : (o + BitVec.ofNat 26 k).toNat = o.toNat + k := by
      rw [BitVec.toNat_add, BitVec.toNat_ofNat]
      rcases hb with rfl | rfl <;> simp only [Buffer.base, Buffer.size] at hhi <;> omega
    rw [portRead_byte hp (b := b) (by omega) (by omega), haddr, Nat.sub_add_comm hlo, hread k hk]
  case value =>
    have hv := v.isLt
    rw [readBytes_eq_leNat (leBytes_length n.bytes v.toNat)
      fun k hk => by rw [hread k hk, leBytes_getElem?_extract v hk], leNat_leBytes]
    cases n <;> simp only [Size.bytes, BitVec.toNat_ofNat] <;> omega

/-- Settles O17: the bytes stored are those of `leBytes`, and the port reads them back. -/
theorem bufferWriteIsLittleEndian : Obligations.BufferWriteIsLittleEndian := by
  intro s v n b o hidle hp hb hm hlo hhi
  have hstored : ∀ k, k < n.bytes → (s.mem.setBytes o.toNat (leBytes n.bytes v.toNat)).get (o.toNat + k) =
      some (v.extractLsb' (8 * k) 8) := fun k hk => by
    rw [Memory.get_setBytes, leBytes_length, if_pos (by omega), Nat.add_sub_cancel_left, leBytes_getElem?_extract v hk]
  refine ⟨{ s with mem := s.mem.setBytes o.toNat (leBytes n.bytes v.toNat), answer := some .ok }, ?answer, rfl, hstored,
    fun a ha => ?frame, ?reads⟩
  case answer => rw [transact_write_buffer hp hb hm hlo hhi, unlessBusy_of_idle hidle]
  case frame => rw [Memory.get_setBytes, leBytes_length, if_neg (by omega)]
  case reads => apply portRead_of_stored (b := b) <;> assumption

end Sys2Proof.Machine

/-! Reads at the host port, and what a step leaves alone (10_state.md R28 to R40; 20_memory.md R65, R69, R73 to R79). -/

namespace Sys2Proof.Machine

/-! ### The result registers -/

/-- The registers that hold a command's results (R74). -/
def RegName.isResult : RegName → Bool
  | .outLen | .errPos | .resOrig | .resComp | .resRatio | .resCount | .resDict | .resWidth
  | .arLowL | .arLowH | .arHighL | .arHighH | .arValL | .arValH => true
  | _ => false

/-- They are the fourteen words from 0x018 on (R23). -/
theorem regAt_result {o : Nat} (hlo : 0x018 ≤ o) (hhi : o < 0x050) : ∃ r, regAt o = some r ∧ r.isResult = true := by
  have hlo : 6 ≤ o / 4 := by omega
  have hhi : o / 4 < 20 := by omega
  unfold regAt
  generalize o / 4 = q at hlo hhi
  interval_cases q <;> exact ⟨_, rfl, rfl⟩

theorem readResult_of_busy {s : State} (h : s.busy = true) (v : Word) :
    readResult s v = Config.freeWord s.draws := by
  simp [readResult, h]

theorem readResult_of_idle {s : State} (h : s.busy = false) (v : Word) : readResult s v = v := by
  simp [readResult, h]

/-- While BUSY every result register reads as the same draw (R74). -/
theorem readReg_result_of_busy {s : State} (h : s.busy = true) {r : RegName} (hr : r.isResult = true) :
    readReg r s = Config.freeWord s.draws := by
  cases r with
  | id | ctrl | cmd | status | inLen | auxLen | cfg0 | cfgNIn | cfgNAux | cfgNOut => simp [RegName.isResult] at hr
  | _ => exact readResult_of_busy h _

/-! ### Reads change nothing -/

/-- A read changes the answer and the draws alone (R76). -/
theorem transact_read_frame (o : Offset) (n : Size) (s : State) :
    transact (.read o n) s = { s with
      answer := (transact (.read o n) s).answer, draws := (transact (.read o n) s).draws } := by
  rw [transact]
  cases portRead o n s <;> rfl

/-- While IDLE no register's value depends on the draws or on an answer (R76). -/
theorem readReg_idempotent {s : State} (hidle : s.busy = false) (r : RegName) (d : Nat) (a : Option Answer) :
    readReg r { s with draws := d, answer := a } = readReg r s := by
  have hidle' : ({ s with draws := d, answer := a } : State).busy = false := hidle
  cases r with
  | id | ctrl | cmd | status | inLen | auxLen | cfg0 | cfgNIn | cfgNAux | cfgNOut => rfl
  | _ => simp only [readReg, readResult_of_idle hidle, readResult_of_idle hidle']

/-- While IDLE no byte's value depends on them, where a byte of OUT or TAB is defined (R46, R47, R76). -/
theorem readByte_idempotent {s : State} (hp : s.cfg.Legal) (hidle : s.busy = false) {b : Buffer} {j : Nat}
    (hj : j < b.size s.cfg)
    (hdef : ¬ OutsideOutputs (b.base + j) → (s.mem.get (b.base + j)).isSome = true) (d : Nat) (a : Option Answer) :
    readByte b j { s with draws := d, answer := a } = readByte b j s := by
  have hout := hp.nOut_le
  have hoff : b = .tab ∨ b = .out → ¬ OutsideOutputs (b.base + j) := by
    rintro (rfl | rfl) <;> simp only [Buffer.size] at hj <;> simp only [OutsideOutputs, Buffer.base, outSpan] <;> omega
  cases b with
  | input | aux => rfl
  | tab | out =>
    obtain ⟨v, hv⟩ := Option.isSome_iff_exists.1 (hdef (hoff (by simp)))
    rw [readByte_of_defined (s := { s with draws := d, answer := a }) hidle hv, readByte_of_defined hidle hv]

theorem readBytes_congr {s t : State} {b : Buffer} {j n : Nat}
    (h : ∀ k, k < n → readByte b (j + k) t = readByte b (j + k) s) : readBytes b j n t = readBytes b j n s := by
  rw [readBytes, readBytes, List.map_congr_left fun k hk => h k (List.mem_range.1 hk)]

/-- Settles O18: the port's answer is made of registers and bytes that the draws do not touch. -/
theorem readsHaveNoSideEffects : Obligations.ReadsHaveNoSideEffects := by
  intro s o n
  refine ⟨transact_read_frame o n s, fun d a hp hidle hdef => ?_⟩
  simp only [portRead]
  obtain ⟨r, hr, -⟩ | ⟨b, hb, hlo, -⟩ | ⟨hr, -⟩ := regionOf_cases s.cfg o.toNat
  · simp only [hr, readReg_idempotent hidle]
  · simp only [hb]
    by_cases hend : o.toNat - b.base + n.bytes ≤ b.size s.cfg
    · have hbytes : readBytes b (o.toNat - b.base) n.bytes { s with draws := d, answer := a } =
          readBytes b (o.toNat - b.base) n.bytes s := by
        refine readBytes_congr fun k hk => readByte_idempotent hp hidle (by omega) ?_ d a
        rw [show b.base + (o.toNat - b.base + k) = o.toNat + k by omega]
        exact hdef k hk
      rw [hbytes]
    · simp only [hend, if_false]
  · simp only [hr]

/-! ### Reads while BUSY -/

/-- Settles O20: the port reads result registers by `readResult` and the bytes of OUT and TAB as free values. -/
theorem busyReadsOfResultsAreDraws : Obligations.BusyReadsOfResultsAreDraws := by
  intro s o hbusy hp
  refine ⟨fun hm hlo hhi => ?register, fun b n hb hm hlo hhi => ?buffer⟩
  case register =>
    obtain ⟨r, hr, hresult⟩ := regAt_result hlo hhi
    rw [transact_read_register hm hr, readReg_result_of_busy hbusy hresult]
  case buffer =>
    obtain ⟨hlt, hbytes⟩ := readBytes_spec b (o.toNat - b.base) n s
    refine ⟨readBytes b (o.toNat - b.base) n.bytes s, ?_, hlt, fun k hk => ?_⟩
    · simp only [transact, portRead_buffer hp hm hlo hhi]
    · rw [hbytes k hk, readByte_of_busy hbusy hb]
      congr 1
      omega

/-- While BUSY only BUSY and DROPPED can be set in STATUS (R73). -/
theorem statusWord_of_busy {s : State} (h : s.Inv) (hbusy : s.busy = true) :
    s.statusWord = if s.status.dropped then 0x00000011#32 else 0x00000001#32 := by
  apply BitVec.eq_of_toNat_eq
  rw [statusWord_toNat, hbusy, h.results.busy_status hbusy]
  cases hd : s.status.dropped <;> simp [hd, ErrCode.toNat]

/-- Settles O19: no register read here is a result register, and IN and AUX read as written in either phase. -/
theorem busyReadsOfStatusAndInputs : Obligations.BusyReadsOfStatusAndInputs := by
  intro s h hbusy
  have register : ∀ {o : Offset} {r : RegName}, o.toNat % 4 = 0 → regAt o.toNat = some r →
      portRead o .word s = some (readReg r s) := fun hm hr => portRead_register hm hr s
  refine ⟨?status, register (r := .id) (by decide) (by decide), ?ctrl, register (r := .cmd) (by decide) (by decide),
    register (r := .inLen) (by decide) (by decide), register (r := .auxLen) (by decide) (by decide),
    fun b o v hb hlo hhi hv => ?byte⟩
  case status => rw [register (r := .status) (by decide) (by decide), readReg, statusWord_of_busy h hbusy]
  case ctrl =>
    rw [register (r := .ctrl) (by decide) (by decide), readReg, State.ctrlWord]
    cases s.irqEn <;> rfl
  case byte =>
    rw [portRead_byte h.legal hlo hhi, readByte_of_written hb]
    rw [Nat.add_sub_cancel' hlo, hv]

/-! ### Reads while IDLE -/

/-- A 64-bit value is its two words, the low one first (R192). -/
theorem dword_split (v : Dword) : v.toNat = (v.extractLsb' 0 32).toNat + 2 ^ 32 * (v.extractLsb' 32 32).toNat := by
  have := v.isLt
  simp only [BitVec.extractLsb'_toNat, Nat.shiftRight_eq_div_pow]
  omega

/-- The two registers of a 64-bit value, read while IDLE, make it up (R69, R192). -/
theorem portRead_dword {s : State} (hidle : s.busy = false) {o o' : Offset} {r r' : RegName} {v : Dword}
    (hm : o.toNat % 4 = 0) (hm' : o'.toNat % 4 = 0) (hr : regAt o.toNat = some r) (hr' : regAt o'.toNat = some r')
    (hlow : readReg r s = readResult s (v.extractLsb' 0 32))
    (hhigh : readReg r' s = readResult s (v.extractLsb' 32 32)) :
    ∃ l h, portRead o .word s = some l ∧ portRead o' .word s = some h ∧ v.toNat = l.toNat + 2 ^ 32 * h.toNat := by
  rw [portRead_register hm hr, portRead_register hm' hr', hlow, hhigh, readResult_of_idle hidle,
    readResult_of_idle hidle]
  exact ⟨_, _, rfl, rfl, dword_split v⟩

/-- The windows of R61 begin where the buffers do. -/
theorem window_eq_base {b : Buffer} {window : Nat}
    (h : (b, window) ∈ [(Buffer.tab, 0x1000), (.input, 0x1000000), (.aux, 0x2000000), (.out, 0x3000000)]) :
    window = b.base := by
  simp only [List.mem_cons, Prod.mk.injEq, List.not_mem_nil, or_false] at h
  rcases h with ⟨rfl, rfl⟩ | ⟨rfl, rfl⟩ | ⟨rfl, rfl⟩ | ⟨rfl, rfl⟩ <;> rfl

/-- Settles O21: while IDLE registers read as they are, and defined bytes as `readByte` gives them. -/
theorem idleRegisterReads : Obligations.IdleRegisterReads := by
  intro s hidle
  have result : ∀ {o : Offset} {r : RegName} {v : Word}, o.toNat % 4 = 0 → regAt o.toNat = some r →
      readReg r s = readResult s v → portRead o .word s = some v := fun hm hr hv => by
    rw [portRead_register hm hr, hv, readResult_of_idle hidle]
  refine ⟨fun hp b window j n o bs hwindow ho hm hend hlen hbs => ?buffer,
    result (r := .outLen) (by decide) (by decide) rfl, result (r := .errPos) (by decide) (by decide) rfl,
    result (r := .resOrig) (by decide) (by decide) rfl, result (r := .resComp) (by decide) (by decide) rfl,
    result (r := .resRatio) (by decide) (by decide) rfl, result (r := .resCount) (by decide) (by decide) rfl,
    result (r := .resDict) (by decide) (by decide) rfl, result (r := .resWidth) (by decide) (by decide) rfl,
    portRead_dword hidle (r := .arLowL) (r' := .arLowH) (by decide) (by decide) (by decide) (by decide) rfl rfl,
    portRead_dword hidle (r := .arHighL) (r' := .arHighH) (by decide) (by decide) (by decide) (by decide) rfl rfl,
    portRead_dword hidle (r := .arValL) (r' := .arValH) (by decide) (by decide) (by decide) (by decide) rfl rfl,
    s.statusWord, portRead_register (r := .status) (by decide) (by decide) s, ?status⟩
  case buffer =>
    rw [window_eq_base hwindow] at ho
    obtain ⟨hlt, hbytes⟩ := readBytes_spec b j n s
    have hj : o.toNat - b.base = j := by omega
    refine ⟨readBytes b j n.bytes s, ?_, hlt, fun k hk => ?_⟩
    · rw [portRead_buffer hp (b := b) hm (by omega) (by omega), hj]
    · have hdef : bs[k]? = some (bs[k]'(by omega)) := List.getElem?_eq_getElem _
      rw [hbytes k hk, hdef, readByte_of_defined hidle]
      rw [← hdef, ← hbs k hk, Nat.add_assoc]
  case status =>
    obtain ⟨hdone, herr, hcollapsed, hdropped, herrBuf⟩ := statusWord_flags s
    obtain ⟨hlow, hcode, hhigh⟩ := statusWord_code s
    refine ⟨(statusWord_busy s).trans hidle, hdone, herr, hcollapsed, hdropped, hlow, ?_, herrBuf, hhigh⟩
    rw [hcode]
    cases s.status.errCode <;> rfl

/-! ### What a step leaves alone -/

theorem HostEffect.wf {s t : State} (h : HostEffect s t) (hs : s.mem.wf = true) : t.mem.wf = true := by
  cases h with
  | quiet => exact hs
  | write o n w a u _ _ hw => exact hw.wf hs

theorem EngineEffect.wf {s t : State} (h : EngineEffect s t) (hs : s.mem.wf = true) : t.mem.wf = true := by
  cases h with
  | idle => exact hs
  | command snap i r => exact wf_finish hs r
  | illegal => exact wf_raiseError hs _

/-- Settles O33: every move stores into memory or forgets bytes of it, and both keep its order. -/
theorem stepKeepsMemoryCanonical : Obligations.StepKeepsMemoryCanonical := by
  intro s t hs hstep
  cases stepEffect_of_step hstep with
  | host t _ hmove => exact hmove.wf hs
  | engine t _ hmove => exact hmove.wf hs
  | hardReset => rfl

/-- Settles O27: a step that is no launch and no reset keeps the results, for no command runs while IDLE. -/
theorem resultsStayUntilLaunchOrReset : Obligations.ResultsStayUntilLaunchOrReset := by
  intro s t hstep hp hidle
  by_cases hhard : s.mover = .hardReset
  · exact .inr (.inl hhard)
  by_cases hlaunch : ∃ v, HostStores s 0x008 v
  · exact .inr (.inr (.inl hlaunch))
  by_cases hsoft : ∃ v, HostStores s 0x004 v ∧ v.getLsbD 1 = true
  · exact .inr (.inr (.inr hsoft))
  have hnoSoft : ∀ w, HostStores s 0x004 w → w.getLsbD 1 = false := fun w hw => by
    by_contra hbit
    exact hsoft ⟨w, hw, by simpa using hbit⟩
  obtain ⟨-, -, -, hsame⟩ | ⟨hbusy, -⟩ :=
    step_between hstep hp hhard hnoSoft fun w hw => absurd ⟨w, hw⟩ hlaunch
  · exact .inl ⟨hsame.res, hsame.mem⟩
  · simp [hidle] at hbusy

end Sys2Proof.Machine

/-! The command word: its fields, its decoder and its encoder, on words and on byte strings (30_encoding.md
R90 to R94). -/

namespace Sys2Proof

/-! ### Command words -/

theorem encodingStatement (i : Instr) : Laws.Encoding.Statement i := by
  cases i with
  | rleEnc => exact Laws.Encoding.rleEnc
  | rleDec => exact Laws.Encoding.rleDec
  | lzwEnc => exact Laws.Encoding.lzwEnc
  | lzwDec => exact Laws.Encoding.lzwDec
  | sfEnc => exact Laws.Encoding.sfEnc
  | arEnc => exact Laws.Encoding.arEnc

@[simp] theorem decodeWord_encodeWord (i : Instr) : decodeWord (encodeWord i) = .ok i := by
  obtain ⟨-, hdecode, -⟩ := encodingStatement i
  exact hdecode

theorem encodeWord_toNat (i : Instr) : (encodeWord i).toNat = (opcode i).toNat := by
  cases i <;> rfl

/-- A command word is RSVD over the four bits of OP (R90). -/
theorem toNat_eq_cmdFields (w : Word) : w.toNat = 16 * (cmdFields w).rsvd.toNat + (cmdFields w).op.toNat := by
  have := w.isLt
  simp only [cmdFields, BitVec.extractLsb'_toNat, Nat.shiftRight_eq_div_pow]
  omega

/-- The dispatch test passes only with RSVD 0 and the command's own OP (R91, R92). -/
theorem cmdFields_of_decodeWord {w : Word} {i : Instr} (h : decodeWord w = .ok i) :
    (cmdFields w).rsvd = 0 ∧ (cmdFields w).op.toNat = (opcode i).toNat := by
  unfold decodeWord at h
  split at h
  · cases h
  · rename_i hrsvd
    refine ⟨not_not.mp hrsvd, ?_⟩
    split at h <;> cases h <;> assumption

/-- Each command has one command word (R91). -/
theorem decodeWord_eq_ok_iff {w : Word} {i : Instr} : decodeWord w = .ok i ↔ w = encodeWord i := by
  constructor
  · intro h
    obtain ⟨hrsvd, hop⟩ := cmdFields_of_decodeWord h
    apply BitVec.eq_of_toNat_eq
    rw [toNat_eq_cmdFields w, hrsvd, hop, encodeWord_toNat]
    simp
  · rintro rfl
    exact decodeWord_encodeWord i

/-- The opcodes are 1 to 6 (R91). -/
theorem exists_opcode_iff (n : Nat) : (∃ i, (opcode i).toNat = n) ↔ 1 ≤ n ∧ n ≤ 6 := by
  constructor
  · rintro ⟨i, rfl⟩
    cases i <;> decide
  · rintro ⟨hlow, hhigh⟩
    interval_cases n
    exacts [⟨.rleEnc, rfl⟩, ⟨.rleDec, rfl⟩, ⟨.lzwEnc, rfl⟩, ⟨.lzwDec, rfl⟩, ⟨.sfEnc, rfl⟩, ⟨.arEnc, rfl⟩]

/-- A legal word is the number of an opcode (R91). -/
theorem exists_decodeWord_iff (w : Word) : (∃ i, decodeWord w = .ok i) ↔ 1 ≤ w.toNat ∧ w.toNat ≤ 6 := by
  rw [← exists_opcode_iff]
  simp only [decodeWord_eq_ok_iff, BitVec.toNat_eq, encodeWord_toNat, eq_comm (a := w.toNat)]

/-! ### Byte strings -/

/-- The decoder reads a word from its four little-endian bytes and hands back the rest (R94, R65). -/
theorem decode_leBytes (n : Nat) (rest : List Byte) :
    decode (leBytes 4 n ++ rest) = (decodeWord (BitVec.ofNat 32 n)).map fun i => (i, rest) := by
  obtain ⟨b0, b1, b2, b3, hbytes⟩ := Machine.leBytes_four n
  have hword : BitVec.ofNat 32 (leNat [b0, b1, b2, b3]) = BitVec.ofNat 32 n := by
    rw [← hbytes, leNat_leBytes]
    apply BitVec.eq_of_toNat_eq
    simp
  rw [hbytes]
  simp only [List.cons_append, List.nil_append, decode, hword]
  cases decodeWord (BitVec.ofNat 32 n) <;> rfl

/-- A string that decodes is the four bytes of a number, and what is handed back (R94). -/
theorem exists_leBytes_of_decode {bytes rest : List Byte} {i : Instr} (h : decode bytes = .ok (i, rest)) :
    ∃ n, n < 2 ^ 32 ∧ bytes = leBytes 4 n ++ rest := by
  match bytes, h with
  | b0 :: b1 :: b2 :: b3 :: tail, h =>
    have htail : tail = rest := by
      rw [decode] at h
      split at h <;> cases h
      rfl
    have hbytes : leBytes 4 (leNat [b0, b1, b2, b3]) = [b0, b1, b2, b3] := leBytes_leNat [b0, b1, b2, b3]
    refine ⟨leNat [b0, b1, b2, b3], by simpa using leNat_lt [b0, b1, b2, b3], ?_⟩
    rw [hbytes, htail]
    rfl

/-- The strings that decode to `i` are its encoding followed by anything. -/
theorem decode_eq_ok_iff {bytes rest : List Byte} {i : Instr} :
    decode bytes = .ok (i, rest) ↔ bytes = encode i ++ rest := by
  constructor
  · intro h
    obtain ⟨n, hn, rfl⟩ := exists_leBytes_of_decode h
    rw [decode_leBytes] at h
    cases hword : decodeWord (BitVec.ofNat 32 n) with
    | error e => rw [hword] at h; cases h
    | ok j =>
      rw [hword] at h
      cases h
      rw [encode, ← decodeWord_eq_ok_iff.mp hword, BitVec.toNat_ofNat, Nat.mod_eq_of_lt hn]
  · rintro rfl
    rw [encode, decode_leBytes, BitVec.ofNat_toNat, BitVec.setWidth_eq, decodeWord_encodeWord]
    rfl

/-- Settles O3: the strings that decode to a command are its encoding followed by anything, in both directions. -/
theorem decodeAndEncodeAreInverse : Obligations.DecodeAndEncodeAreInverse :=
  ⟨fun _ _ => decode_eq_ok_iff.mpr rfl, fun _ _ _ => decode_eq_ok_iff.mp⟩

/-- Settles O1: the six words are the encodings of the six commands. -/
theorem sixCommandWordsDecode : Obligations.SixCommandWordsDecode :=
  ⟨decodeWord_encodeWord .rleEnc, decodeWord_encodeWord .rleDec, decodeWord_encodeWord .lzwEnc,
    decodeWord_encodeWord .lzwDec, decodeWord_encodeWord .sfEnc, decodeWord_encodeWord .arEnc⟩

/-- Settles O2: the legal words are the numbers of the opcodes, which leave bits 31:4 clear. -/
theorem legalWordsAreTheSixOpcodes : Obligations.LegalWordsAreTheSixOpcodes := by
  refine ⟨fun w => ?legal, fun w i h => ?opcode⟩
  case legal =>
    rw [exists_decodeWord_iff]
    omega
  case opcode =>
    rw [decodeWord_eq_ok_iff.mp h, encodeWord_toNat]
    cases i <;> rfl

end Sys2Proof

/-! A launch and the dispatch of the launched word (30_encoding.md R95, R96). -/

namespace Sys2Proof.Machine

/-! ### Dispatch -/

theorem defaultTurn_of_busy {s : State} (h : s.busy = true) : defaultTurn s = .engine := by
  simp [defaultTurn, h]

/-- While BUSY the engine runs the legal word in CMD (R96). -/
theorem engineMove_of_decodeWord {s : State} {snap : Snapshot} {i : Instr} (hphase : s.phase = .busy snap)
    (hword : decodeWord s.cmd = .ok i) : engineMove s = exec i s := by
  simp only [engineMove, hphase, hword]

/-- Settles O4: while BUSY the default turn is the engine's, and the engine dispatches CMD. -/
theorem stepRunsTheDecodedCommand : Obligations.StepRunsTheDecodedCommand := by
  intro s snap i hphase hword
  refine ⟨fun ts hturn => ?engineTurn, fun hnone => ?default⟩
  case engineTurn =>
    rw [step_of_turns_cons hturn, move_engine]
    exact engineMove_of_decodeWord hphase hword
  case default =>
    rw [step_of_turns_nil hnone, defaultTurn_of_busy ((busy_iff s).mpr ⟨snap, hphase⟩), move_engine]
    exact engineMove_of_decodeWord hphase hword

/-- The opcode table's reading of a word is the decoder's on words. -/
theorem decodeWord_of_decodeTableWord {nbits w : Nat} {i : Instr} (h : decodeTableWord nbits w = some i) :
    decodeWord (BitVec.ofNat 32 (w % 2 ^ nbits)) = .ok i := by
  have hdecode := decode_leBytes (w % 2 ^ nbits) []
  rw [List.append_nil] at hdecode
  rw [decodeTableWord, hdecode] at h
  cases hword : decodeWord (BitVec.ofNat 32 (w % 2 ^ nbits)) with
  | ok j => rw [hword] at h; cases h; rfl
  | error e => rw [hword] at h; cases h

/-- Settles O6: the word has been launched and the next turn is the engine's. -/
theorem launchedWordRunsNext : Obligations.LaunchedWordRunsNext := by
  intro s nbits w i h
  rw [step_of_turns_cons (s := s.withFetchWord nbits w) rfl, move_engine]
  exact engineMove_of_decodeWord (snap := takeSnapshot s) rfl (decodeWord_of_decodeTableWord h)

/-! ### Launch -/

/-- Settles O9: the register at 0x008 is CMD, whose write launches while IDLE and is dropped while BUSY. -/
theorem launchEffects : Obligations.LaunchEffects := by
  intro s v
  have hwrite := transact_write_register (o := 0x008) (r := .cmd) (by decide) (by decide) v s
  refine ⟨fun hidle => ?idle, fun hbusy => ?busy⟩
  case idle =>
    rw [writeReg_cmd_idle hidle] at hwrite
    exact ⟨takeSnapshot s, _, hwrite, rfl, rfl, rfl, rfl, rfl, rfl, rfl, snapBytes_matches s .input _,
      snapBytes_matches s .aux _, rfl, rfl, rfl, rfl, rfl, rfl, rfl,
      fun _ ha => Memory.forgetOutputs_outside _ ha, fun _ ha => Memory.forgetOutputs_inside _ ha⟩
  case busy => rw [hwrite, writeReg_cmd_busy hbusy, State.drop]

end Sys2Proof.Machine

/-! The completion of every command, with what it leaves alone (30_encoding.md R97; 60_exceptions.md R210, R213). -/

namespace Sys2Proof.Machine

theorem GoodError.code_ne_none {i : Instr} {e : CmdError} (h : GoodError i e) : e.code ≠ .none := by
  obtain h | h | h | ⟨-, h⟩ := h.code <;> simp [h]

/-- The output of a success fits the register that counts it (R32, R46). -/
theorem GoodResult.outLen_toNat {p : Params} (hp : p.Legal) {i : Instr} {r : CmdResult} (h : GoodResult p i r) :
    r.regs.outLen.toNat = r.out.length := by
  have := h.out_len
  have := hp.nOut_le
  simp only [CmdResult.regs, BitVec.toNat_ofNat]
  omega

/-- Only SF_ENC defines TAB, and RES_COUNT counts its entries (R47). -/
theorem GoodResult.tab_sfEnc {p : Params} {i : Instr} {r : CmdResult} (h : GoodResult p i r) (ht : r.tab ≠ []) :
    i = .sfEnc ∧ r.tab.length = 8 * r.regs.resCount.toNat := by
  obtain ⟨hnil, -⟩ | ⟨hi, hlen, hcount, -⟩ := h.tab
  · exact absurd hnil ht
  · refine ⟨hi, ?_⟩
    simp only [CmdResult.regs, BitVec.toNat_ofNat]
    omega

/-- Only AR_ENC sets COLLAPSED (R28, R193). -/
theorem arEnc_of_collapsed {i : Instr} {s t : State} (h : exec i s = .next t) (hc : t.status.collapsed = true) :
    i = .arEnc := by
  by_contra hi
  obtain ⟨-, -, -, -, hinterval, -⟩ := unnamedResultsAreZero i s t h
  obtain ⟨-, -, -, hnot⟩ := hinterval hi
  simp [hnot] at hc

/-- Settles O36: every command ends in one of the two completions, on a good result or a good error. -/
theorem everyCommandCompletesWithItsFrame : Obligations.EveryCommandCompletesWithItsFrame := by
  intro i s hp hs
  obtain ⟨r, hexec, hgood, hsucceeded⟩ | ⟨e, hexec, hgood, hfailed⟩ := exec_completes i hp hs
  · exact ⟨_, hexec, .inl ⟨_, _, _, _, hsucceeded, hgood.out_len, hgood.outLen_toNat hp, rfl,
      arEnc_of_collapsed hexec, hgood.tab_sfEnc⟩⟩
  · exact ⟨_, hexec, .inr ⟨_, _, _, hgood.code_ne_none, hfailed⟩⟩

end Sys2Proof.Machine

/-! The lines of the host program (30_encoding.md R110). -/

namespace Sys2Proof.Machine

theorem hostMove_of_line {s : State} {op : HostOp} (h : s.host.prog[s.host.pc]? = some op) :
    hostMove s = hostOp op s := by
  rw [hostMove, h]

/-- A transaction is no affair of the host's program, line and variables (R63). -/
@[simp] theorem transact_host (t : Txn) (s : State) : (transact t s).host = s.host := by
  cases t with
  | read o n => rw [transact_read_frame]
  | write o n v =>
    rw [transact]
    cases hwrite : portWrite o n v s with
    | none => rfl
    | some u => exact (portWrite_cases hwrite).host

/-! ### The host's variables after a load -/

theorem HostAgent.loaded_vars_of_data (a : HostAgent) (h : Fin 8) {answer : Option Answer} {v : Word}
    (hv : answer = some (.data v)) : (a.loaded h answer).vars = a.vars.set h v := by
  subst hv
  rfl

theorem HostAgent.loaded_vars_of_no_data (a : HostAgent) (h : Fin 8) {answer : Option Answer}
    (hno : ∀ v, answer ≠ some (.data v)) : (a.loaded h answer).vars = a.vars := by
  unfold HostAgent.loaded
  split
  · exact absurd rfl (hno _)
  all_goals rfl

/-! ### Lines -/

theorem hostOp_load (n : Size) (h : Fin 8) (o : Offset) (s : State) :
    hostOp (.load n h o) s = { transact (.read o n) s with
      host := (s.host.loaded h (transact (.read o n) s).answer).goto (s.host.pc + 1) } := by
  simp only [hostOp, transact_host]

theorem hostOp_store (n : Size) (o : Offset) (w : HostVal) (s : State) :
    hostOp (.store n o w) s = { transact (.write o n (w.eval s.host)) s with
      host := s.host.goto (s.host.pc + 1) } := by
  simp only [hostOp, transact_host]

/-- Settles O23: a line is one transaction or a jump, and a transaction leaves the host to its line. -/
theorem hostOperations : Obligations.HostOperations := by
  intro s
  refine ⟨fun n h o hop => ?load, fun n o c hop => ?storeConst, fun n o h hop => ?storeVar,
    fun h mask target hop => ?bnz, fun h mask target hop => ?bz⟩
  case load =>
    rw [hostMove_of_line hop, hostOp_load]
    refine ⟨_, rfl, rfl, HostAgent.loaded_prog _ _ _, rfl, fun v hv => ?data, fun hno => ?noData, ?frame⟩
    case data => exact s.host.loaded_vars_of_data h hv
    case noData => exact s.host.loaded_vars_of_no_data h hno
    case frame => rw [transact_read_frame]
  case storeConst =>
    rw [hostMove_of_line hop, hostOp_store]
    rfl
  case storeVar =>
    rw [hostMove_of_line hop, hostOp_store]
    rfl
  case bnz =>
    rw [hostMove_of_line hop]
    simp only [hostOp, ne_eq, ite_not]
    rfl
  case bz =>
    rw [hostMove_of_line hop]
    rfl

end Sys2Proof.Machine

/-! The completion of a known outcome, the eager errors in IN, and the copy of an output into IN (30_encoding.md R97;
60_exceptions.md R210, R213, R215; 40_rle.md R132). -/

namespace Sys2Proof.Machine

/-! ### Completions of a known outcome -/

theorem finish_succeeded {s : State} (hs : s.cfg.Legal) {o : CmdOutcome} {r : CmdResult} (h : o = .ok r)
    (hout : r.out.length ≤ s.cfg.nOut) (htab : r.tab.length ≤ 2048) :
    Succeeded s (finish o s) r.regs r.collapsed r.out r.tab := by
  subst h
  exact succeed_succeeded hs r hout htab

theorem finish_failed {s : State} (hs : s.cfg.Legal) {o : CmdOutcome} {code : ErrCode} {pos : Nat}
    (h : o = .error (inError code pos)) : Failed s (finish o s) code pos false := by
  subst h
  exact raiseError_failed hs (inError code pos)

/-! ### The eager errors, in the order checked -/

theorem afterEager_emptyInput {p : Params} {snap : Snapshot} {usesAux : Bool} {unit : Nat} (body : CmdOutcome)
    (h : snap.inLen.toNat = 0) : afterEager p snap usesAux unit body = .error (inError .emptyInput 0) := by
  rw [afterEager, eagerError, if_pos h]

theorem afterEager_capacity {p : Params} {snap : Snapshot} {usesAux : Bool} {unit : Nat} (body : CmdOutcome)
    (hne : snap.inLen.toNat ≠ 0) (h : p.nIn < snap.inLen.toNat) :
    afterEager p snap usesAux unit body = .error (inError .capacity 0) := by
  rw [afterEager, eagerError, if_neg hne, if_pos h]

/-- An input that is there and fits, but is no whole number of records. -/
theorem afterEager_format {p : Params} {snap : Snapshot} {unit : Nat} (body : CmdOutcome)
    (hne : snap.inLen.toNat ≠ 0) (hfits : snap.inLen.toNat ≤ p.nIn) (h : snap.inLen.toNat % unit ≠ 0) :
    afterEager p snap false unit body = .error (inError .format 0) := by
  rw [afterEager, eagerError, if_neg hne, if_neg (by omega)]
  simp [h]

/-! ### The copy of an output into IN -/

/-- A copy that fits IN is the next command's input (R132, R153). -/
theorem CopiesOutput.inputIs {s t u : State} {res : ResultRegs} {collapsed : Bool} {out tab : List Byte}
    (hc : CopiesOutput t u) (hs : Succeeded s t res collapsed out tab) (hp : s.cfg.Legal)
    (hlen : t.res.outLen.toNat = out.length) (hne : 1 ≤ out.length) (hfits : out.length ≤ s.cfg.nIn) :
    InputIs u out := by
  have htcfg : t.cfg = s.cfg := hs.frame.cfg
  have hucfg : u.cfg = s.cfg := hc.cfg.trans htcfg
  have hout : ∀ j, j < out.length → t.mem.get (Buffer.out.base + j) = out[j]? := fun j hj =>
    hs.outBytes j (by have := hp.nOut_ge; rw [htcfg]; omega)
  have hbytes : u.snapshot.input.map some = out.map some := by
    rw [hc.bytes (by rw [hlen, htcfg]; exact hfits), hlen]
    refine List.ext_getElem (by simp) fun j hj _ => ?_
    simp only [List.length_map, List.length_range] at hj
    simp [hout j hj, hj]
  exact
    { legal := hucfg ▸ hp
      bytes := List.map_injective_iff.mpr (Option.some_injective _) hbytes
      len := by rw [hc.len, hlen]
      nonempty := hne
      fits := hucfg ▸ hfits }

end Sys2Proof.Machine

/-! RLE_ENC and RLE_DEC: the record format, the rendered length, the completions, the errors and the round trip
(30_encoding.md R100, R101, R107; 40_rle.md). `expandedRuns` is `runSymbols` by definition, so the laws about the
one serve the other. -/

namespace Sys2Proof.Machine

/-! ### Records -/

/-- The four bytes of R100 are the little-endian bytes of `COUNT * 256 + SYM`. -/
theorem runRecord_eq_recordBytes : runRecord = recordBytes := by
  funext ⟨sym, count⟩
  have hsym : sym.toNat < 256 := sym.isLt
  have hcount : (count * 256 + sym.toNat) / 256 = count := by omega
  have hbyte : BitVec.ofNat 8 (count * 256 + sym.toNat) = sym :=
    BitVec.eq_of_toNat_eq (by rw [BitVec.toNat_ofNat]; omega)
  simp only [runRecord, recordBytes, leBytes, hcount, hbyte, Nat.div_div_eq_div_mul]

theorem flatten_recordBytes_length (runs : List Run) : (runs.map recordBytes).flatten.length = 4 * runs.length := by
  rw [← runRecord_eq_recordBytes, flatten_runRecord_length]

/-! ### The rendered length -/

theorem digitsFrom_eq_log {f c : Nat} (h : c ≤ f) : digitsFrom f c = 1 + Nat.log 10 c := by
  induction f generalizing c with
  | zero =>
    obtain rfl : c = 0 := by omega
    rfl
  | succ f ih =>
    rw [digitsFrom]
    split
    case isTrue hsmall => rw [Nat.log_of_lt hsmall]
    case isFalse hlarge =>
      rw [ih (by omega), Nat.log_of_one_lt_of_le (by omega) (by omega : 10 ≤ c)]
      omega

theorem digits_eq_log (c : Nat) : digits c = 1 + Nat.log 10 c := digitsFrom_eq_log le_rfl

theorem renderedLength_eq (runs : List Run) :
    renderedLength runs = (runs.map fun r => 1 + (1 + Nat.log 10 r.2)).sum := by
  simp only [renderedLength, digits_eq_log]

theorem renderedLength_cons (r : Run) (runs : List Run) :
    renderedLength (r :: runs) = 1 + digits r.2 + renderedLength runs := rfl

theorem two_mul_length_le_renderedLength (runs : List Run) : 2 * runs.length ≤ renderedLength runs := by
  induction runs with
  | nil => exact Nat.zero_le _
  | cons r runs ih =>
    rw [renderedLength_cons, digits_eq_log, List.length_cons]
    omega

/-- A count below 458752 has fewer symbols for each rendered character than the saturation of Q16.16 needs: up to 131071
two characters are enough, and from 100000 on there are seven (R122). -/
theorem count_lt_saturation {c : Nat} (h : c < 458752) : c * 65536 < 0xFFFFFFFF * (1 + digits c) := by
  rw [digits_eq_log]
  by_cases hsmall : c < 131072
  · omega
  · have : 5 ≤ Nat.log 10 c := Nat.le_log_of_pow_le (by omega) (by omega)
    omega

theorem runSymbols_lt_saturation {runs : List Run} (h : ∀ r ∈ runs, r.2 < 458752) :
    (runSymbols runs).length * 65536 + runs.length ≤ 0xFFFFFFFF * renderedLength runs := by
  induction runs with
  | nil => simp
  | cons r runs ih =>
    have hhead := count_lt_saturation (h r (by simp))
    have htail := ih fun a ha => h a (List.mem_cons_of_mem _ ha)
    rw [runSymbols_cons, renderedLength_cons, List.length_append, List.length_replicate, List.length_cons]
    linarith

/-! ### RLE_ENC -/

/-- RLE_ENC's outcome past the eager checks (R120). -/
theorem runRleEnc_of_inputIs {s : State} {x : List Byte} (hx : InputIs s x) :
    runRleEnc s.cfg s.snapshot = .ok (rleEncResult x) := by
  rw [runRleEnc, afterEager_pass hx (Nat.mod_one _), hx.bytes]

theorem exec_rleEnc_of_inputIs {s : State} {x : List Byte} (hx : InputIs s x) :
    exec .rleEnc s = .next (succeed (rleEncResult x) s) := by
  rw [exec_eq_finish_commandOutcome, commandOutcome, runRleEnc_of_inputIs hx, finish]

theorem rleRuns_length_pos {x : List Byte} (h : 1 ≤ x.length) : 1 ≤ (rleRuns x).length := by
  refine List.length_pos_of_ne_nil fun hnil => ?_
  have hsymbols := rleRuns_symbols x
  rw [hnil, runSymbols_nil] at hsymbols
  simp [← hsymbols] at h

theorem rleRuns_count_le {x : List Byte} {r : Run} (hr : r ∈ rleRuns x) : r.2 ≤ x.length := by
  have := count_le_length_runSymbols hr
  rwa [rleRuns_symbols] at this

/-- Settles O43: the runs are those of the scan, whose number and counts the input's length bounds. -/
theorem rleEncCompletes : Obligations.RleEncCompletes := by
  intro s x hx
  have hpos := rleRuns_length_pos hx.nonempty
  have hle := rleRuns_length_le x
  have hrendered := two_mul_length_le_renderedLength (rleRuns x)
  have hfits := hx.fits
  have hnIn := hx.legal.nIn_le
  have hnOut := hx.legal.nOut_ge
  have hout : (rleEncResult x).out.length = 4 * (rleRuns x).length := flatten_runRecord_length _
  have hsucceeded := succeed_succeeded hx.legal (rleEncResult x) (by omega) (Nat.zero_le _)
  refine ⟨_, rleRuns x, renderedLength (rleRuns x), exec_rleEnc_of_inputIs hx, rleRuns_symbols x, rleRuns_chain x,
    fun r hr => ?counts, hpos, hle, by omega, renderedLength_eq _, by omega, ?succeeded⟩
  case counts =>
    have hcount := rleRuns_count_le hr
    exact ⟨rleRuns_counts x r hr, hcount, by omega⟩
  case succeeded =>
    rw [← runRecord_eq_recordBytes, ← hout]
    exact hsucceeded

/-- The Q16.16 quotient is 0xFFFFFFFF exactly where `a / b` is at least `65536 - 2^-16` (R107). -/
theorem q16_saturates_iff {a b : Nat} (hb : 0 < b) :
    BitVec.ofNat 32 (q16 a b) = 0xFFFFFFFF#32 ↔ 0xFFFFFFFF * b ≤ a * 65536 := by
  have hmin : q16 a b ≤ 0xFFFFFFFF := Nat.min_le_right _ _
  rw [← BitVec.toNat_inj, BitVec.toNat_ofNat, BitVec.toNat_ofNat, Nat.mod_eq_of_lt (by omega),
    ← Nat.le_div_iff_mul_le hb, q16]
  omega

/-- Settles O44: a shorter input has no count of 458752, and so stays below the saturation run by run. -/
theorem rleRatioSaturatesFrom458752 : Obligations.RleRatioSaturatesFrom458752 := by
  refine ⟨fun s t x hx ht hsat => ?threshold, fun s t b hx ht => ?oneRun⟩
  all_goals obtain rfl := Host.Outcome.next.inj (ht.symm.trans (exec_rleEnc_of_inputIs hx))
  case threshold =>
    by_contra hshort
    have hpos := rleRuns_length_pos hx.nonempty
    have hrendered := two_mul_length_le_renderedLength (rleRuns x)
    have hlt := runSymbols_lt_saturation fun r (hr : r ∈ rleRuns x) => (rleRuns_count_le hr).trans_lt (by omega)
    rw [rleRuns_symbols] at hlt
    have hge := (q16_saturates_iff (by omega)).mp hsat
    omega
  case oneRun =>
    have hruns : rleRuns (List.replicate 458752 b) = [(b, 458752)] := by
      rw [List.replicate_succ, rleRuns, rleScan_replicate]
    have hdigits : digits 458752 = 6 := by rw [digits_eq_log]; norm_num
    have hrendered : renderedLength [(b, 458752)] = 7 := by rw [renderedLength_cons, hdigits]; rfl
    simp only [succeed_res, CmdResult.regs, rleEncResult, hruns, hrendered, List.length_replicate]
    decide

/-! ### RLE_DEC -/

/-- RLE_DEC's outcome on records, past the eager checks (R127). -/
theorem runRleDec_of_records {s : State} {runs : List Run} (hcounts : ∀ r ∈ runs, r.2 < 2 ^ 24)
    (hx : InputIs s (runs.map recordBytes).flatten) :
    runRleDec s.cfg s.snapshot = (rleExpand s.cfg.nOut 0 [] runs).map (rleDecResult runs.length) := by
  have hrecords : runRecords s.snapshot.input = runs := by
    rw [hx.bytes, ← runRecord_eq_recordBytes, runRecords_flatten runs hcounts]
  have hlen : (runs.map recordBytes).flatten.length % 4 = 0 := by
    rw [flatten_recordBytes_length, Nat.mul_mod_right]
  rw [runRleDec, afterEager_pass hx hlen, hrecords]
  cases rleExpand s.cfg.nOut 0 [] runs <;> rfl

/-- Settles O45: no record fails, so the loop gives all the symbols. -/
theorem rleDecCompletes : Obligations.RleDecCompletes := by
  intro s runs hcounts hx hfits
  have hexpand : rleExpand s.cfg.nOut 0 [] runs = .ok (expandedRuns runs) :=
    rleExpand_ok (fun r hr => by have := hcounts r hr; omega) hfits
  have hok : runRleDec s.cfg s.snapshot = .ok (rleDecResult runs.length (expandedRuns runs)) := by
    rw [runRleDec_of_records (fun r hr => (hcounts r hr).2) hx, hexpand]
    rfl
  exact ⟨_, rfl, finish_succeeded hx.legal hok hfits (Nat.zero_le _)⟩

/-- The loop comes as far as the first record that may fail (R127, R128). -/
theorem rleExpand_good_records {nOut : Nat} {pre : List Run} (hcounts : ∀ q ∈ pre, 1 ≤ q.2)
    (hfits : (expandedRuns pre).length ≤ nOut) (rest : List Run) :
    rleExpand nOut 0 [] (pre ++ rest) = rleExpand nOut pre.length (expandedRuns pre) rest := by
  have h := rleExpand_append (r := 0) (out := []) (fun q hq => by have := hcounts q hq; omega) hfits rest
  rwa [Nat.zero_add, List.nil_append] at h

/-- Settles O46: the eager checks in their order, then the first record that fails stops the loop. -/
theorem rleDecErrors : Obligations.RleDecErrors := by
  intro s hp
  refine ⟨_, rfl, fun hempty => ?empty, fun hne hlarge => ?capacity, fun hne hfits hpart => ?format,
    fun pre post r hcounts hx hpre hfits => ?record⟩
  case empty => exact finish_failed hp (afterEager_emptyInput _ hempty)
  case capacity => exact finish_failed hp (afterEager_capacity _ hne hlarge)
  case format => exact finish_failed hp (afterEager_format _ hne hfits hpart)
  case record =>
    have hrun := runRleDec_of_records hcounts hx
    rw [rleExpand_good_records hpre hfits] at hrun
    obtain ⟨sym, count⟩ := r
    refine ⟨fun hzero => finish_failed hp ?_, fun hne hover => finish_failed hp ?_⟩
    · rw [hrun, rleExpand, if_pos hzero]
      rfl
    · rw [hrun, rleExpand, if_neg hne, if_pos hover]
      rfl

/-! ### The round trip -/

/-- Settles O47: RLE_ENC's records are an input of RLE_DEC whose symbols are the encoder's input, and OUT holds them. -/
theorem rleRoundTrip : Obligations.RleRoundTrip := by
  intro s t u x hx ht hcopy
  obtain ⟨t', runs, comp, hexec, hsymbols, -, hcounts, hpos, hle, -, -, -, hsucceeded⟩ := rleEncCompletes s x hx
  obtain rfl := Host.Outcome.next.inj (ht.symm.trans hexec)
  have hfits := hx.fits
  have hnIn := hx.legal.nIn_le
  have hnOut := hx.legal.nOut_ge
  have hucfg : u.cfg = s.cfg := hcopy.cfg.trans hsucceeded.frame.cfg
  have hlegal : u.cfg.Legal := hucfg ▸ hx.legal
  have hrecords := flatten_recordBytes_length runs
  have hlen : t.res.outLen.toNat = 4 * runs.length := by
    rw [hsucceeded.res, BitVec.toNat_ofNat, Nat.mod_eq_of_lt (by omega)]
  by_cases hcopyFits : t.res.outLen.toNat ≤ s.cfg.nIn
  case pos =>
    have hin := hcopy.inputIs hsucceeded hx.legal (hlen.trans hrecords.symm) (by omega) (by omega)
    have hruns : ∀ r ∈ runs, 1 ≤ r.2 ∧ r.2 < 2 ^ 24 := fun r hr =>
      have ⟨hge, _, hlt⟩ := hcounts r hr
      ⟨hge, hlt⟩
    obtain ⟨v, hv, hdecoded⟩ := rleDecCompletes u runs hruns hin (by rw [hsymbols, hucfg]; omega)
    rw [hsymbols] at hdecoded
    refine ⟨v, hv, fun _ => ⟨?_, ?_, hdecoded.outBytes⟩, fun hover => absurd hcopyFits (by omega)⟩
    · rw [hdecoded.status]
    · rw [hdecoded.res, BitVec.toNat_ofNat, Nat.mod_eq_of_lt (by omega)]
  case neg =>
    have huLen : u.snapshot.inLen.toNat = 4 * runs.length := by rw [hcopy.len, hlen]
    obtain ⟨v, hv, -, hcapacity, -⟩ := rleDecErrors u hlegal
    exact ⟨v, hv, fun h => absurd h hcopyFits, fun _ => hcapacity (by omega) (by rw [hucfg]; omega)⟩

end Sys2Proof.Machine

/-! LZW_ENC and LZW_DEC: the code format, the size of the dictionary, the self-reference, the completions, the errors
and the round trip (30_encoding.md R102; 41_lzw.md). -/

namespace Sys2Proof.Machine

/-! ### Codes -/

/-- The two bytes of R102 are the little-endian bytes of the code. -/
theorem codeBytes_eq_halfwordBytes : codeBytes = halfwordBytes := rfl

theorem flatten_halfwordBytes_length (ks : List Nat) : (ks.map halfwordBytes).flatten.length = 2 * ks.length := by
  rw [← codeBytes_eq_halfwordBytes, flatten_codeBytes_length]

theorem cap_ge {p : Params} (hp : p.Legal) : 256 ≤ cap p :=
  Nat.pow_le_pow_right (n := 2) (i := 8) (by decide) (by have := hp.dictBits_ge; omega)

theorem cap_le {p : Params} (hp : p.Legal) : cap p ≤ 2 ^ 16 := Nat.pow_le_pow_right (by decide) hp.dictBits_le

/-- `nextCode` after phrases, which stops at `CAP` (R143, R145). -/
theorem dictNext_entries {cap : Nat} (hc : 256 ≤ cap) (ps : List (List Byte)) :
    dictNext ((lzwEntries ps).take (cap - 256)) = min (256 + (ps.length - 1)) cap := by
  rw [dictNext, List.length_take, lzwEntries_length]
  omega

/-- A code that stands for a phrase is at most `nextCode`, which it equals in the self-reference case (R148). -/
theorem CodeStands.lt_next {cap : Nat} {done : List (List Byte)} {k : Nat} {p : List Byte}
    (h : CodeStands cap done k p) : k < 256 + done.length := by
  rcases h with ⟨hseed, -⟩ | ⟨hge, -, hentry⟩
  · omega
  · have hlt := (List.getElem?_eq_some_iff.1 hentry).1
    rw [lzwEntries_length, List.length_append, List.length_singleton] at hlt
    omega

theorem CodesStand.lt_next {cap : Nat} {done : List (List Byte)} {ks : List Nat} {ps : List (List Byte)}
    (h : CodesStand cap done ks ps) : ∀ k ∈ ks, k < 256 + (done.length + ks.length - 1) := by
  induction ks generalizing done ps with
  | nil => simp
  | cons k ks ih => cases ps with
    | nil => exact h.elim
    | cons p ps =>
      intro a ha
      rw [List.length_cons]
      rcases List.mem_cons.1 ha with rfl | ha
      · have := h.1.lt_next
        omega
      · have := ih h.2 a ha
        rw [List.length_append, List.length_singleton] at this
        omega

/-! ### LZW_ENC -/

/-- LZW_ENC's outcome past the eager checks (R140). -/
theorem exec_lzwEnc_of_inputIs {s : State} {x : List Byte} (hx : InputIs s x) :
    exec .lzwEnc s = .next (succeed (lzwEncResult (cap s.cfg) x) s) := by
  rw [exec_eq_finish_commandOutcome, commandOutcome, runLzwEnc, afterEager_pass hx (Nat.mod_one _), hx.bytes, finish]

theorem lzwEncResult_regs {cap n : Nat} {x : List Byte} (h : dictNext (lzwCodes cap x).2 = n) :
    (lzwEncResult cap x).regs =
      { ResultRegs.zero with
        outLen := BitVec.ofNat 32 (2 * (lzwCodes cap x).1.length)
        resOrig := BitVec.ofNat 32 x.length
        resCount := BitVec.ofNat 32 (lzwCodes cap x).1.length
        resDict := BitVec.ofNat 32 n } := by
  rw [← h, ← flatten_codeBytes_length]
  rfl

/-- Settles O48: the phrases and the dictionary are those of the scan; there are no more phrases than symbols. -/
theorem lzwEncCompletes : Obligations.LzwEncCompletes := by
  intro s x hx
  have hcap := cap_ge hx.legal
  have hfits := hx.fits
  have hnOut := hx.legal.nOut_ge
  obtain ⟨phrases, hflatten, hstand, hgreedy, hdict⟩ := lzwCodes_phrases hcap x
  have hlen := hstand.length_eq
  have hle : (lzwCodes (cap s.cfg) x).1.length ≤ x.length := by
    rw [hlen, ← hflatten]
    exact length_le_flatten (hstand.phrases_ne_nil (by simp))
  have hpos : 1 ≤ (lzwCodes (cap s.cfg) x).1.length := by
    rw [hlen]
    refine List.length_pos_of_ne_nil fun hnil => ?_
    have := hx.nonempty
    simp [← hflatten, hnil] at this
  have hout : (lzwEncResult (cap s.cfg) x).out.length = 2 * (lzwCodes (cap s.cfg) x).1.length :=
    flatten_codeBytes_length _
  have hnext : dictNext (lzwCodes (cap s.cfg) x).2 =
      min (256 + ((lzwCodes (cap s.cfg) x).1.length - 1)) (cap s.cfg) := by
    rw [hdict, dictNext_entries hcap, hlen]
  have hsucceeded := succeed_succeeded hx.legal (lzwEncResult (cap s.cfg) x) (by omega) (Nat.zero_le _)
  refine ⟨_, _, phrases, _, exec_lzwEnc_of_inputIs hx, hflatten, hstand, hgreedy, rfl, fun k hk => ?below,
    Nat.min_le_right _ _, hpos, hle, by omega, ?succeeded⟩
  case below =>
    have hlt := hstand.lt_next k hk
    rw [List.length_nil, Nat.zero_add] at hlt
    exact lt_min hlt (hstand.lt_cap hcap k hk)
  case succeeded =>
    rw [lzwEncResult_regs hnext] at hsucceeded
    exact hsucceeded

/-! ### LZW_DEC -/

/-- LZW_DEC's outcome on codes, past the eager checks (R147). -/
theorem runLzwDec_of_codes {s : State} {codes : List Nat} (hcodes : ∀ k ∈ codes, k < 2 ^ 16)
    (hx : InputIs s (codes.map halfwordBytes).flatten) :
    runLzwDec s.cfg s.snapshot = (lzwDecode s.cfg codes).map (lzwDecResult codes.length) := by
  have hlist : codeList s.snapshot.input = codes := by
    rw [hx.bytes, ← codeBytes_eq_halfwordBytes, codeList_flatten codes hcodes]
  have hlen : (codes.map halfwordBytes).flatten.length % 2 = 0 := by
    rw [flatten_halfwordBytes_length, Nat.mul_mod_right]
  rw [runLzwDec, afterEager_pass hx hlen, hlist]
  cases lzwDecode s.cfg codes <;> rfl

theorem lzwDecResult_regs {n m : Nat} {out : List Byte} {d : Dict} (h : dictNext d = n) :
    (lzwDecResult m (out, d)).regs =
      { ResultRegs.zero with
        outLen := BitVec.ofNat 32 out.length
        resOrig := BitVec.ofNat 32 out.length
        resCount := BitVec.ofNat 32 m
        resDict := BitVec.ofNat 32 n } := by
  rw [← h]
  rfl

/-- Settles O49: no code fails, so the loop gives all the phrases. -/
theorem lzwDecCompletes : Obligations.LzwDecCompletes := by
  intro s codes phrases hstand hx hfits
  have hcap := cap_ge hx.legal
  have hcodes : ∀ k ∈ codes, k < 2 ^ 16 := fun k hk => (hstand.lt_cap hcap k hk).trans_le (cap_le hx.legal)
  have hok : runLzwDec s.cfg s.snapshot =
      .ok (lzwDecResult codes.length (phrases.flatten, (lzwEntries phrases).take (cap s.cfg - 256))) := by
    rw [runLzwDec_of_codes hcodes hx, lzwDecode_ok hcap hstand hfits]
    rfl
  have hsucceeded := finish_succeeded hx.legal hok hfits (Nat.zero_le _)
  rw [lzwDecResult_regs (dictNext_entries hcap phrases), ← hstand.length_eq] at hsucceeded
  exact ⟨_, rfl, hsucceeded⟩

/-! ### The self-reference -/

theorem CodesStand.append {cap : Nat} {done : List (List Byte)} {ks ls : List Nat} {ps qs : List (List Byte)}
    (h : CodesStand cap done ks ps) (h' : CodesStand cap (done ++ ps) ls qs) :
    CodesStand cap done (ks ++ ls) (ps ++ qs) := by
  induction ks generalizing done ps with
  | nil => cases ps with
    | nil => simpa using h'
    | cons p ps => exact h.elim
  | cons k ks ih => cases ps with
    | nil => exact h.elim
    | cons p ps => exact ⟨h.1, ih h.2 (by simpa using h')⟩

/-- A code that stands for a phrase however often the phrase has come stands for it each time. -/
theorem codesStand_replicate {cap k : Nat} {p : List Byte} {done : List (List Byte)}
    (h : ∀ m, CodeStands cap (done ++ List.replicate m p) k p) (n : Nat) :
    CodesStand cap done (List.replicate n k) (List.replicate n p) := by
  induction n generalizing done with
  | zero => trivial
  | succ n ih =>
    refine ⟨by simpa using h 0, ih fun m => ?_⟩
    have hm := h (m + 1)
    rwa [List.replicate_succ, List.append_cons] at hm

/-- Two adjacent phrases make the entry at the number of phrases before them, whatever follows. -/
theorem lzwEntries_getElem? (ps : List (List Byte)) (p q : List Byte) (qs : List (List Byte)) :
    (lzwEntries (ps ++ p :: q :: qs))[ps.length]? = some (p ++ q.take 1) := by
  induction ps with
  | nil => rfl
  | cons a ps ih =>
    cases ps with
    | nil => rfl
    | cons b ps => simpa only [List.cons_append, lzwEntries, List.length_cons, List.getElem?_cons_succ] using ih

/-- `nextCode` stands for the previous phrase and its first symbol, at once and after the insertion (R148). -/
theorem codeStands_selfReference {cap : Nat} {phrases : List (List Byte)} (previous : List Byte)
    (hlt : 256 + phrases.length < cap) (m : Nat) :
    CodeStands cap (phrases ++ [previous] ++ List.replicate m (previous ++ previous.take 1)) (256 + phrases.length)
      (previous ++ previous.take 1) := by
  have htake : (previous ++ previous.take 1).take 1 = previous.take 1 := by cases previous <;> rfl
  have hentry := lzwEntries_getElem? phrases previous (previous ++ previous.take 1)
    (List.replicate m (previous ++ previous.take 1))
  rw [htake] at hentry
  refine .inr ⟨by omega, hlt, ?_⟩
  rw [Nat.add_sub_cancel_left, List.append_assoc, ← List.replicate_succ', List.replicate_succ, List.append_assoc]
  exact hentry

/-- Settles O50: the codes with the repeated self-reference stand for the phrases with the repeated string. -/
theorem lzwSelfReference : Obligations.LzwSelfReference := by
  intro s codes phrases previous n hstand hlt hx hfits
  have hself := codesStand_replicate (codeStands_selfReference previous hlt) (n + 1)
  rw [← List.flatten_append] at hfits ⊢
  obtain ⟨t, ht, hsucceeded⟩ := lzwDecCompletes s _ _ (hstand.append hself) hx hfits
  exact ⟨t, ht, by rw [hsucceeded.status], hsucceeded.outBytes⟩

/-! ### The errors -/

/-- The loop comes as far as the first code that may fail (R147, R150). -/
theorem lzwDecode_good_codes {p : Params} (hc : 256 ≤ cap p) {codes : List Nat} {phrases : List (List Byte)}
    (hne : codes ≠ []) (hstand : CodesStand (cap p) [] codes phrases) (hfits : phrases.flatten.length ≤ p.nOut)
    (rest : List Nat) : ∃ done previous, done ++ [previous] = phrases ∧ previous ≠ [] ∧
      lzwDecode p (codes ++ rest) =
        lzwExpand p ((lzwEntries phrases).take (cap p - 256)) previous phrases.flatten codes.length rest := by
  obtain ⟨k, ks, rfl⟩ := List.exists_cons_of_ne_nil hne
  rw [List.length_cons, Nat.add_comm]
  exact lzwDecode_append hc hstand hfits rest

/-- A code past `nextCode` is no entry and no self-reference (R150). -/
theorem lzwEntry_eq_none {d : Dict} {previous : List Byte} {k : Nat} (h : dictNext d < k) :
    lzwEntry d previous k = none := by
  rw [lzwEntry, if_neg (by omega), if_neg (by omega)]

theorem lzwExpand_format {p : Params} (hc : 256 ≤ cap p) {phrases : List (List Byte)} {previous out : List Byte}
    {j k : Nat} (h : cap p ≤ k ∨ 256 + (phrases.length - 1) < k) (ks : List Nat) :
    lzwExpand p ((lzwEntries phrases).take (cap p - 256)) previous out j (k :: ks) =
      .error (inError .format (2 * j)) := by
  rw [lzwExpand]
  by_cases hk : cap p ≤ k
  · rw [if_pos hk]
  · rw [if_neg hk, lzwEntry_eq_none]
    rw [dictNext_entries hc]
    omega

theorem lzwExpand_capacity {p : Params} (hc : 256 ≤ cap p) {done : List (List Byte)} {previous out entry : List Byte}
    {j k : Nat} (hne : previous ≠ []) (hk : CodeStands (cap p) (done ++ [previous]) k entry)
    (h : p.nOut < out.length + entry.length) (ks : List Nat) :
    lzwExpand p ((lzwEntries (done ++ [previous])).take (cap p - 256)) previous out j (k :: ks) =
      .error (inError .capacity (2 * j)) := by
  have hlt := hk.lt_cap hc
  rw [lzwExpand, if_neg (by omega), lzwEntry_of_stands hc hne hk hlt]
  exact if_pos h

/-- Settles O51: the eager checks in their order, then the first code that fails stops the loop. -/
theorem lzwDecErrors : Obligations.LzwDecErrors := by
  intro s hp
  refine ⟨_, rfl, fun hempty => ?empty, fun hne hlarge => ?capacity, fun hne hfits hpart => ?format,
    fun codes post k phrases hcodes hx hstand hfits => ?code⟩
  case empty => exact finish_failed hp (afterEager_emptyInput _ hempty)
  case capacity => exact finish_failed hp (afterEager_capacity _ hne hlarge)
  case format => exact finish_failed hp (afterEager_format _ hne hfits hpart)
  case code =>
    have hcap := cap_ge hp
    have hall : ∀ q ∈ codes ++ k :: post, q < 2 ^ 16 := fun q hq =>
      (List.mem_append.1 hq).elim (fun h => (hstand.lt_cap hcap q h).trans_le (cap_le hp)) (hcodes q)
    have hrun := runLzwDec_of_codes hall hx
    have failed : ∀ {code pos}, lzwDecode s.cfg (codes ++ k :: post) = .error (inError code pos) →
        Failed s (finish (runLzwDec s.cfg s.snapshot) s) code pos false := fun h =>
      finish_failed hp (by rw [hrun, h]; rfl)
    refine ⟨?first, fun hne hbad => ?later, fun p hne hk hover => ?full⟩
    case first =>
      rintro rfl hlarge
      exact failed (if_pos hlarge)
    all_goals
      obtain ⟨done, previous, rfl, hprevious, hgood⟩ := lzwDecode_good_codes hcap hne hstand hfits (k :: post)
      refine failed (hgood.trans ?_)
    case later =>
      rw [hstand.length_eq] at hbad
      exact lzwExpand_format hcap hbad post
    case full => exact lzwExpand_capacity hcap hprevious hk hover post

/-! ### The round trip -/

/-- Settles O52: LZW_ENC's codes are an input of LZW_DEC that stands for the encoder's phrases, so both end with one
dictionary, and OUT holds the encoder's input. -/
theorem lzwRoundTrip : Obligations.LzwRoundTrip := by
  intro s t u x hx ht hcopy
  obtain ⟨t', codes, phrases, dictSize, hexec, hflatten, hstand, -, rfl, -, -, hpos, hle, -, hsucceeded⟩ :=
    lzwEncCompletes s x hx
  obtain rfl := Host.Outcome.next.inj (ht.symm.trans hexec)
  have hfits := hx.fits
  have hnIn := hx.legal.nIn_le
  have hnOut := hx.legal.nOut_ge
  have hucfg : u.cfg = s.cfg := hcopy.cfg.trans hsucceeded.frame.cfg
  have hbytes := flatten_halfwordBytes_length codes
  have hlen : t.res.outLen.toNat = 2 * codes.length := by
    rw [hsucceeded.res, BitVec.toNat_ofNat, Nat.mod_eq_of_lt (by omega)]
  by_cases hcopyFits : t.res.outLen.toNat ≤ s.cfg.nIn
  case pos =>
    have hin := hcopy.inputIs hsucceeded hx.legal (hlen.trans hbytes.symm) (by omega) (by omega)
    rw [← hucfg] at hstand
    obtain ⟨v, hv, hdecoded⟩ := lzwDecCompletes u codes phrases hstand hin (by rw [hflatten, hucfg]; omega)
    rw [hflatten] at hdecoded
    refine ⟨v, hv, fun _ => ⟨?err, ?outLen, hdecoded.outBytes, ?resDict⟩, fun hover => absurd hcopyFits (by omega)⟩
    case err => rw [hdecoded.status]
    case outLen => rw [hdecoded.res, BitVec.toNat_ofNat, Nat.mod_eq_of_lt (by omega)]
    case resDict => rw [hdecoded.res, hsucceeded.res, hucfg]
  case neg =>
    have huLen : u.snapshot.inLen.toNat = 2 * codes.length := by rw [hcopy.len, hlen]
    obtain ⟨v, hv, -, hcapacity, -⟩ := lzwDecErrors u (hucfg ▸ hx.legal)
    exact ⟨v, hv, fun h => absurd h hcopyFits, fun _ => hcapacity (by omega) (by rw [hucfg]; omega)⟩

end Sys2Proof.Machine

/-! SF_ENC: the width and the codewords, the ranking, the bit string, TAB and the completion (30_encoding.md R103, R104,
R107; 42_static_frequency.md). -/

namespace Sys2Proof.Machine

/-! ### Widths and codewords -/

/-- A width that holds more codewords than `2^n` is over `n` (R162). -/
theorem lt_sfWidth {k n : Nat} (hpos : 1 ≤ k) (hle : k ≤ 256) (h : 2 ^ n < k) : n < sfWidth k :=
  (Nat.pow_lt_pow_iff_right (by decide)).1 (h.trans_le (sfWidth_spec hpos hle).1)

theorem sfCode_lt {k r : Nat} (hle : k ≤ 256) (hr : r < k) : sfCode k r < 2 ^ sfWidth k := by
  obtain ⟨hholds, -, hwidth, -⟩ := sfWidth_spec (Nat.one_le_of_lt hr) hle
  rw [sfCode]
  split
  case isTrue => exact Nat.one_lt_two_pow (by omega)
  case isFalse => exact hr.trans_le hholds

/-- Settles O53: the width is the least that holds `k` codewords, and the two bounds are those of 3 and 129 symbols. -/
theorem sfWidthAndCodewords : Obligations.SfWidthAndCodewords := by
  intro k hpos hle
  obtain ⟨hholds, hleast, -, hmax⟩ := sfWidth_spec hpos hle
  have hover : ∀ n, 2 ^ n < k → n < sfWidth k := fun n => lt_sfWidth hpos hle
  refine ⟨fun hsmall => if_pos hsmall, fun hlarge => ⟨hholds, fun w hw => hleast w ?positive hw⟩,
    fun hlarge => ⟨hover 1 (by omega), hmax⟩, fun hlarge => ?top, fun r _ => rfl, fun r => sfCode_lt hle⟩
  case positive => exact Nat.pos_of_ne_zero (by rintro rfl; omega)
  case top =>
    have := hover 7 (by omega)
    omega

/-! ### The ranking -/

/-- The distinct symbols of an input in rank order, without their counts (R161). -/
def sfSymbols (x : List Byte) : List Byte := (sfRanks x).map fun a => a.2

@[simp] theorem sfSymbols_length (x : List Byte) : (sfSymbols x).length = (sfRanks x).length := by simp [sfSymbols]

theorem sfRanks_getElem?_of_sfSymbols {x : List Byte} {r : Nat} {b : Byte} (h : (sfSymbols x)[r]? = some b) :
    (sfRanks x)[r]? = some (x.count b, b) := by
  rw [sfSymbols, List.getElem?_map, Option.map_eq_some_iff] at h
  obtain ⟨⟨count, sym⟩, ha, rfl⟩ := h
  obtain ⟨hcount, -⟩ := (mem_sfRanks x _).1 (List.mem_of_getElem? ha)
  rw [ha, ← hcount]

/-- Equal counts are ordered strictly by the byte value, as no symbol comes twice (R161). -/
theorem sfSymbols_isRanking (x : List Byte) : IsRanking x (sfSymbols x) where
  nodup := sfRanks_nodup x
  mem b := by simp [sfSymbols, mem_sfRanks]
  sorted := by
    have hdistinct : (sfRanks x).Pairwise fun a b => a.2 ≠ b.2 := List.pairwise_map.1 (sfRanks_nodup x)
    refine List.pairwise_map.2 (((sfRanks_sorted x).and hdistinct).imp_of_mem fun {a b} ha hb hab => ?_)
    obtain ⟨hsorted, hne⟩ := hab
    rw [rankedBefore_iff, ((mem_sfRanks x a).1 ha).1, ((mem_sfRanks x b).1 hb).1] at hsorted
    have : a.2.toNat ≠ b.2.toNat := fun h => hne (BitVec.eq_of_toNat_eq h)
    omega

/-! ### The output -/

/-- SF_ENC's output (R163). -/
theorem sfOut_length (x : List Byte) :
    (sfEncResult x).out.length = (x.length * sfWidth (sfRanks x).length + 7) / 8 := by
  rw [sfEncResult, packBits_length, sfBits_length, ceilDiv]
  rfl

/-- Bit `j` of the codeword of symbol `i` stands in OUT at the bit place `i * W + j` (R103, R160, R162). -/
theorem sfOut_bit {x : List Byte} {i r j : Nat} {b : Byte} (hi : x[i]? = some b) (hr : (sfSymbols x)[r]? = some b)
    (hj : j < sfWidth (sfRanks x).length) :
    ∃ o, (sfEncResult x).out[(i * sfWidth (sfRanks x).length + j) / 8]? = some o ∧
      o.getLsbD (7 - (i * sfWidth (sfRanks x).length + j) % 8) =
        (sfCode (sfRanks x).length r).testBit (sfWidth (sfRanks x).length - 1 - j) := by
  have hbit := sfBits_getElem? (ranks := sfRanks x) hi hj
  rw [sfCodeOf_rank (sfRanks_getElem?_of_sfSymbols hr)] at hbit
  have hplace := (List.getElem?_eq_some_iff.1 hbit).1
  obtain ⟨o, ho, hbits⟩ := packBits_bit (sfBits (sfRanks x) x) (j := i * sfWidth (sfRanks x).length + j)
    (by rw [ceilDiv]; omega)
  exact ⟨o, ho, by rw [hbits, List.getD_eq_getElem?_getD, hbit, Option.getD_some]⟩

/-- The places of the last byte past the bit string are 0 (R103). -/
theorem sfOut_padding {x : List Byte} {j : Nat} (hend : x.length * sfWidth (sfRanks x).length ≤ j)
    (hj : j < 8 * (sfEncResult x).out.length) :
    ∃ o, (sfEncResult x).out[j / 8]? = some o ∧ o.getLsbD (7 - j % 8) = false := by
  obtain ⟨o, ho, hbit⟩ := packBits_bit (sfBits (sfRanks x) x) (by rwa [← packBits_length])
  rw [← sfBits_length] at hend
  exact ⟨o, ho, by rw [hbit, List.getD_eq_default _ _ hend]⟩

/-! ### TAB -/

/-- The words of an entry whose fields fit their bytes are its bytes field by field (R104). -/
theorem tabEntry_eq_tabEntryBytes {code width : Nat} (hcode : code < 256) (hwidth : width < 256) (sym : Byte)
    (freq : Nat) : tabEntry sym code width freq = tabEntryBytes sym code width freq := by
  have hsym := sym.isLt
  have hword : leBytes 4 (sym.toNat + code * 2 ^ 8 + width * 2 ^ 16) =
      [sym, BitVec.ofNat 8 code, BitVec.ofNat 8 width, 0] := by
    simp only [leBytes, List.cons.injEq, ← BitVec.toNat_inj, BitVec.ofNat_eq_ofNat, BitVec.toNat_ofNat, and_true]
    omega
  rw [tabEntry, hword]
  simp only [leBytes, tabEntryBytes, Nat.div_div_eq_div_mul, List.cons_append, List.nil_append]

/-- TAB holds the entry of each rank in turn (R104, R165). -/
theorem sfTab_eq_tabEntryBytes (x : List Byte) :
    (sfEncResult x).tab =
      ((List.range (sfSymbols x).length).map fun r =>
        tabEntryBytes ((sfSymbols x).getD r 0) (sfCode (sfRanks x).length r) (sfWidth (sfRanks x).length)
          (x.count ((sfSymbols x).getD r 0))).flatten := by
  rw [sfEncResult, sfTab]
  refine congrArg List.flatten (List.ext_getElem (by simp) fun r hr _ => ?_)
  rw [List.length_map] at hr
  have hle := sfRanks_length_le x
  obtain ⟨-, -, -, hwidth⟩ := sfWidth_spec (Nat.one_le_of_lt hr) hle
  have hcode : sfCode (sfRanks x).length r < 256 :=
    (sfCode_lt hle hr).trans_le (Nat.pow_le_pow_right (by decide) hwidth)
  have hsym : (sfSymbols x)[r]? = some (sfRanks x)[r].2 := by simp [sfSymbols, hr]
  obtain ⟨hcount, -⟩ := (mem_sfRanks x _).1 (List.getElem_mem hr)
  simp only [List.getElem_map, List.getElem_range, List.getD_eq_getElem?_getD, hsym, Option.getD_some,
    sfCodeOf_rank (List.getElem?_eq_getElem hr)]
  rw [← tabEntry_eq_tabEntryBytes hcode (by omega), hcount]

/-! ### The result registers -/

/-- The ratio of `8 n` bits to `n W` is `2^19 / W`, below the saturation (R107, R163). -/
theorem q16_sfRatio {n : Nat} (hn : 0 < n) (w : Nat) : q16 (8 * n) (n * w) = 524288 / w := by
  have hdividend : 8 * n * 65536 = n * 524288 := by omega
  have := Nat.div_le_self 524288 w
  rw [q16, hdividend, Nat.mul_div_mul_left _ _ hn]
  omega

theorem sfEncResult_regs {x : List Byte} (hne : 0 < x.length) :
    (sfEncResult x).regs =
      { ResultRegs.zero with
        outLen := BitVec.ofNat 32 ((x.length * sfWidth (sfRanks x).length + 7) / 8)
        resOrig := BitVec.ofNat 32 (8 * x.length)
        resComp := BitVec.ofNat 32 (x.length * sfWidth (sfRanks x).length)
        resRatio := BitVec.ofNat 32 (524288 / sfWidth (sfRanks x).length)
        resCount := BitVec.ofNat 32 (sfRanks x).length
        resWidth := BitVec.ofNat 32 (sfWidth (sfRanks x).length) } := by
  rw [← sfOut_length, ← q16_sfRatio hne, ← sfBits_length]
  rfl

/-! ### SF_ENC -/

/-- SF_ENC's outcome past the eager checks (R160). -/
theorem exec_sfEnc_of_inputIs {s : State} {x : List Byte} (hx : InputIs s x) :
    exec .sfEnc s = .next (succeed (sfEncResult x) s) := by
  rw [exec_eq_finish_commandOutcome, commandOutcome, runSfEnc, afterEager_pass hx (Nat.mod_one _), hx.bytes, finish]

/-- SF_ENC always fits: the output is no longer than the input, and TAB has room for 256 entries (R164, R165). -/
theorem sfEnc_succeeded {s : State} {x : List Byte} (hx : InputIs s x) :
    Succeeded s (succeed (sfEncResult x) s) (sfEncResult x).regs false (sfEncResult x).out (sfEncResult x).tab := by
  have hout : (sfEncResult x).out.length ≤ x.length := sfOut_length_le (List.ne_nil_of_length_pos hx.nonempty)
  have htab : (sfEncResult x).tab.length = 8 * (sfRanks x).length := sfTab_length _
  have hle := sfRanks_length_le x
  have hfits := hx.fits
  have hnOut := hx.legal.nOut_ge
  exact succeed_succeeded hx.legal (sfEncResult x) (by omega) (by omega)

/-- Settles O54: the ranks are those of the sorted counts, and OUT, TAB and the registers are read off the result. -/
theorem sfEncCompletes : Obligations.SfEncCompletes := by
  intro s x hx
  have hsucceeded := sfEnc_succeeded hx
  rw [sfEncResult_regs hx.nonempty, sfTab_eq_tabEntryBytes] at hsucceeded
  refine ⟨_, sfSymbols x, (sfEncResult x).out, sfWidth (sfSymbols x).length, sfCode (sfSymbols x).length,
    exec_sfEnc_of_inputIs hx, sfSymbols_isRanking x, ?_⟩
  rw [sfSymbols_length] at hsucceeded ⊢
  exact ⟨sfRanks_length_pos (List.ne_nil_of_length_pos hx.nonempty), sfRanks_length_le x, rfl, fun _ => rfl,
    sfOut_length x, fun _ _ _ _ hi hr hj => sfOut_bit hi hr hj, fun _ hend hj => sfOut_padding hend hj, hsucceeded⟩

end Sys2Proof.Machine

/-! AR_ENC: the errors of a specification, the interval after a message, the completions, nesting, containment and collapse
(30_encoding.md R106; 43_arithmetic.md). `largestTotal` is `lim` by definition, so the laws about the one serve the
other. -/

namespace Sys2Proof.Machine

/-! ### Violations of the specification -/

/-- A pair at the end of the specification or before a ',' is answered as its commit is, where that is an error (R181). -/
theorem specScan_pair_of_commit_error {lim q : Nat} {t : FreqTable} {e : SpecPair} {rest : List Byte} {err : CmdError}
    (hne : e.2 ≠ []) (hdigits : ∀ d ∈ e.2, IsDigit d) (hrest : rest = [] ∨ rest.head? = some 0x2C#8)
    (hcommit : specCommit lim q e.1 (decimal e.2) t = .error err) :
    specScan lim q .atSym t (pairBytes e ++ rest) = .error err := by
  rw [specScan_pair hne hdigits]
  obtain rfl | hcomma := hrest
  · exact hcommit
  · obtain ⟨rest, rfl⟩ := List.head?_eq_some_iff.1 hcomma
    have hnot : ¬ isDigit 0x2C#8 = true := by decide
    rw [specScan, if_neg hnot, if_pos rfl, hcommit]

/-- From the offset of a violation's pair on, the parse raises the violation's error (R181). -/
theorem specScan_violation {lim : Nat} {pre : List SpecPair} {tail : List Byte} {code : ErrCode} {off : Nat}
    (h : SpecViolation lim pre tail code off) (q : Nat) :
    specScan lim q .atSym (pairTable pre) tail = .error (auxError code (q + off)) := by
  cases h with
  | noPair => rfl
  | endsAfterSym sym => rfl
  | noColon sym c rest hc => rw [specScan, specScan, if_neg hc]
  | endsAfterColon sym => rfl
  | noDigit sym c rest hc => rw [specScan, specScan, if_pos rfl, specScan, if_neg (mt (isDigit_iff c).1 hc)]
  | junk e c rest hne hdigits hc hcomma =>
    rw [specScan_pair hne hdigits, specScan, if_neg (mt (isDigit_iff c).1 hc), if_neg hcomma]
  | zeroCount e rest hne hdigits hrest hzero =>
    exact specScan_pair_of_commit_error hne hdigits hrest (by rw [specCommit_pairs, if_pos hzero]; rfl)
  | duplicate e rest hne hdigits hrest hzero hmem =>
    exact specScan_pair_of_commit_error hne hdigits hrest (by rw [specCommit_pairs, if_neg hzero, if_pos hmem]; rfl)
  | tooLarge e rest hne hdigits hrest hzero hmem hlarge =>
    exact specScan_pair_of_commit_error hne hdigits hrest
      (by rw [specCommit_pairs, if_neg hzero, if_neg hmem, if_pos hlarge]; rfl)

/-- A violation after good pairs, at its offset in AUX (R181). -/
theorem parseSpec_violation {p : Params} {pre : List SpecPair} {tail : List Byte} {code : ErrCode} {off : Nat}
    (hpre : GoodPairs (largestTotal p) pre) (h : SpecViolation (largestTotal p) pre tail code off) :
    parseSpec p (pairsThenComma pre ++ tail) = .error (auxError code ((pairsThenComma pre).length + off)) := by
  have hscan := specScan_pairs (q := 0) [] pre hpre tail
  rw [pairTable_nil, List.nil_append, Nat.zero_add] at hscan
  exact hscan.trans (specScan_violation h _)

/-! ### Counts -/

theorem pairTotal_le_of_sublist {es fs : List SpecPair} (h : es.Sublist fs) : pairTotal es ≤ pairTotal fs :=
  (h.map _).sum_le_sum fun _ _ => Nat.zero_le _

theorem countBelow_le_countUpTo (es : List SpecPair) (c : Byte) : countBelow es c ≤ countUpTo es c :=
  pairTotal_le_of_sublist (List.monotone_filter_right es fun e h => by
    simp only [decide_eq_true_eq] at h ⊢
    exact h.le)

theorem countUpTo_le_pairTotal (es : List SpecPair) (c : Byte) : countUpTo es c ≤ pairTotal es :=
  pairTotal_le_of_sublist List.filter_sublist

theorem GoodPairs.pairTotal_pos {lim : Nat} {es : List SpecPair} {e : SpecPair} (h : GoodPairs lim (es ++ [e])) :
    0 < pairTotal (es ++ [e]) := by
  have := h.pos e (by simp)
  rw [pairTotal_append, pairTotal_cons]
  omega

/-- A symbol of a good specification has a part of the total of its own (R181, R183). -/
theorem GoodPairs.countBelow_lt_countUpTo {lim : Nat} {es : List SpecPair} (h : GoodPairs lim es) {c : Byte}
    (hc : c ∈ es.map fun e => e.1) : countBelow es c < countUpTo es c := by
  obtain ⟨e, he, rfl⟩ := List.mem_map.1 hc
  have hmem : (e.1, decimal e.2) ∈ pairTable es := List.mem_map.2 ⟨e, he, rfl⟩
  have hfreq := freqOf_of_mem (by rw [map_fst_pairTable]; exact h.nodup) hmem
  have := h.pos e he
  rw [countUpTo_eq h.nodup hfreq]
  omega

/-! ### The interval after a message -/

theorem messageInterval_nil (bits : Nat) (es : List SpecPair) : messageInterval bits es [] = (0, 2 ^ bits) := rfl

/-- The last symbol of a message narrows the interval before it (R185). -/
theorem messageInterval_snoc (bits : Nat) (es : List SpecPair) (msg : List Byte) (c : Byte) :
    messageInterval bits es (msg ++ [c]) =
      arNarrow (pairTotal es) (countBelow es c) (countUpTo es c) (messageInterval bits es msg) := by
  rw [messageInterval, List.foldl_append]
  rfl

/-- A narrowing that ends at the total keeps the high bound (R190). -/
theorem arNarrow_high_of_last {total : Nat} (ht : 0 < total) (cs : Nat) {iv : Nat × Nat} (h : iv.1 ≤ iv.2) :
    (arNarrow total cs total iv).2 = iv.2 := by
  rw [arNarrow, Nat.mul_div_cancel _ ht, Nat.add_sub_cancel' h]

/-- A narrowing that begins at 0 keeps the low bound (R190). -/
theorem arNarrow_low_of_first (total ce : Nat) (iv : Nat × Nat) : (arNarrow total 0 ce iv).1 = iv.1 := by
  rw [arNarrow, Nat.mul_zero, Nat.zero_div, Nat.add_zero]

/-- An empty interval stays empty (R193). -/
theorem arNarrow_of_empty (total cs ce : Nat) {iv : Nat × Nat} (h : iv.1 = iv.2) : arNarrow total cs ce iv = iv := by
  obtain ⟨low, high⟩ := iv
  obtain rfl : low = high := h
  simp [arNarrow]

section
variable {es : List SpecPair} (ht : 0 < pairTotal es) (bits : Nat)
include ht

theorem messageInterval_bounds (msg : List Byte) :
    (messageInterval bits es msg).1 ≤ (messageInterval bits es msg).2 ∧
    (messageInterval bits es msg).2 ≤ 2 ^ bits := by
  induction msg using List.reverseRecOn with
  | nil => exact ⟨Nat.zero_le _, le_rfl⟩
  | append_singleton msg c ih =>
    obtain ⟨hle, hhigh⟩ := ih
    obtain ⟨-, hle', hhigh'⟩ :=
      arNarrow_nested ht (countBelow_le_countUpTo es c) (countUpTo_le_pairTotal es c) hle
    rw [messageInterval_snoc]
    exact ⟨hle', hhigh'.trans hhigh⟩

/-- One more symbol gives an interval inside the one before (R190). -/
theorem messageInterval_snoc_nested (msg : List Byte) (c : Byte) :
    (messageInterval bits es msg).1 ≤ (messageInterval bits es (msg ++ [c])).1 ∧
    (messageInterval bits es (msg ++ [c])).1 ≤ (messageInterval bits es (msg ++ [c])).2 ∧
    (messageInterval bits es (msg ++ [c])).2 ≤ (messageInterval bits es msg).2 := by
  rw [messageInterval_snoc]
  exact arNarrow_nested ht (countBelow_le_countUpTo es c) (countUpTo_le_pairTotal es c)
    (messageInterval_bounds ht bits msg).1

/-- The last symbol in byte order keeps the high bound (R190). -/
theorem messageInterval_snoc_high (msg : List Byte) {c : Byte} (hc : countUpTo es c = pairTotal es) :
    (messageInterval bits es (msg ++ [c])).2 = (messageInterval bits es msg).2 := by
  rw [messageInterval_snoc, hc, arNarrow_high_of_last ht _ (messageInterval_bounds ht bits msg).1]

end

/-- The first symbol in byte order keeps the low bound (R190). -/
theorem messageInterval_snoc_low (bits : Nat) {es : List SpecPair} (msg : List Byte) {c : Byte}
    (hc : countBelow es c = 0) :
    (messageInterval bits es (msg ++ [c])).1 = (messageInterval bits es msg).1 := by
  rw [messageInterval_snoc, hc, arNarrow_low_of_first]

/-- Once the interval is empty it stays as it is for every later symbol (R193). -/
theorem messageInterval_append_of_empty {bits : Nat} {es : List SpecPair} {msg : List Byte}
    (h : (messageInterval bits es msg).1 = (messageInterval bits es msg).2) (rest : List Byte) :
    messageInterval bits es (msg ++ rest) = messageInterval bits es msg := by
  induction rest using List.reverseRecOn with
  | nil => rw [List.append_nil]
  | append_singleton rest c ih =>
    rw [← List.append_assoc, messageInterval_snoc, ih, arNarrow_of_empty _ _ _ h]

/-- The final interval is empty exactly when some step made it so (R193). -/
theorem messageInterval_empty_iff (bits : Nat) (es : List SpecPair) (msg : List Byte) :
    (messageInterval bits es msg).1 = (messageInterval bits es msg).2 ↔
      ∃ n, n ≤ msg.length ∧
        (messageInterval bits es (msg.take n)).1 = (messageInterval bits es (msg.take n)).2 := by
  constructor
  · exact fun h => ⟨msg.length, le_rfl, by rwa [List.take_length]⟩
  · rintro ⟨n, -, h⟩
    have hall := messageInterval_append_of_empty h (msg.drop n)
    rw [List.take_append_drop] at hall
    rw [hall, h]

/-! ### The outcome of AR_ENC -/

/-- AR_ENC's outcome past the eager checks (R194). -/
theorem exec_arEnc_of_inputs {s : State} {msg spec : List Byte} (hin : InputIs s msg) (haux : AuxIs s spec) :
    exec .arEnc s = .next (finish (arEncode s.cfg msg spec) s) := by
  rw [exec_eq_finish_commandOutcome, commandOutcome, runArEnc, afterEager_pass_aux hin haux, hin.bytes, haux.bytes]

section
variable {p : Params} {es : List SpecPair} {e : SpecPair} (hgood : GoodPairs (largestTotal p) (es ++ [e]))
  {known : List Byte} (hknown : ∀ c ∈ known, c ∈ (es ++ [e]).map fun a => a.1)
include hgood hknown

/-- On known symbols AR_ENC reports the interval after the message (R185, R189). -/
theorem arEncode_known : arEncode p known (specBytes es e) =
    .ok (arEncResult known.length (pairTable (es ++ [e])) (messageInterval p.arP (es ++ [e]) known)) := by
  have hloop := arLoop_known hgood.nodup known [] hknown 0 (0, 2 ^ p.arP)
  rw [List.append_nil, arLoop] at hloop
  rw [arEncode, parseSpec_good hgood]
  simp only [hloop]
  rfl

/-- The first symbol without an entry stops the loop at its index (R188). -/
theorem arEncode_unknown {c : Byte} (hc : c ∉ (es ++ [e]).map fun a => a.1) (rest : List Byte) :
    arEncode p (known ++ c :: rest) (specBytes es e) = .error (inError .unknownSymbol known.length) := by
  have hnone : freqOf (pairTable (es ++ [e])) c = none := by
    rw [← Option.not_isSome_iff_eq_none, freqOf_pairTable_isSome]
    exact hc
  rw [arEncode, parseSpec_good hgood]
  simp only [arLoop_known hgood.nodup known _ hknown, arLoop, hnone, Nat.zero_add]

end

/-- Settles O56: the parse raises the violation's error before the loop reads the message. -/
theorem arSpecificationErrors : Obligations.ArSpecificationErrors := by
  intro s msg tail pre code off hin haux hpre hviolation
  refine ⟨_, exec_arEnc_of_inputs hin haux, ?_⟩
  rw [arEncode, parseSpec_violation hpre hviolation]
  exact raiseError_failed hin.legal _

/-- Settles O57: the loop passes the known symbols and stops at the first other one. -/
theorem arUnknownSymbol : Obligations.ArUnknownSymbol := by
  intro s known rest c es e hin haux hgood hknown hc
  exact ⟨_, exec_arEnc_of_inputs hin haux, finish_failed hin.legal (arEncode_unknown hgood hknown hc rest)⟩

/-! ### Completions of AR_ENC -/

theorem arEncResult_regs (n : Nat) (es : List SpecPair) (iv : Nat × Nat) :
    (arEncResult n (pairTable es) iv).regs =
      { ResultRegs.zero with
        resOrig := BitVec.ofNat 32 n
        resComp := BitVec.ofNat 32 (pairTotal es)
        resCount := BitVec.ofNat 32 es.length
        arLow := BitVec.ofNat 64 iv.1
        arHigh := BitVec.ofNat 64 iv.2
        arVal := BitVec.ofNat 64 ((iv.1 + iv.2) / 2) } := by
  rw [← freqTotal_pairTable, ← pairTable_length es]
  rfl

/-- AR_ENC ended in `t`, without an error, with the interval `iv` (R189, R192, R193). -/
structure EndsWithInterval (t : State) (iv : Nat × Nat) : Prop where
  ok : t.status.err = false
  collapsed : t.status.collapsed = decide (iv.1 = iv.2)
  low : t.res.arLow.toNat = iv.1
  high : t.res.arHigh.toNat = iv.2
  val : t.res.arVal.toNat = (iv.1 + iv.2) / 2

/-- The registers hold an interval within `[0, 2^62]` exactly (R192). -/
theorem endsWithInterval_succeed (s : State) (n : Nat) (t : FreqTable) {iv : Nat × Nat} (hle : iv.1 ≤ iv.2)
    (hhigh : iv.2 ≤ 2 ^ 62) : EndsWithInterval (succeed (arEncResult n t iv) s) iv where
  ok := rfl
  collapsed := rfl
  low := Nat.mod_eq_of_lt (show iv.1 < 2 ^ 64 by omega)
  high := Nat.mod_eq_of_lt (show iv.2 < 2 ^ 64 by omega)
  val := Nat.mod_eq_of_lt (show (iv.1 + iv.2) / 2 < 2 ^ 64 by omega)

section
variable {s : State} {msg : List Byte} {es : List SpecPair} {e : SpecPair} (hin : InputIs s msg)
  (haux : AuxIs s (specBytes es e)) (hgood : GoodPairs (largestTotal s.cfg) (es ++ [e]))
  (hknown : ∀ c ∈ msg, c ∈ (es ++ [e]).map fun a => a.1)
include hin haux hgood hknown

/-- AR_ENC on known symbols succeeds (R189). -/
theorem exec_arEnc_known : exec .arEnc s =
    .next (succeed (arEncResult msg.length (pairTable (es ++ [e])) (messageInterval s.cfg.arP (es ++ [e]) msg)) s) := by
  rw [exec_arEnc_of_inputs hin haux, arEncode_known hgood hknown, finish]

theorem endsWithInterval_of_exec_arEnc {t : State} (hexec : exec .arEnc s = .next t) :
    EndsWithInterval t (messageInterval s.cfg.arP (es ++ [e]) msg) := by
  rw [exec_arEnc_known hin haux hgood hknown, Host.Outcome.next.injEq] at hexec
  obtain ⟨hle, hhigh⟩ := messageInterval_bounds hgood.pairTotal_pos s.cfg.arP msg
  have hbits : 2 ^ s.cfg.arP ≤ 2 ^ 62 := Nat.pow_le_pow_right (by decide) hin.legal.arP_le
  exact hexec ▸ endsWithInterval_succeed s _ _ hle (hhigh.trans hbits)

end

/-- Settles O55: the loop passes the whole message, and the registers are read off the result. -/
theorem arEncCompletes : Obligations.ArEncCompletes := by
  intro s msg es e hin haux hgood hknown
  obtain ⟨hle, hhigh⟩ := messageInterval_bounds hgood.pairTotal_pos s.cfg.arP msg
  have hsucceeded := succeed_succeeded hin.legal
    (arEncResult msg.length (pairTable (es ++ [e])) (messageInterval s.cfg.arP (es ++ [e]) msg))
    (Nat.zero_le _) (Nat.zero_le _)
  rw [arEncResult_regs, List.length_append] at hsucceeded
  exact ⟨_, _, _, exec_arEnc_known hin haux hgood hknown, rfl, hle, hhigh, hsucceeded⟩

/-- Settles O58: each symbol narrows the interval before it, and the registers hold the intervals exactly. -/
theorem arIntervalsNest : Obligations.ArIntervalsNest := by
  constructor
  · intro s u t v msg c es e hcfg hin hin' haux haux' hgood hknown hexec hexec'
    have hpos := hgood.pairTotal_pos
    have ht := endsWithInterval_of_exec_arEnc hin haux hgood (fun b hb => hknown b (List.mem_append_left _ hb)) hexec
    have hv := endsWithInterval_of_exec_arEnc hin' haux' (hcfg ▸ hgood) hknown hexec'
    rw [hcfg] at hv
    obtain ⟨hlow, hle, hhigh⟩ := messageInterval_snoc_nested hpos s.cfg.arP msg c
    obtain ⟨-, hbound⟩ := messageInterval_bounds hpos s.cfg.arP msg
    rw [← BitVec.toNat_inj, ← BitVec.toNat_inj, ht.low, ht.high, hv.low, hv.high]
    exact ⟨hlow, hle, hhigh, hbound, messageInterval_snoc_high hpos _ msg, messageInterval_snoc_low _ msg⟩
  · intro s t c es e hin haux hgood hc hexec
    have hpos := hgood.pairTotal_pos
    have ht := endsWithInterval_of_exec_arEnc hin haux hgood (by simpa using hc) hexec
    obtain ⟨hle, hbound⟩ := messageInterval_bounds hpos s.cfg.arP [c]
    rw [← BitVec.toNat_inj, ht.low, ht.high]
    exact ⟨hle, hbound, messageInterval_snoc_high hpos _ [], messageInterval_snoc_low _ []⟩

/-! ### Range containment and collapse -/

/-- The total is within a quarter of the range, so a unit of it is worth at least 4 (R17, R191). -/
theorem four_mul_largestTotal_le {p : Params} (hp : p.Legal) : 4 * largestTotal p ≤ 2 ^ p.arP := by
  have hpow : 2 ^ p.arP = 2 ^ (p.arP - 2) * 4 := by
    rw [← Nat.pow_add _ _ 2, Nat.sub_add_cancel (by have := hp.arP_ge; omega)]
  rw [largestTotal]
  omega

/-- Where a unit of the total is worth at least 4 of the range, the midpoint of a symbol's interval lies strictly inside
its exact bounds (R191). -/
theorem midpoint_strictly_inside {range total cs ce : Nat} (hpos : 0 < total) (hunit : 4 * total ≤ range)
    (h : cs < ce) :
    cs * range < (range * cs / total + range * ce / total) / 2 * total ∧
    (range * cs / total + range * ce / total) / 2 * total < ce * range := by
  have hlow : range * cs < (range * cs / total + 1) * total := Nat.lt_mul_of_div_lt (Nat.lt_succ_self _) hpos
  have hhigh : range * ce / total * total ≤ range * ce := Nat.div_mul_le_self _ _
  have hgap : range * cs / total + 4 ≤ range * ce / total := by
    rw [← Nat.add_mul_div_right _ _ hpos]
    refine Nat.div_le_div_right ?_
    calc range * cs + 4 * total ≤ range * cs + range := Nat.add_le_add_left hunit _
      _ = range * (cs + 1) := (Nat.mul_succ _ _).symm
      _ ≤ range * ce := Nat.mul_le_mul_left _ h
  generalize range * cs / total = low at *
  generalize range * ce / total = high at *
  rw [Nat.mul_comm cs, Nat.mul_comm ce]
  exact ⟨hlow.trans_le (Nat.mul_le_mul_right _ (by omega)),
    (Nat.mul_lt_mul_of_pos_right (by omega) hpos).trans_le hhigh⟩

/-- Settles O59: one symbol's interval is the floors of its exact bounds, and it has at least a unit of the total. -/
theorem arRangeContainment : Obligations.ArRangeContainment := by
  intro s t c es e hin haux hgood hc hexec
  have ht := endsWithInterval_of_exec_arEnc hin haux hgood (by simpa using hc) hexec
  have hunit : 4 * pairTotal (es ++ [e]) ≤ 2 ^ s.cfg.arP :=
    (Nat.mul_le_mul_left 4 hgood.total).trans (four_mul_largestTotal_le hin.legal)
  have hinterval := messageInterval_snoc s.cfg.arP (es ++ [e]) [] c
  rw [List.nil_append, messageInterval_nil, arNarrow, Nat.sub_zero, Nat.zero_add, Nat.zero_add] at hinterval
  rw [ht.val, hinterval]
  exact ⟨ht.ok, midpoint_strictly_inside hgood.pairTotal_pos hunit (hgood.countBelow_lt_countUpTo hc)⟩

/-- Settles O60: COLLAPSED is the test `low = high`, which an empty interval keeps; only AR_ENC sets it. -/
theorem arCollapse : Obligations.ArCollapse := by
  constructor
  · intro s t msg es e hin haux hgood hknown hexec
    have ht := endsWithInterval_of_exec_arEnc hin haux hgood hknown hexec
    rw [← messageInterval_empty_iff, ← BitVec.toNat_inj, ← BitVec.toNat_inj, ht.low, ht.high, ht.val, ht.collapsed,
      decide_eq_true_eq]
    exact ⟨ht.ok, Iff.rfl, Iff.rfl, fun h => by omega⟩
  · intro i s t hi hexec
    exact Bool.eq_false_iff.2 fun hc => hi (arEnc_of_collapsed hexec hc)

end Sys2Proof.Machine

/-! The next state of every step, the completion of an illegal word, and the end of every command within the turns named
(60_exceptions.md R211, R216, R221; 70_reset_and_hazards.md R255). -/

namespace Sys2Proof.Machine

/-- Settles O7: each agent's move has a next state. -/
theorem everyStepHasANextState : Obligations.EveryStepHasANextState := by
  intro s
  obtain ⟨t, hstep, -⟩ := step_cases s
  exact ⟨t, hstep⟩

/-! ### Illegal command words -/

theorem engineMove_of_decodeError {s : State} {snap : Snapshot} {e : DecodeError} (hphase : s.phase = .busy snap)
    (hword : decodeWord s.cmd = .error e) : engineMove s = .next (finishIllegal s) := by
  simp only [engineMove, hphase, hword]

/-- Settles O8: the word decodes to no command, and the engine's move is then the one error completion. -/
theorem illegalWordCompletesWithError : Obligations.IllegalWordCompletesWithError := by
  intro s snap hp hphase hillegal
  obtain ⟨hlegal, -⟩ := legalWordsAreTheSixOpcodes
  cases hword : decodeWord s.cmd with
  | ok i => exact absurd ((hlegal s.cmd).mp ⟨i, hword⟩) hillegal
  | error e => exact ⟨_, engineMove_of_decodeError hphase hword, raiseError_failed hp _⟩

/-! ### The turns a command may take -/

@[simp] theorem finish_turns (r : CmdOutcome) (s : State) : (finish r s).turns = s.turns := by
  cases r <;> rfl

theorem HostEffect.turns {s t : State} (h : HostEffect s t) : t.turns = s.turns := by
  cases h with
  | quiet => rfl
  | write o n w a u _ _ hw => exact hw.turns

theorem EngineEffect.turns {s t : State} (h : EngineEffect s t) : t.turns = s.turns := by
  cases h with
  | idle => rfl
  | command => exact finish_turns _ _
  | illegal => rfl

/-- A step uses one turn up, and no agent names another. -/
theorem step_turns {s t : State} (h : step s = .next t) : t.turns = s.turns.tail := by
  cases stepEffect_of_step h with
  | host t _ he => exact he.turns
  | engine t _ he => exact he.turns
  | hardReset => rfl

theorem core_run_succ {s t : State} (h : step s = .next t) (k : Nat) :
    Sys2Proof.core.run (k + 1) s = Sys2Proof.core.run k t := by
  have hcore : Sys2Proof.core.step s = .next t := h
  simp only [Host.Core.run, hcore]

/-- Settles O30, by induction on the turns named: each step uses one up, and when none is left the engine moves. -/
theorem commandsEndWithinTheTurns : Obligations.CommandsEndWithinTheTurns := by
  intro s
  induction hturns : s.turns generalizing s with
  | nil =>
    cases hbusy : s.busy with
    | false => exact ⟨0, s, Nat.zero_le _, rfl, hbusy⟩
    | true =>
      obtain ⟨t, hstep, -⟩ := step_cases s
      have hmover : s.mover = .engine := by simp [State.mover, hturns, hbusy]
      exact ⟨1, t, Nat.le_refl _, core_run_succ hstep 0, (step_engine hstep hmover).not_busy⟩
  | cons a ts ih =>
    obtain ⟨t, hstep, -⟩ := step_cases s
    obtain ⟨k, u, hk, hrun, hidle⟩ := ih t (by rw [step_turns hstep, hturns, List.tail_cons])
    exact ⟨k + 1, u, Nat.succ_le_succ hk, (core_run_succ hstep k).trans hrun, hidle⟩

end Sys2Proof.Machine

/-! The interrupt output over a step (60_exceptions.md R222). -/

namespace Sys2Proof.Machine

/-! ### Moves that raise or lower `irq` -/

/-- Of the host's writes only one that sets IRQ_EN raises `irq`, and DONE stands by then. -/
theorem WriteEffect.raises_irq {o : Offset} {n : Size} {v : Word} {s u : State} (h : WriteEffect o n v s u)
    (hs : s.irq = false) (hu : u.irq = true) :
    o = 0x004 ∧ n = .word ∧ v.getLsbD 0 = true ∧ s.status.done = true := by
  cases h with
  | irqEnable ho hn => exact ⟨ho, hn, by simpa [State.irq] using hu⟩
  | softReset => simp [State.irq, Status.zero] at hu
  | launch => simp [State.irq] at hu
  | status =>
    simp only [State.irq, Status.clearWritten, Bool.and_eq_true] at hu
    obtain ⟨hen, hdone, -⟩ := hu
    simp [State.irq, hen, hdone] at hs
  | _ => exact absurd (hs.symm.trans hu) (by simp)

/-- The host's writes that lower `irq` clear DONE or IRQ_EN, reset the block, or launch a command. -/
theorem WriteEffect.lowers_irq {o : Offset} {n : Size} {v : Word} {s u : State} (h : WriteEffect o n v s u)
    (hs : s.irq = true) (hu : u.irq = false) :
    n = .word ∧ ((o = 0x00C ∧ v.getLsbD 1 = true) ∨ (o = 0x004 ∧ (v.getLsbD 0 = false ∨ v.getLsbD 1 = true)) ∨
      (o = 0x008 ∧ s.busy = false)) := by
  obtain ⟨hen, hdone⟩ : s.irqEn = true ∧ s.status.done = true := by simpa [State.irq] using hs
  cases h with
  | softReset ho hn hv => exact ⟨hn, .inr (.inl ⟨ho, .inr hv⟩)⟩
  | irqEnable ho hn => exact ⟨hn, .inr (.inl ⟨ho, .inl (by simpa [State.irq, hdone] using hu)⟩)⟩
  | launch ho hn hidle => exact ⟨hn, .inr (.inr ⟨ho, hidle⟩)⟩
  | status ho hn => exact ⟨hn, .inl ⟨ho, by simpa [State.irq, Status.clearWritten, hen, hdone] using hu⟩⟩
  | _ => exact absurd (hs.symm.trans hu) (by simp)

@[simp] theorem finish_irqEn (r : CmdOutcome) (s : State) : (finish r s).irqEn = s.irqEn := by
  cases r <;> rfl

theorem EngineEffect.irqEn {s t : State} (h : EngineEffect s t) : t.irqEn = s.irqEn := by
  cases h with
  | idle => rfl
  | command => exact finish_irqEn _ _
  | illegal => rfl

/-- After the move of a BUSY engine DONE is set, so `irq` is IRQ_EN (R210). -/
theorem EngineEffect.irq_of_busy {s t : State} (h : EngineEffect s t) (hbusy : s.busy = true) : t.irq = s.irqEn := by
  rw [State.irq, h.irqEn, h.done hbusy, Bool.and_true]

theorem EngineEffect.irq_of_idle {s t : State} (h : EngineEffect s t) (hidle : s.busy = false) : t.irq = s.irq := by
  have hphase := (idle_iff s).mp hidle
  cases h with
  | idle => rfl
  | command snap i r hrun => simp [hphase] at hrun
  | illegal snap e hrun => simp [hphase] at hrun

/-! ### Steps -/

/-- A step that raises `irq` is a completion or the host's setting of IRQ_EN. -/
theorem step_raises_irq {s t : State} (h : step s = .next t) (hs : s.irq = false) (ht : t.irq = true) :
    (s.mover = .engine ∧ s.busy = true ∧ s.irqEn = true) ∨
      ∃ v, HostStores s 0x004 v ∧ v.getLsbD 0 = true ∧ s.status.done = true := by
  cases stepEffect_of_step h with
  | hardReset => simp [State.irq] at ht
  | engine t hm he =>
    cases hbusy : s.busy with
    | false =>
      rw [he.irq_of_idle hbusy] at ht
      exact absurd (hs.symm.trans ht) (by simp)
    | true => exact .inl ⟨hm, rfl, (he.irq_of_busy hbusy).symm.trans ht⟩
  | host t hm he =>
    cases he with
    | quiet => exact absurd (hs.symm.trans ht) (by simp)
    | write o n w a u _ hop hw =>
      obtain ⟨rfl, rfl, hset, hdone⟩ := hw.raises_irq hs ht
      exact .inr ⟨_, .of_store hm hop, hset, hdone⟩

/-- A step that lowers `irq` is a reset, the host's clearing of DONE or IRQ_EN, or a launch. -/
theorem step_lowers_irq {s t : State} (h : step s = .next t) (hs : s.irq = true) (ht : t.irq = false) :
    s.mover = .hardReset ∨ (∃ v, HostStores s 0x00C v ∧ v.getLsbD 1 = true) ∨
      (∃ v, HostStores s 0x004 v ∧ (v.getLsbD 0 = false ∨ v.getLsbD 1 = true)) ∨
      ∃ v, HostStores s 0x008 v ∧ s.busy = false := by
  cases stepEffect_of_step h with
  | hardReset hm => exact .inl hm
  | engine t hm he =>
    cases hbusy : s.busy with
    | false =>
      rw [he.irq_of_idle hbusy] at ht
      exact absurd (hs.symm.trans ht) (by simp)
    | true =>
      rw [he.irq_of_busy hbusy] at ht
      simp [State.irq, show s.irqEn = false from ht] at hs
  | host t hm he =>
    cases he with
    | quiet => exact absurd (hs.symm.trans ht) (by simp)
    | write o n w a u _ hop hw =>
      obtain ⟨rfl, ⟨rfl, hv⟩ | ⟨rfl, hv⟩ | ⟨rfl, hidle⟩⟩ := hw.lowers_irq hs ht
      · exact .inr (.inl ⟨_, .of_store hm hop, hv⟩)
      · exact .inr (.inr (.inl ⟨_, .of_store hm hop, hv⟩))
      · exact .inr (.inr (.inr ⟨_, .of_store hm hop, hidle⟩))

/-- A CTRL write stores IRQ_EN, and a soft reset clears DONE (R26, R243). -/
theorem writeReg_ctrl_irq (v : Word) (s : State) :
    (writeReg .ctrl v s).irq = (v.getLsbD 0 && !v.getLsbD 1 && s.status.done) := by
  cases hv : v.getLsbD 1 with
  | true => simp [writeReg_ctrl_reset hv, State.irq, Status.zero]
  | false => simp [writeReg_ctrl_irqEn hv, State.irq]

/-- Settles O28: the moves that change `irq` are those named, and each of them does. -/
theorem irqRisesAndFallsAsStated : Obligations.IrqRisesAndFallsAsStated := by
  intro s t h
  refine ⟨rfl, step_raises_irq h, step_lowers_irq h, fun hm hbusy hen => ?completion, fun v hs => ?ctrl,
    fun v hs hv => ?clearDone, fun v hs hidle => ?launch, fun hm => ?hardReset⟩
  case completion => exact ((step_engine h hm).irq_of_busy hbusy).trans hen
  case ctrl =>
    rw [step_of_hostStores (r := .ctrl) hs (by decide) (by decide) h]
    exact writeReg_ctrl_irq v { s with turns := s.turns.tail }
  case clearDone =>
    rw [step_of_hostStores (r := .status) hs (by decide) (by decide) h, writeReg_status]
    simp [State.irq, Status.clearWritten, hv]
  case launch =>
    rw [step_of_hostStores (r := .cmd) hs (by decide) (by decide) h,
      writeReg_cmd_idle (s := { s with turns := s.turns.tail }) hidle]
    simp [State.irq]
  case hardReset =>
    rw [step_eq_move, hm, move_hardReset] at h
    cases h
    rfl

end Sys2Proof.Machine

/-! Which errors a command can raise, in which order, and what an error leaves (60_exceptions.md R213 to R215). -/

namespace Sys2Proof.Machine

/-! ### The errors of the decoders -/

/-- LZW_DEC's loop fails only on a code without an entry or on a full OUT (R150). -/
theorem lzwExpand_error {p : Params} {d : Dict} {previous out : List Byte} {j : Nat} {ks : List Nat} {e : CmdError}
    (h : lzwExpand p d previous out j ks = .error e) : ∃ n, e = inError .format n ∨ e = inError .capacity n := by
  induction ks generalizing d previous out j with
  | nil => cases h
  | cons k ks ih =>
    rw [lzwExpand] at h
    split at h
    · cases h
      exact ⟨_, .inl rfl⟩
    split at h
    · cases h
      exact ⟨_, .inl rfl⟩
    split at h
    · cases h
      exact ⟨_, .inr rfl⟩
    · exact ih h

theorem lzwDecode_error {p : Params} {ks : List Nat} {e : CmdError} (h : lzwDecode p ks = .error e) :
    ∃ n, e = inError .format n ∨ e = inError .capacity n := by
  cases ks with
  | nil => cases h
  | cons k ks =>
    rw [lzwDecode] at h
    split at h
    · cases h
      exact ⟨_, .inl rfl⟩
    · exact lzwExpand_error h

/-- RLE_DEC's loop fails only on a zero count or on a full OUT (R128). -/
theorem rleExpand_error {nOut : Nat} {runs : List Run} {e : CmdError} (h : rleExpand nOut 0 [] runs = .error e) :
    ∃ n, e = inError .format n ∨ e = inError .capacity n := by
  obtain ⟨out, hok, -⟩ | ⟨n, herr | herr⟩ := rleExpand_cases (r := 0) (out := []) (Nat.zero_le nOut) runs
  · simp [hok] at h
  · exact ⟨n, .inl (by simpa [herr] using h.symm)⟩
  · exact ⟨n, .inr (by simpa [herr] using h.symm)⟩

/-! ### Eager checks, then the algorithm -/

/-- The bytes of a record that IN must be a whole number of (R215). -/
def recordSize : Instr → Nat
  | .rleDec => 4
  | .lzwDec => 2
  | _ => 1

/-- The errors that the algorithm of `i` itself can raise, once the eager checks pass (R214). -/
inductive AlgorithmError (i : Instr) (e : CmdError) : Prop where
  | decoder (n : Nat) : i = .rleDec ∨ i = .lzwDec → e = inError .format n ∨ e = inError .capacity n → AlgorithmError i e
  | specification : i = .arEnc → e.auxBuf = true → e.code = .format ∨ e.code = .capacity → AlgorithmError i e
  | symbol : i = .arEnc → e.auxBuf = false → e.code = .unknownSymbol → AlgorithmError i e

/-- Every command is its eager checks, which are told apart by the use of AUX and the record size alone, and then its
algorithm (R96, R215). -/
theorem commandOutcome_eq_afterEager (i : Instr) (p : Params) (snap : Snapshot) : ∃ body,
    commandOutcome i p snap = afterEager p snap (decide (i = .arEnc)) (recordSize i) body ∧
    ∀ e, body = .error e → AlgorithmError i e := by
  cases i with
  | rleEnc | lzwEnc | sfEnc => exact ⟨_, rfl, fun e h => by cases h⟩
  | rleDec =>
    refine ⟨_, rfl, fun e h => ?_⟩
    split at h <;> cases h
    obtain ⟨n, he⟩ := rleExpand_error ‹_›
    exact .decoder n (.inl rfl) he
  | lzwDec =>
    refine ⟨_, rfl, fun e h => ?_⟩
    split at h <;> cases h
    obtain ⟨n, he⟩ := lzwDecode_error ‹_›
    exact .decoder n (.inr rfl) he
  | arEnc =>
    refine ⟨_, rfl, fun e h => ?_⟩
    obtain ⟨t, iv, hok, -⟩ | ⟨e', herr, hkind⟩ := arEncode_cases p snap.input snap.aux
    · simp [hok] at h
    · obtain rfl : e' = e := by simpa [herr] using h
      obtain ⟨hbuf, hcode⟩ | ⟨hbuf, hcode⟩ := hkind
      · exact .specification rfl hbuf hcode
      · exact .symbol rfl hbuf hcode

theorem afterEager_emptyAux {p : Params} {snap : Snapshot} {unit : Nat} (body : CmdOutcome)
    (hne : snap.inLen.toNat ≠ 0) (hfits : snap.inLen.toNat ≤ p.nIn) (h : snap.auxLen.toNat = 0) :
    afterEager p snap true unit body = .error (auxError .emptyInput 0) := by
  rw [afterEager, eagerError, if_neg hne, if_neg (by omega)]
  simp [h]

theorem afterEager_auxCapacity {p : Params} {snap : Snapshot} {unit : Nat} (body : CmdOutcome)
    (hne : snap.inLen.toNat ≠ 0) (hfits : snap.inLen.toNat ≤ p.nIn) (haux : snap.auxLen.toNat ≠ 0)
    (h : p.nAux < snap.auxLen.toNat) : afterEager p snap true unit body = .error (auxError .capacity 0) := by
  rw [afterEager, eagerError, if_neg hne, if_neg (by omega)]
  simp [haux, h]

/-- The eager checks of `i` pass (R215). -/
structure EagerPass (i : Instr) (p : Params) (snap : Snapshot) : Prop where
  nonempty : snap.inLen.toNat ≠ 0
  fits : snap.inLen.toNat ≤ p.nIn
  aux : i = .arEnc → snap.auxLen.toNat ≠ 0 ∧ snap.auxLen.toNat ≤ p.nAux
  records : snap.inLen.toNat % recordSize i = 0

theorem EagerPass.afterEager_eq {i : Instr} {p : Params} {snap : Snapshot} (h : EagerPass i p snap) (body : CmdOutcome) :
    afterEager p snap (decide (i = .arEnc)) (recordSize i) body = body := by
  have hnone : eagerError p snap (decide (i = .arEnc)) (recordSize i) = none := by
    rw [eagerError, if_neg h.nonempty, if_neg (Nat.not_lt_of_le h.fits)]
    by_cases hi : i = .arEnc
    · obtain ⟨hne, hfits⟩ := h.aux hi
      simp [hne, hfits, h.records]
    · simp [hi, h.records]
  rw [afterEager, hnone]

/-- The ways a command can end, with what each says of the length registers: the eager errors in the order checked, an
error of the algorithm, and a success (R214, R215). -/
inductive CommandEnd (i : Instr) (p : Params) (snap : Snapshot) : CmdOutcome → Prop where
  | emptyInput : snap.inLen.toNat = 0 → CommandEnd i p snap (.error (inError .emptyInput 0))
  | capacity : snap.inLen.toNat ≠ 0 → p.nIn < snap.inLen.toNat → CommandEnd i p snap (.error (inError .capacity 0))
  | emptyAux : snap.inLen.toNat ≠ 0 → snap.inLen.toNat ≤ p.nIn → i = .arEnc → snap.auxLen.toNat = 0 →
    CommandEnd i p snap (.error (auxError .emptyInput 0))
  | auxCapacity : snap.inLen.toNat ≠ 0 → snap.inLen.toNat ≤ p.nIn → i = .arEnc → snap.auxLen.toNat ≠ 0 →
    p.nAux < snap.auxLen.toNat → CommandEnd i p snap (.error (auxError .capacity 0))
  | format : snap.inLen.toNat ≠ 0 → snap.inLen.toNat ≤ p.nIn → snap.inLen.toNat % recordSize i ≠ 0 →
    CommandEnd i p snap (.error (inError .format 0))
  | algorithmError (e : CmdError) : EagerPass i p snap → AlgorithmError i e → CommandEnd i p snap (.error e)
  | success (r : CmdResult) : EagerPass i p snap → CommandEnd i p snap (.ok r)

theorem decoder_of_ragged {i : Instr} {n : Nat} (h : n % recordSize i ≠ 0) : i = .rleDec ∨ i = .lzwDec := by
  cases i <;> simp [recordSize, Nat.mod_one] at h ⊢

/-- Every command ends in one of these ways, on any parameters and any snapshot. -/
theorem commandOutcome_end (i : Instr) (p : Params) (snap : Snapshot) :
    CommandEnd i p snap (commandOutcome i p snap) := by
  obtain ⟨body, hbody, herror⟩ := commandOutcome_eq_afterEager i p snap
  rw [hbody]
  by_cases hne : snap.inLen.toNat = 0
  · rw [afterEager_emptyInput body hne]
    exact .emptyInput hne
  by_cases hbig : p.nIn < snap.inLen.toNat
  · rw [afterEager_capacity body hne hbig]
    exact .capacity hne hbig
  have hfits := Nat.le_of_not_lt hbig
  by_cases hempty : i = .arEnc ∧ snap.auxLen.toNat = 0
  · obtain ⟨hi, haux⟩ := hempty
    rw [decide_eq_true hi, afterEager_emptyAux body hne hfits haux]
    exact .emptyAux hne hfits hi haux
  by_cases hauxBig : i = .arEnc ∧ p.nAux < snap.auxLen.toNat
  · obtain ⟨hi, hlt⟩ := hauxBig
    have haux : snap.auxLen.toNat ≠ 0 := fun h => hempty ⟨hi, h⟩
    rw [decide_eq_true hi, afterEager_auxCapacity body hne hfits haux hlt]
    exact .auxCapacity hne hfits hi haux hlt
  by_cases hrecords : snap.inLen.toNat % recordSize i = 0
  · have hpass : EagerPass i p snap :=
      ⟨hne, hfits, fun hi => ⟨fun h => hempty ⟨hi, h⟩, Nat.le_of_not_lt fun h => hauxBig ⟨hi, h⟩⟩, hrecords⟩
    rw [hpass.afterEager_eq body]
    cases hr : body with
    | ok r => exact .success r hpass
    | error e => exact .algorithmError e hpass (herror e hr)
  · have hi : i ≠ .arEnc := by
      obtain rfl | rfl := decoder_of_ragged hrecords <;> simp
    rw [decide_eq_false hi, afterEager_format body hne hfits hrecords]
    exact .format hne hfits hrecords

theorem CommandEnd.code_ne_none {i : Instr} {p : Params} {snap : Snapshot} {e : CmdError}
    (h : CommandEnd i p snap (.error e)) : e.code ≠ .none := by
  cases h with
  | algorithmError e _ halg =>
    cases halg with
    | decoder n _ he => obtain rfl | rfl := he <;> simp [inError]
    | specification _ _ hcode => obtain hcode | hcode := hcode <;> simp [hcode]
    | symbol _ _ hcode => simp [hcode]
  | _ => simp [inError, auxError]

/-! ### The errors reported -/

theorem finish_failed_of_error {s : State} (hs : s.cfg.Legal) {o : CmdOutcome} {e : CmdError} (h : o = .error e) :
    Failed s (finish o s) e.code e.pos e.auxBuf := by
  subst h
  exact raiseError_failed hs e

/-- Settles O40: each check comes after those before it have passed, and raises its error. -/
theorem eagerChecksInOrder : Obligations.EagerChecksInOrder := by
  intro i s hp
  obtain ⟨body, hbody, -⟩ := commandOutcome_eq_afterEager i s.cfg s.snapshot
  refine ⟨_, exec_eq_finish_commandOutcome i s, fun hempty => ?emptyInput, fun hne hbig => ?capacity,
    fun hne hfits => ⟨fun hi haux => ?emptyAux, fun hi haux hbig => ?auxCapacity, fun hi hunit => ?rleFormat,
      fun hi hunit => ?lzwFormat⟩⟩
  case emptyInput => exact finish_failed hp (hbody.trans (afterEager_emptyInput body hempty))
  case capacity => exact finish_failed hp (hbody.trans (afterEager_capacity body hne hbig))
  all_goals subst hi
  case emptyAux => exact finish_failed_of_error hp (hbody.trans (afterEager_emptyAux body hne hfits haux))
  case auxCapacity => exact finish_failed_of_error hp (hbody.trans (afterEager_auxCapacity body hne hfits haux hbig))
  case rleFormat | lzwFormat => exact finish_failed hp (hbody.trans (afterEager_format body hne hfits hunit))

/-- Settles O38: ERR is set by the error completion alone, and no command raises the code NONE. -/
theorem errorsLeaveNoPartialResult : Obligations.ErrorsLeaveNoPartialResult := by
  intro i s t hp h herr
  rw [exec_eq_finish_commandOutcome] at h
  cases h
  have hend := commandOutcome_end i s.cfg s.snapshot
  cases hr : commandOutcome i s.cfg s.snapshot with
  | ok r => simp [hr, finish] at herr
  | error e =>
    rw [hr] at hend
    exact ⟨e.code, e.pos, e.auxBuf, hend.code_ne_none, raiseError_failed hp e⟩

theorem word_eq_zero_iff (w : Word) : w = 0 ↔ w.toNat = 0 := BitVec.toNat_inj.symm

/-- Settles O39: the ways a command can end, each with its code and its conditions on the lengths. -/
theorem errorsOfEachCommand : Obligations.ErrorsOfEachCommand := by
  intro i s t h
  rw [exec_eq_finish_commandOutcome] at h
  cases h
  simp only [ne_eq, word_eq_zero_iff]
  generalize hr : commandOutcome i s.cfg s.snapshot = r
  have hend := commandOutcome_end i s.cfg s.snapshot
  rw [hr] at hend
  cases hend with
  | emptyInput hempty => simp [finish, inError, hempty]
  | capacity hne hbig => simp [finish, inError, hne, hbig, Nat.not_le_of_lt hbig]
  | emptyAux hne hfits hi haux => simp [finish, auxError, hne, hfits, hi, haux]
  | auxCapacity hne _ hi haux => simp [finish, auxError, hne, hi, haux]
  | format hne _ hrecords => obtain rfl | rfl := decoder_of_ragged hrecords <;> simp [finish, inError, hne]
  | algorithmError e hpass halg =>
    cases halg with
    | decoder n hi he =>
      obtain rfl | rfl := hi <;> obtain rfl | rfl := he <;> simp [finish, inError, hpass.nonempty]
    | specification hi hbuf hcode =>
      obtain ⟨haux, -⟩ := hpass.aux hi
      obtain hcode | hcode := hcode <;> simp [finish, hi, hbuf, hcode, hpass.nonempty, haux]
    | symbol hi hbuf hcode =>
      obtain ⟨haux, -⟩ := hpass.aux hi
      simp [finish, hi, hbuf, hcode, hpass.nonempty, haux]
  | success r hpass => simpa [finish, hpass.nonempty, hpass.fits] using fun hi => (hpass.aux hi).1

end Sys2Proof.Machine

/-! The bytes of memory a running command changes (60_exceptions.md R210, R213; 10_state.md R46, R47). -/

namespace Sys2Proof.Machine

/-- A byte of the windows of OUT and TAB that is not among those reported holds no value (R46, R47). -/
theorem State.MemoryOk.get_eq_none {s : State} (h : s.MemoryOk) (hp : s.cfg.Legal) {a : Nat}
    (ha : ¬ OutsideOutputs a)
    (hout : ¬ (Buffer.out.base ≤ a ∧ a < Buffer.out.base + s.res.outLen.toNat))
    (htab : s.res.resWidth ≠ 0 → ¬ (Buffer.tab.base ≤ a ∧ a < Buffer.tab.base + 8 * s.res.resCount.toNat)) :
    s.mem.get a = none := by
  rw [← Option.not_isSome_iff_eq_none]
  intro hsome
  obtain ⟨b, hlo, hhi⟩ := h.placed a hsome
  have hnIn := hp.nIn_le
  have hnAux := hp.nAux_le
  obtain ⟨j, rfl⟩ := Nat.exists_eq_add_of_le hlo
  cases b with
  | input | aux =>
    simp only [OutsideOutputs, Buffer.base, Buffer.size, outSpan] at ha hhi
    omega
  | out =>
    have hj : j < s.res.outLen.toNat := (h.out_defined j (Nat.lt_of_add_lt_add_left hhi)).mp hsome
    exact hout ⟨hlo, Nat.add_lt_add_left hj _⟩
  | tab =>
    obtain ⟨hwidth, hj⟩ := (h.tab_defined j (Nat.lt_of_add_lt_add_left hhi)).mp hsome
    exact htab hwidth ⟨hlo, Nat.add_lt_add_left hj _⟩

/-- While BUSY no byte of OUT or TAB holds a value (R46, R47). -/
theorem State.Inv.outputs_none_of_busy {s : State} (h : s.Inv) (hbusy : s.busy = true) {a : Nat}
    (ha : ¬ OutsideOutputs a) : s.mem.get a = none := by
  have hres := h.results.busy_res hbusy
  refine h.memory.get_eq_none h.legal ha ?_ fun hwidth => ?_
  · rw [hres]
    rintro ⟨hlo, hhi⟩
    exact Nat.not_lt.mpr hlo hhi
  · rw [hres] at hwidth
    exact absurd rfl hwidth

/-- A command on a snapshot of its launch changes no byte outside OUT and TAB (R79). -/
theorem exec_mem_outside {i : Instr} {s t : State} (h : s.Inv) (hexec : exec i s = .next t) {a : Nat}
    (ha : OutsideOutputs a) : t.mem.get a = s.mem.get a := by
  obtain ⟨r, hr, -, hsucceeded⟩ | ⟨e, he, -, hfailed⟩ := exec_completes i h.legal h.snapshot
  · cases hr.symm.trans hexec
    exact hsucceeded.frame.mem a ha
  · cases he.symm.trans hexec
    exact hfailed.frame.mem a ha

/-- Settles O37: the other bytes of OUT and TAB hold no value before, while BUSY, nor after, by the invariant, and the
completion's frame covers the rest. -/
theorem commandsStoreOnlyTheirOutputBytes : Obligations.CommandsStoreOnlyTheirOutputBytes := by
  intro i s t a hinv hbusy hexec hout htab
  by_cases ha : OutsideOutputs a
  · exact exec_mem_outside hinv hexec ha
  · have ht := exec_keeps_inv hinv hexec
    obtain ⟨-, -, hwidth, -⟩ := unnamedResultsAreZero i s t hexec
    rw [hinv.outputs_none_of_busy hbusy ha]
    exact ht.memory.get_eq_none ht.legal ha hout fun hw hin => htab ⟨not_imp_comm.mp hwidth hw, hin⟩

end Sys2Proof.Machine

/-! The race of an IN_LEN write with a completion (60_exceptions.md R218; 20_memory.md R72, R78). -/

namespace Sys2Proof.Machine

/-- The host's line that writes IN_LEN (R30, R72). -/
theorem hostMove_storeInLen {s : State} {v : Word}
    (h : s.host.prog[s.host.pc]? = some (.store .word 0x010 (.const v))) :
    hostMove s = { unlessBusy { s with inLen := v } s with
      answer := some .ok, host := s.host.goto (s.host.pc + 1) } := by
  rw [hostMove_of_line h, hostOp_store, transact_write_register (r := .inLen) (by decide) (by decide)]
  rfl

@[simp] theorem finish_host (r : CmdOutcome) (s : State) : (finish r s).host = s.host := by
  cases r <;> rfl

/-- One outcome on equal memories leaves equal memories. -/
theorem finish_mem_congr {s u : State} (r : CmdOutcome) (h : u.mem = s.mem) : (finish r u).mem = (finish r s).mem := by
  cases r <;> simp [finish, h]

/-- Settles O42: once IDLE the block takes the write; while BUSY it drops it and keeps the snapshot, so the command has
the same outcome. -/
theorem lengthWriteRacesWithCompletion : Obligations.LengthWriteRacesWithCompletion := by
  intro s v hbusy hline
  obtain ⟨snap, hphase⟩ := (busy_iff s).mp hbusy
  obtain ⟨t, ht, -⟩ := engineMove_cases s
  obtain ⟨u, hu, -⟩ := engineMove_cases (hostMove s)
  obtain ⟨r, rfl, hunique⟩ := engineMove_outcome hphase ht
  have hafter := hostMove_storeInLen (s := finish r s) (v := v) (by rw [finish_host]; exact hline)
  rw [unlessBusy_of_idle (finish_busy r s)] at hafter
  have hbefore := hostMove_storeInLen hline
  rw [unlessBusy_of_busy hbusy] at hbefore
  obtain rfl := hunique (hostMove s) u (by rw [hbefore]; rfl) (by rw [hbefore]; rfl) (by rw [hbefore]; exact hphase) hu
  have hsame : SameResults (finish r s) (finish r (hostMove s)) := finish_sameResults r (by rw [hbefore]; rfl)
  have hdropped : (hostMove s).status.dropped = true := by rw [hbefore]; rfl
  refine ⟨_, _, ht, by rw [hafter], by rw [hafter], by rw [hbefore]; rfl, hdropped, hu, hsame.res,
    (finish_dropped r _).trans hdropped, hsame.errCode, fun a => ?_⟩
  rw [finish_mem_congr (s := s) r (by rw [hbefore]; rfl)]

end Sys2Proof.Machine

/-! The two resets and the reset state (10_state.md R23; 70_reset_and_hazards.md R241, R243). -/

namespace Sys2Proof.Machine

/-! ### Soft reset -/

/-- A soft reset leaves DONE 0, so `irq` is 0 whatever IRQ_EN takes (R222, R243). -/
theorem softReset_irq (v : Word) (s : State) : (softReset v s).irq = false := by
  simp [State.irq, Status.zero]

/-- Settles O13: the write to CTRL is `softReset`, which of memory forgets OUT and TAB alone. -/
theorem softResetEffects : Obligations.SoftResetEffects := by
  intro s v hreset
  have hwrite : transact (.write 0x004 .word v) s = { softReset v s with answer := some .ok } := by
    rw [transact_write_register (r := .ctrl) (by decide) (by decide), writeReg_ctrl_reset hreset]
  exact ⟨_, hwrite, rfl, rfl, rfl, rfl, rfl, rfl, rfl, rfl, softReset_irq v s,
    fun _ ha => Memory.forgetOutputs_inside s.mem ha, fun _ ha => Memory.forgetOutputs_outside s.mem ha,
    rfl, rfl, rfl, rfl⟩

/-! ### The block at the table of R241 -/

/-- What the block holds right after a hardware reset: the table of R241, less the parameters, which a reset keeps. -/
structure State.AtReset (s : State) : Prop where
  irqEn : s.irqEn = false
  cmd : s.cmd = 0
  status : s.status = .zero
  inLen : s.inLen = 0
  auxLen : s.auxLen = 0
  res : s.res = .zero
  phase : s.phase = .idle
  mem : s.mem = []

theorem State.reset_atReset : State.reset.AtReset := ⟨rfl, rfl, rfl, rfl, rfl, rfl, rfl, rfl⟩

theorem hardReset_atReset (s : State) : (hardReset s).AtReset := ⟨rfl, rfl, rfl, rfl, rfl, rfl, rfl, rfl⟩

theorem State.AtReset.busy {s : State} (h : s.AtReset) : s.busy = false := (idle_iff s).2 h.phase

theorem State.AtReset.irq {s : State} (h : s.AtReset) : s.irq = false := by
  rw [State.irq, h.irqEn, Bool.false_and]

theorem State.AtReset.mem_get {s : State} (h : s.AtReset) (a : Nat) : s.mem.get a = none := by
  rw [h.mem, Memory.get_nil]

/-! ### What the registers read -/

/-- The registers a host write can change and the result registers are the words from 0x004 to 0x04C (R23). -/
theorem regAt_writable_or_result {o : Nat} (hlo : 0x004 ≤ o) (hhi : o < 0x050) :
    ∃ r, regAt o = some r ∧ (r.writable = true ∨ r.isResult = true) := by
  by_cases hres : 0x018 ≤ o
  · obtain ⟨r, hr, hresult⟩ := regAt_result hres hhi
    exact ⟨r, hr, .inr hresult⟩
  · have hlo : 1 ≤ o / 4 := by omega
    have hhi : o / 4 < 6 := by omega
    unfold regAt
    generalize o / 4 = q at hlo hhi
    interval_cases q <;> exact ⟨_, rfl, .inl rfl⟩

theorem State.AtReset.readReg_writable {s : State} (h : s.AtReset) {r : RegName} (hr : r.writable = true) :
    readReg r s = 0 := by
  cases r with
  | ctrl => rw [readReg, State.ctrlWord, h.irqEn]; rfl
  | cmd => exact h.cmd
  | status => rw [readReg, State.statusWord, h.busy, h.status]; rfl
  | inLen => exact h.inLen
  | auxLen => exact h.auxLen
  | _ => simp [RegName.writable] at hr

/-- The block is IDLE, so a result register reads the 0 it holds and not a draw (R74, R241). -/
theorem State.AtReset.readReg_result {s : State} (h : s.AtReset) {r : RegName} (hr : r.isResult = true) :
    readReg r s = 0 := by
  cases r with
  | id | ctrl | cmd | status | inLen | auxLen | cfg0 | cfgNIn | cfgNAux | cfgNOut => simp [RegName.isResult] at hr
  | _ => rw [readReg, readResult_of_idle h.busy, h.res]; rfl

theorem State.AtReset.portRead_zero {s : State} (h : s.AtReset) {o : Offset} (hm : o.toNat % 4 = 0)
    (hlo : 0x004 ≤ o.toNat) (hhi : o.toNat < 0x050) : portRead o .word s = some 0 := by
  obtain ⟨r, hr, hkind⟩ := regAt_writable_or_result hlo hhi
  rw [portRead_register hm hr, hkind.elim h.readReg_writable h.readReg_result]

/-- Settles O24: both the reset state and every state after a hardware reset hold the table of R241, and the port reads
it back. -/
theorem hardwareResetState : Obligations.HardwareResetState := by
  refine ⟨hardReset_cfg, fun r hr => ?_⟩
  have h : r.AtReset := by
    obtain rfl | ⟨s, rfl⟩ := hr
    · exact State.reset_atReset
    · exact hardReset_atReset s
  exact ⟨h.phase, h.irq, h.mem_get, portRead_register (r := .id) (by decide) (by decide) r,
    fun o hm hlo hhi => h.portRead_zero hm hlo hhi,
    portRead_register (r := .cfg0) (by decide) (by decide) r, portRead_register (r := .cfgNIn) (by decide) (by decide) r,
    portRead_register (r := .cfgNAux) (by decide) (by decide) r,
    portRead_register (r := .cfgNOut) (by decide) (by decide) r⟩

/-! ### The invariant at reset -/

/-- With every buffer empty and no output reported, memory is as the results say (R46, R47, R241). -/
theorem State.AtReset.memoryOk {s : State} (h : s.AtReset) : s.MemoryOk where
  wf := by rw [h.mem]; rfl
  placed a ha := by simp [h.mem_get] at ha
  out_len := by rw [h.res]; exact Nat.zero_le _
  out_defined j _ := by simp [h.mem_get, h.res, ResultRegs.zero]
  tab_defined j _ := by simp [h.mem_get, h.res, ResultRegs.zero]

/-- Under legal parameters the table of R241 meets the invariant. -/
theorem State.AtReset.inv {s : State} (h : s.AtReset) (hp : s.cfg.Legal) : s.Inv where
  legal := hp
  memory := h.memoryOk
  results := .of_cleared (by rw [h.status]; rfl) h.res
  snapshot := .of_idle h.phase

/-- The default parameters of R9 are legal. -/
theorem State.reset_cfg_legal : State.reset.cfg.Legal := by
  constructor <;> decide

/-- Settles O31: the reset state holds the table of R241, with legal parameters. -/
theorem resetMeetsTheInvariant : Obligations.ResetMeetsTheInvariant :=
  State.reset_atReset.inv State.reset_cfg_legal

end Sys2Proof.Machine
